-- ==== Sys2Proof/Word.lean ====
section
/-! DEFINITION. The bit-vector types of the block's ports and the small closed types that its command parameters range over. -/

namespace Sys2Proof

/-- A command word, the value of port CMD (R26, R60). -/
abbrev CmdWord := BitVec 16

/-- One 64-bit slot of a bus (R8, R14). -/
abbrev Slot := BitVec 64

/-- A 256-bit bus of four slots, the type of ports A and Y (R8, R26). -/
abbrev Bus := BitVec 256

/-- The lane bit width BITS of the Normalized Fixed-Point unit (R5). -/
inductive LaneBits where
  | b8
  | b16
  | b32
  deriving DecidableEq, Repr

/-- The lane count N of a vector operation (R6). -/
inductive LaneCount where
  | x2
  | x4
  deriving DecidableEq, Repr

/-- The float format F of a normalized lane, as field FT selects it (R7). -/
inductive LaneFloat where
  | f32
  | f64
  deriving DecidableEq, Repr

/-- The three floating-point formats of the spec (R15). -/
inductive FloatFmt where
  | binary16
  | binary32
  | binary64
  deriving DecidableEq, Repr

/-- The two operations whose NaN lanes the spec leaves open (R128). -/
inductive NormPack where
  | unorm
  | snorm
  deriving DecidableEq, Repr

/-- A host's order for the bytes of a stored result (R42). -/
inductive ByteOrder where
  | littleEndian
  | bigEndian
  deriving DecidableEq, Repr, Inhabited

end Sys2Proof
end

