-- ==== Sys2Proof/Syntax.lean ====
section
/-! DEFINITION. The 34 operations of the block, one constructor per row of the opcode map (R63). -/

namespace Sys2Proof

/-- One legal command. A class-V command carries BITS, N and F, a class-H command carries N, and a class-S command
carries nothing (R64): every term is a legal command, since the parameter types hold no reserved value. -/
inductive Instr where
  -- Bit-Reinterpretation unit
  | floatToBits
  | bitsToFloat
  | halfBitsToFloat
  | floatToHalfBits
  -- Normalized Fixed-Point unit
  | packUnorm (b : LaneBits) (n : LaneCount) (f : LaneFloat)
  | unpackUnorm (b : LaneBits) (n : LaneCount) (f : LaneFloat)
  | packSnorm (b : LaneBits) (n : LaneCount) (f : LaneFloat)
  | unpackSnorm (b : LaneBits) (n : LaneCount) (f : LaneFloat)
  -- Lane-Packing unit, uniform
  | packInt2x8
  | unpackInt2x8
  | packUint2x8
  | unpackUint2x8
  | packInt4x8
  | unpackInt4x8
  | packUint4x8
  | unpackUint4x8
  | packInt2x16
  | unpackInt2x16
  | packUint2x16
  | unpackUint2x16
  | packInt4x16
  | unpackInt4x16
  | packUint4x16
  | unpackUint4x16
  | packInt2x32
  | unpackInt2x32
  | packUint2x32
  | unpackUint2x32
  -- Lane-Packing unit, 10-10-10-2
  | packI3x10_1x2
  | unpackI3x10_1x2
  | packU3x10_1x2
  | unpackU3x10_1x2
  -- Half-Float Vector unit
  | packHalf (n : LaneCount)
  | unpackHalf (n : LaneCount)
  deriving DecidableEq, Repr

end Sys2Proof
end

