-- ==== Sys2Proof/WellFormed.lean ====
section
/-! DEFINITION. Well-formedness of a command word: the five reserved conditions of R65 one by one, and the legality check
of R66. An `Instr` needs no check, since its parameter types hold no reserved value; what can be ill-formed is a word.
The decoder does not call these checks: that it accepts exactly the legal words is a statement. -/

namespace Sys2Proof.WellFormed

/-- The operation number, bits [5:0] (R61). -/
def opNumber (c : CmdWord) : Nat := c.toNat % 64

/-- Field BW, bits [7:6] (R61). -/
def bwField (c : CmdWord) : Nat := c.toNat / 64 % 4

/-- Field LN, bit [8] (R61). -/
def lnField (c : CmdWord) : Nat := c.toNat / 256 % 2

/-- Field FT, bit [9] (R61). -/
def ftField (c : CmdWord) : Nat := c.toNat / 512 % 2

/-- Field RSV, bits [15:10] (R61). -/
def rsvField (c : CmdWord) : Nat := c.toNat / 1024

/-- Class V: the four operations of the Normalized Fixed-Point unit (R63, R64). -/
def isClassV (c : CmdWord) : Bool := decide (0x04 ≤ opNumber c ∧ opNumber c ≤ 0x07)

/-- Class H: the two operations of the Half-Float Vector unit (R63, R64). -/
def isClassH (c : CmdWord) : Bool := decide (0x20 ≤ opNumber c ∧ opNumber c ≤ 0x21)

/-- Class S: every other operation number of the map (R63, R64). -/
def isClassS (c : CmdWord) : Bool := decide (opNumber c < 0x22) && !isClassV c && !isClassH c

/-- Condition 1 of R65: OP is in 0x22 to 0x3F. -/
def reservedOp (c : CmdWord) : Bool := decide (0x22 ≤ opNumber c)

/-- Condition 2 of R65: RSV is not 0. -/
def reservedBitsSet (c : CmdWord) : Bool := decide (rsvField c ≠ 0)

/-- Condition 3 of R65: class V with BW = 3. -/
def reservedWidth (c : CmdWord) : Bool := isClassV c && decide (bwField c = 3)

/-- Condition 4 of R65: class S with BW, LN or FT not 0. -/
def unusedFieldS (c : CmdWord) : Bool :=
  isClassS c && decide (bwField c ≠ 0 ∨ lnField c ≠ 0 ∨ ftField c ≠ 0)

/-- Condition 5 of R65: class H with BW or FT not 0. -/
def unusedFieldH (c : CmdWord) : Bool := isClassH c && decide (bwField c ≠ 0 ∨ ftField c ≠ 0)

/-- A word is reserved when any of the five conditions of R65 holds. -/
def reserved (c : CmdWord) : Bool :=
  reservedOp c || reservedBitsSet c || reservedWidth c || unusedFieldS c || unusedFieldH c

/-- The legality check of R66, total on all 65536 words, in the order the rule writes it. -/
def legal (c : CmdWord) : Bool :=
  if rsvField c ≠ 0 then false
  else if 0x22 ≤ opNumber c then false
  else if 0x04 ≤ opNumber c ∧ opNumber c ≤ 0x07 then decide (bwField c ≠ 3)
  else if 0x20 ≤ opNumber c ∧ opNumber c ≤ 0x21 then decide (bwField c = 0 ∧ ftField c = 0)
  else decide (bwField c = 0 ∧ lnField c = 0 ∧ ftField c = 0)

end Sys2Proof.WellFormed
end

