-- ==== Sys2Proof/Decode.lean ====
section
/-! DEFINITION. The decoder, total on all 65536 command words, which refuses a reserved word by name (R60 to R67), and after it
the encoder, written from the same field table (R61) and operation map (R63). -/

namespace Sys2Proof

/-- Why the decoder refuses a word: the five conditions of R65. The block itself does not say which one applied (R221). -/
inductive DecodeError where
  /-- R65, condition 1: the operation number is in 0x22 to 0x3F. -/
  | reservedOp
  /-- R65, condition 2: a bit of RSV is set. -/
  | reservedBits
  /-- R65, condition 3: a class-V word with BW = 3. -/
  | reservedWidth
  /-- R65, condition 4: a class-S word with BW, LN or FT set. -/
  | unusedFieldS
  /-- R65, condition 5: a class-H word with BW or FT set. -/
  | unusedFieldH
  deriving DecidableEq, Repr

/-- Field OP (R61). -/
def opField (c : CmdWord) : BitVec 6 := c.extractLsb' 0 6

/-- Field BW (R61). -/
def bwField (c : CmdWord) : BitVec 2 := c.extractLsb' 6 2

/-- Field LN (R61). -/
def lnField (c : CmdWord) : BitVec 1 := c.extractLsb' 8 1

/-- Field FT (R61). -/
def ftField (c : CmdWord) : BitVec 1 := c.extractLsb' 9 1

/-- Field RSV (R61). -/
def rsvField (c : CmdWord) : BitVec 6 := c.extractLsb' 10 6

/-- BW gives BITS, and BW = 3 gives none (R62). -/
def laneBitsOfField (v : BitVec 2) : Option LaneBits :=
  if v = 0 then some .b8 else if v = 1 then some .b16 else if v = 2 then some .b32 else none

/-- LN gives N (R62). -/
def laneCountOfField (v : BitVec 1) : LaneCount := if v = 0 then .x2 else .x4

/-- FT gives F (R62). -/
def laneFloatOfField (v : BitVec 1) : LaneFloat := if v = 0 then .f32 else .f64

/-- A class-S word: BW, LN and FT are unused and must be 0 (R64). -/
def decodeS (c : CmdWord) (i : Instr) : Except DecodeError Instr :=
  if bwField c = 0 ∧ lnField c = 0 ∧ ftField c = 0 then .ok i else .error .unusedFieldS

/-- A class-V word: BW selects BITS, LN selects N and FT selects F, and BW = 3 is reserved (R64). -/
def decodeV (c : CmdWord) (mk : LaneBits → LaneCount → LaneFloat → Instr) : Except DecodeError Instr :=
  match laneBitsOfField (bwField c) with
  | some b => .ok (mk b (laneCountOfField (lnField c)) (laneFloatOfField (ftField c)))
  | none => .error .reservedWidth

/-- A class-H word: LN selects N, and BW and FT must be 0 (R64). -/
def decodeH (c : CmdWord) (mk : LaneCount → Instr) : Except DecodeError Instr :=
  if bwField c = 0 ∧ ftField c = 0 then .ok (mk (laneCountOfField (lnField c))) else .error .unusedFieldH

/-- The decoder: the operation map of R63, total on every word, reserved words refused by name (R65). -/
def decode (c : CmdWord) : Except DecodeError Instr :=
  if rsvField c ≠ 0 then .error .reservedBits
  else
    match (opField c).toNat with
    | 0x00 => decodeS c .floatToBits
    | 0x01 => decodeS c .bitsToFloat
    | 0x02 => decodeS c .halfBitsToFloat
    | 0x03 => decodeS c .floatToHalfBits
    | 0x04 => decodeV c .packUnorm
    | 0x05 => decodeV c .unpackUnorm
    | 0x06 => decodeV c .packSnorm
    | 0x07 => decodeV c .unpackSnorm
    | 0x08 => decodeS c .packInt2x8
    | 0x09 => decodeS c .unpackInt2x8
    | 0x0A => decodeS c .packUint2x8
    | 0x0B => decodeS c .unpackUint2x8
    | 0x0C => decodeS c .packInt4x8
    | 0x0D => decodeS c .unpackInt4x8
    | 0x0E => decodeS c .packUint4x8
    | 0x0F => decodeS c .unpackUint4x8
    | 0x10 => decodeS c .packInt2x16
    | 0x11 => decodeS c .unpackInt2x16
    | 0x12 => decodeS c .packUint2x16
    | 0x13 => decodeS c .unpackUint2x16
    | 0x14 => decodeS c .packInt4x16
    | 0x15 => decodeS c .unpackInt4x16
    | 0x16 => decodeS c .packUint4x16
    | 0x17 => decodeS c .unpackUint4x16
    | 0x18 => decodeS c .packInt2x32
    | 0x19 => decodeS c .unpackInt2x32
    | 0x1A => decodeS c .packUint2x32
    | 0x1B => decodeS c .unpackUint2x32
    | 0x1C => decodeS c .packI3x10_1x2
    | 0x1D => decodeS c .unpackI3x10_1x2
    | 0x1E => decodeS c .packU3x10_1x2
    | 0x1F => decodeS c .unpackU3x10_1x2
    | 0x20 => decodeH c .packHalf
    | 0x21 => decodeH c .unpackHalf
    | _ => .error .reservedOp

/-- The BW value of a lane width (R62). -/
def LaneBits.field : LaneBits → BitVec 2
  | .b8 => 0
  | .b16 => 1
  | .b32 => 2

/-- The LN value of a lane count (R62). -/
def LaneCount.field : LaneCount → BitVec 1
  | .x2 => 0
  | .x4 => 1

/-- The FT value of a float format (R62). -/
def LaneFloat.field : LaneFloat → BitVec 1
  | .f32 => 0
  | .f64 => 1

/-- A command word from its fields, most significant first: RSV = 0, then FT, LN and BW, then OP (R61). -/
def commandWord (params : BitVec 4) (op : BitVec 6) : CmdWord := 0#6 ++ params ++ op

/-- The encoder: the one command word of each instruction (R61 to R64). -/
def encode : Instr → CmdWord
  | .floatToBits => commandWord 0#4 0x00#6
  | .bitsToFloat => commandWord 0#4 0x01#6
  | .halfBitsToFloat => commandWord 0#4 0x02#6
  | .floatToHalfBits => commandWord 0#4 0x03#6
  | .packUnorm b n f => commandWord (f.field ++ n.field ++ b.field) 0x04#6
  | .unpackUnorm b n f => commandWord (f.field ++ n.field ++ b.field) 0x05#6
  | .packSnorm b n f => commandWord (f.field ++ n.field ++ b.field) 0x06#6
  | .unpackSnorm b n f => commandWord (f.field ++ n.field ++ b.field) 0x07#6
  | .packInt2x8 => commandWord 0#4 0x08#6
  | .unpackInt2x8 => commandWord 0#4 0x09#6
  | .packUint2x8 => commandWord 0#4 0x0A#6
  | .unpackUint2x8 => commandWord 0#4 0x0B#6
  | .packInt4x8 => commandWord 0#4 0x0C#6
  | .unpackInt4x8 => commandWord 0#4 0x0D#6
  | .packUint4x8 => commandWord 0#4 0x0E#6
  | .unpackUint4x8 => commandWord 0#4 0x0F#6
  | .packInt2x16 => commandWord 0#4 0x10#6
  | .unpackInt2x16 => commandWord 0#4 0x11#6
  | .packUint2x16 => commandWord 0#4 0x12#6
  | .unpackUint2x16 => commandWord 0#4 0x13#6
  | .packInt4x16 => commandWord 0#4 0x14#6
  | .unpackInt4x16 => commandWord 0#4 0x15#6
  | .packUint4x16 => commandWord 0#4 0x16#6
  | .unpackUint4x16 => commandWord 0#4 0x17#6
  | .packInt2x32 => commandWord 0#4 0x18#6
  | .unpackInt2x32 => commandWord 0#4 0x19#6
  | .packUint2x32 => commandWord 0#4 0x1A#6
  | .unpackUint2x32 => commandWord 0#4 0x1B#6
  | .packI3x10_1x2 => commandWord 0#4 0x1C#6
  | .unpackI3x10_1x2 => commandWord 0#4 0x1D#6
  | .packU3x10_1x2 => commandWord 0#4 0x1E#6
  | .unpackU3x10_1x2 => commandWord 0#4 0x1F#6
  | .packHalf n => commandWord (0#1 ++ n.field ++ 0#2) 0x20#6
  | .unpackHalf n => commandWord (0#1 ++ n.field ++ 0#2) 0x21#6

/-- The instruction the decoder reads from an opcode-table word of `nbits` bits, bit 0 of `w` being bit 0 of CMD.
Every bit of the command above `nbits` is 0, and a word longer than 16 bits is no command (R60, R67). -/
def decodeTableWord (nbits w : Nat) : Option Instr :=
  if nbits ≤ 16 then
    match decode (BitVec.ofNat 16 (w % 2 ^ nbits)) with
    | .ok i => some i
    | .error _ => none
  else none

end Sys2Proof
end

