-- ==== Sys2Proof/Machine/Float.lean ====
section
/-! DEFINITION. The floating-point formats, decoding, rounding and arithmetic primitives of 00_scope.md (R15 to R19), over
exact rationals. The rational operations are written with `mkRat`, which evaluates by plain reduction; Laws/Float.lean
proves that they are the field operations. -/

namespace Sys2Proof

/-- The total width w of a format (R15). -/
abbrev FloatFmt.width : FloatFmt → Nat
  | .binary16 => 16
  | .binary32 => 32
  | .binary64 => 64

/-- The exponent field width E of a format (R15). -/
abbrev FloatFmt.expBits : FloatFmt → Nat
  | .binary16 => 5
  | .binary32 => 8
  | .binary64 => 11

/-- The fraction field width T of a format (R15). -/
abbrev FloatFmt.fracBits : FloatFmt → Nat
  | .binary16 => 10
  | .binary32 => 23
  | .binary64 => 52

/-- The exponent bias B of a format (R15). -/
abbrev FloatFmt.bias : FloatFmt → Nat
  | .binary16 => 15
  | .binary32 => 127
  | .binary64 => 1023

namespace Machine

/-- The value of a pattern (R16). The sign of a zero is not part of its value: it is read from the pattern. -/
inductive Value where
  | nan
  | inf (neg : Bool)
  | finite (r : Rat)
  deriving DecidableEq, Repr

/-- The sign bit of a pattern (R15). -/
def signBit (F : FloatFmt) (b : BitVec F.width) : BitVec 1 := b.extractLsb' (F.width - 1) 1

/-- The exponent field of a pattern (R15). -/
def expField (F : FloatFmt) (b : BitVec F.width) : BitVec F.expBits := b.extractLsb' F.fracBits F.expBits

/-- The fraction field of a pattern (R15). -/
def fracField (F : FloatFmt) (b : BitVec F.width) : BitVec F.fracBits := b.extractLsb' 0 F.fracBits

/-- The pattern with the given sign, exponent field and fraction field (R15). -/
def packFields (F : FloatFmt) (s : BitVec 1) (e : BitVec F.expBits) (t : BitVec F.fracBits) : BitVec F.width :=
  (s ++ e ++ t).setWidth F.width

/-- The rational `a × 2^k`. -/
def mulPow2 (a : Rat) (k : Int) : Rat :=
  if a.num = 0 then 0
  else
    match k with
    | .ofNat n => mkRat (a.num * ((2 ^ n : Nat) : Int)) a.den
    | .negSucc n => mkRat a.num (a.den * 2 ^ (n + 1))

/-- The rational product. -/
def mulExact (a b : Rat) : Rat := mkRat (a.num * b.num) (a.den * b.den)

/-- The rational quotient, for a divisor that is not 0. -/
def divExact (a b : Rat) : Rat := mkRat (a.num * b.den * b.num.sign) (a.den * b.num.natAbs)

/-- The rational |r|. -/
def absExact (r : Rat) : Rat := mkRat r.num.natAbs r.den

/-- `decode_F(b)` (R16). -/
def decodeF (F : FloatFmt) (b : BitVec F.width) : Value :=
  let neg := (signBit F b).toNat = 1
  let e := (expField F b).toNat
  let t := (fracField F b).toNat
  if e = 2 ^ F.expBits - 1 then
    if t = 0 then .inf neg else .nan
  else
    let m := if e = 0 then t else 2 ^ F.fracBits + t
    let k : Int := (if e = 0 then 1 else e) - F.bias - F.fracBits
    .finite (mulPow2 (((if neg then -(m : Int) else m) : Int) : Rat) k)

/-- `isNaN_F(b)` (R18). -/
def isNaN (F : FloatFmt) (b : BitVec F.width) : Bool := decodeF F b = .nan

/-- The rational value of a finite pattern. The primitives of R18 apply to finite operands only; for any other pattern this is
0, which no meaning reaches (log entry 8). -/
def finiteValue (F : FloatFmt) (b : BitVec F.width) : Rat :=
  match decodeF F b with
  | .finite r => r
  | _ => 0

/-- `floor(log2(a))` for a > 0 (R17). -/
def floorLog2 (a : Rat) : Int :=
  let k : Int := (a.num.natAbs.log2 : Int) - a.den.log2
  if mulPow2 1 k ≤ a then k else k - 1

/-- The fraction `q - floor(q)` (R17). -/
def fractExact (q : Rat) : Rat := mkRat (q.num % q.den) q.den

/-- The integer nearest to q ≥ 0, an exact midpoint going to the even one (R17). -/
def roundHalfEven (q : Rat) : Nat :=
  let n := q.floor.toNat
  let f := fractExact q
  if mkRat 1 2 < f ∨ (f = mkRat 1 2 ∧ n % 2 = 1) then n + 1 else n

/-- The last steps of `RNE_F`: the pattern of `(-1)^s × n × 2^(ex-T)`, for n at most 2^(T+1) - 1 (R17). -/
def assembleFloat (F : FloatFmt) (s : BitVec 1) (n : Nat) (ex : Int) : BitVec F.width :=
  if (F.bias : Int) < ex then packFields F s (BitVec.allOnes _) 0
  else if n < 2 ^ F.fracBits then packFields F s 0 (BitVec.ofNat _ n)
  else packFields F s (BitVec.ofInt _ (ex + F.bias)) (BitVec.ofNat _ (n - 2 ^ F.fracBits))

/-- `RNE_F(r, s0)`: round an exact rational to format F, ties to even, with gradual underflow and overflow to infinity; s0
is the sign of a zero r (R17). -/
def rne (F : FloatFmt) (r : Rat) (s0 : BitVec 1) : BitVec F.width :=
  if r.num = 0 then packFields F s0 0 0
  else
    let s := BitVec.ofBool (decide (r.num < 0))
    let a := absExact r
    let ex := max (floorLog2 a) (1 - F.bias)
    let n := roundHalfEven (mulPow2 a (F.fracBits - ex))
    if n = 2 ^ (F.fracBits + 1) then assembleFloat F s (2 ^ F.fracBits) (ex + 1) else assembleFloat F s n ex

/-- `toF(n)` (R18). -/
def toF (F : FloatFmt) (n : Int) : BitVec F.width := rne F (n : Rat) 0

/-- `mulF(a, b)`: one product in format F, rounded once (R18). -/
def mulF (F : FloatFmt) (a b : BitVec F.width) : BitVec F.width :=
  rne F (mulExact (finiteValue F a) (finiteValue F b)) (signBit F a ^^^ signBit F b)

/-- `divF(a, b)`, b not 0: one quotient in format F, rounded once (R18). -/
def divF (F : FloatFmt) (a b : BitVec F.width) : BitVec F.width :=
  rne F (divExact (finiteValue F a) (finiteValue F b)) (signBit F a ^^^ signBit F b)

/-- `roundAway(r) = sign(r) × floor(|r| + 1/2)`: ties away from zero (R18). -/
def roundAway (r : Rat) : Int := r.num.sign * ((2 * r.num.natAbs + r.den) / (2 * r.den) : Nat)

/-- `clampF(b, lo, hi)` (R19). A NaN never reaches it: its callers handle one first (R128). -/
def clampF (F : FloatFmt) (b : BitVec F.width) (lo hi : Rat) : BitVec F.width :=
  match decodeF F b with
  | .nan => b
  | .inf true => rne F lo 0
  | .inf false => rne F hi 0
  | .finite x => if x < lo then rne F lo 0 else if hi < x then rne F hi 0 else b

/-- An integer clamped to [lo, hi] (R122, R124, R171). -/
def clampInt (lo hi v : Int) : Int := max lo (min v hi)

end Machine

end Sys2Proof
end

