-- ==== Sys2Proof/Config.lean ====
section
/-! DEFINITION. The three open parameters of the spec (R9), and Y beside ILL = 1, which it leaves unspecified (R11): opaque
constants, so that no proof can lean on a value of one. -/

namespace Sys2Proof

/-- The open function `NaNPack(op, BITS, F, x)` before its range is imposed (R9, R128).
It is one fixed total function of the operation, the two parameters and the lane's own pattern, the pattern
standing zero-extended in 64 bits.
`Machine.nanPack` bounds it to the lane's range, which every function into that range survives unchanged.
A free value: log entry 4. -/
opaque Config.nanPack : NormPack → LaneBits → LaneFloat → Slot → Int

/-- The open function `LATENCY(CMD)`: a finite time that depends on the command word alone (R9, R252).
No meaning reads it; `Machine.sample` states the host's rule with it. Log entry 5. -/
opaque Config.latency : CmdWord → Nat

/-- The open parameter `HOST_BYTE_ORDER` (R9, R42). No meaning reads it; `Machine.hostBytes` does. Log entry 6. -/
opaque Config.hostByteOrder : ByteOrder

/-- What port Y shows beside ILL = 1, unspecified (R11, R221): whatever the block's circuit gives for the reserved word and
the operand bus, of which Y is a function at every moment (R10, R30).
It is no result: no meaning reads it, and `Machine.evaluate` gives none where ILL = 1. A free value: log entry 14. -/
opaque Config.refusedY : CmdWord → Bus → Bus

end Sys2Proof
end

