-- ==== Sys2Proof/Machine/State.lean ====
section
/-! DEFINITION. The state of the model: the four ports of the block (R26), plain data, its reset, and the reasons an
evaluation stops. The block itself holds no state (R20 to R25); log entries 1 and 2 say what stands here and why. -/

namespace Sys2Proof.Machine

/-- What stands on the four ports of the block (R26).
The block has no register behind them: `cmd` and `a` are driven by the host, and `y` and `ill` are the outputs of the
evaluation last completed. -/
structure State where
  /-- Port CMD, in, 16 bits: the command word the host presents. -/
  cmd : CmdWord
  /-- Port A, in, 256 bits: the operand bus the host presents. -/
  a : Bus
  /-- Port Y, out, 256 bits: the result bus, a value only beside ILL = 0. -/
  y : Bus
  /-- Port ILL, out, 1 bit: 1 when the word evaluated is reserved, 0 otherwise. -/
  ill : Bool
  deriving DecidableEq, Repr

/-- The block has no fault: no legal command raises, faults or gets stuck, and a reserved word is refused (R220). -/
inductive Fault where
  deriving DecidableEq, Repr

/-- Why an evaluation has no meaning. -/
inductive Refusal where
  /-- Raised by an arm of `exec` whose instruction has no meaning yet: safe. No arm of this model raises it. -/
  | notModelled (mnemonic : String)
  /-- Raised by `step` on a reserved command word: ILL = 1, Y is unspecified, and the evaluation has no meaning
  (R11, R221): safe. -/
  | illegalCommand
  deriving DecidableEq, Repr

/-- The model's start (R30, R250: no state has a reset value): the ports read 0, which is DESIGN CHOICE, log entry 2.
These are the settled outputs for the inputs they stand with: command 0x0000 on a zero bus. -/
def State.reset : State := { cmd := 0, a := 0, y := 0, ill := false }

end Sys2Proof.Machine
end

