-- ==== Sys2Proof/Machine/Ops.lean ====
section
/-! DEFINITION. The named operations over the ports: slots of a bus (R14), presenting inputs, delivering a result (ILL = 0),
and the refusal of a reserved word (ILL = 1). The block has no exception to take and none to return from (R220, R225,
R226): `deliver` and `refuseIllegal` are its only two outcomes (R11). -/

namespace Sys2Proof.Machine

/-- `bus.slot(i)`, the slice [64i+63:64i] (R14). -/
def slot (b : Bus) (i : Fin 4) : Slot := b.extractLsb' (64 * i.val) 64

/-- The bus whose slot i is `f i` (R14). -/
def busOfSlots (f : Fin 4 → Slot) : Bus := f 3 ++ f 2 ++ f 1 ++ f 0

/-- The operand list of R68: its values go to slot 0 upwards, and the slots it does not reach are 0. -/
def busOfList (l : List Slot) : Bus := busOfSlots fun i => l.getD i.val 0

/-- A result in slot 0, with slots 1 to 3 zero (R27, R29). -/
def busOfScalar (v : Slot) : Bus := busOfSlots fun i => if i.val = 0 then v else 0

/-- The host drives a command word and an operand bus (R10). The outputs stand until the block evaluates. -/
def State.present (s : State) (cmd : CmdWord) (a : Bus) : State := { s with cmd := cmd, a := a }

/-- The ports once an evaluation has given the result `y`: ILL = 0, and the inputs still stand (R11). -/
def State.settle (s : State) (y : Bus) : State := { s with y := y, ill := false }

/-- The result outcome (R11): the one way a legal command ends. -/
def deliver (s : State) (y : Bus) : Host.Outcome State Fault Refusal := .next (s.settle y)

/-- The ports once a reserved word has been refused: ILL = 1, the inputs still stand, and Y is unspecified (R11, R26, R221). -/
def State.refuse (s : State) : State := { s with y := Config.refusedY s.cmd s.a, ill := true }

/-- The refused outcome (R11, R221): the one way a reserved word ends. It gives no result; what the ports then show is
`State.refuse`. -/
def refuseIllegal : Host.Outcome State Fault Refusal := .refused .illegalCommand

end Sys2Proof.Machine
end

