-- ==== Sys2Proof/Machine/Operands.lean ====
section
/-! DEFINITION. The operand and result forms: lanes of a bus (R14, R27, R120) and results laid out lane by lane (R29). -/

namespace Sys2Proof

/-- BITS as a number (R5, R62). -/
abbrev LaneBits.bits : LaneBits → Nat
  | .b8 => 8
  | .b16 => 16
  | .b32 => 32

/-- N as a number (R6, R62). -/
abbrev LaneCount.count : LaneCount → Nat
  | .x2 => 2
  | .x4 => 4

/-- The floating-point format of a normalized lane (R7, R62). -/
abbrev LaneFloat.fmt : LaneFloat → FloatFmt
  | .f32 => .binary32
  | .f64 => .binary64

namespace Machine

/-- `lane_w(A, i)`, the low w bits of slot i (R14, R27): the bits above them are not read (R28). -/
def lane (w : Nat) (b : Bus) (i : Fin 4) : BitVec w := (slot b i).setWidth w

/-- A vector result: lane i of the first N slots holds `f i` zero-extended, and every other bit is 0 (R29, R120). -/
def busOfLanes {w : Nat} (n : LaneCount) (f : Fin 4 → BitVec w) : Bus :=
  busOfSlots fun i => if i.val < n.count then (f i).setWidth 64 else 0

end Machine

end Sys2Proof
end

