-- ==== Sys2Proof/Machine/Bitcast.lean ====
section
/-! DEFINITION. The Bit-Reinterpretation unit: the float and int bitcast, and the scalar binary16 and binary32 converter
(R100 to R103). -/

namespace Sys2Proof.Machine

/-- The normalising loop of R102: shift the significand left until its bit 10 is set, counting the shifts. The first argument
bounds the loop; 10 turns are enough for any m ≠ 0. -/
def normalizeHalf : Nat → BitVec 11 → Nat → BitVec 11 × Nat
  | 0, m, k => (m, k)
  | fuel + 1, m, k => if m.getLsbD 10 then (m, k) else normalizeHalf fuel (m <<< 1) (k + 1)

/-- `halfBitsToFloat` on one pattern: the exact widening of binary16 to binary32 (R102). -/
def widenHalf (h : BitVec 16) : BitVec 32 :=
  let s := h.extractLsb' 15 1
  let e := h.extractLsb' 10 5
  let m := h.extractLsb' 0 10
  if e = 31 then s ++ 0xFF#8 ++ (m ++ 0#13)
  else if e = 0 then
    if m = 0 then s ++ 0#31
    else
      let (m', k) := normalizeHalf 10 (m.setWidth 11) 0
      s ++ BitVec.ofNat 8 (113 - k) ++ (m'.extractLsb' 0 10 ++ 0#13)
  else s ++ BitVec.ofNat 8 (e.toNat + 112) ++ (m ++ 0#13)

/-- `floatToHalfBits` on one pattern: the normative value form of R103. -/
def narrowFloat (f : BitVec 32) : BitVec 16 :=
  let s := f.extractLsb' 31 1
  match decodeF .binary32 f with
  | .nan =>
    let t := f.extractLsb' 13 10
    s ++ 0b11111#5 ++ (if t = 0 then 1#10 else t)
  | .inf _ => s ++ 0b11111#5 ++ 0#10
  | .finite r => rne .binary16 r s

/-- Round a significand shifted right by t places to the nearest, ties to even, as the bit-level form of R103 does. -/
def roundShift (M t : Nat) : Nat :=
  let q := M / 2 ^ t
  let rem := M % 2 ^ t
  let half := 2 ^ (t - 1)
  if half < rem ∨ (rem = half ∧ q % 2 = 1) then q + 1 else q

/-- The bit-level form of R103. No meaning calls it: that it equals `narrowFloat` on every pattern is a statement. -/
def narrowFloatBits (f : BitVec 32) : BitVec 16 :=
  let s := f.extractLsb' 31 1
  let e := (f.extractLsb' 23 8).toNat
  let m := f.extractLsb' 0 23
  if e = 255 then
    if m = 0 then s ++ 0x7C00#15
    else
      let t := m.extractLsb' 13 10
      s ++ 0b11111#5 ++ (if t = 0 then 1#10 else t)
  else
    let E : Int := e - 112
    if E ≤ 0 then
      if E < -10 then s ++ 0#15
      else s ++ BitVec.ofNat 15 (roundShift (2 ^ 23 + m.toNat) (14 - E).toNat)
    else
      let q := roundShift m.toNat 13
      let (q', E') := if q = 0x400 then (0, E + 1) else (q, E)
      if 31 ≤ E' then s ++ 0b11111#5 ++ 0#10 else s ++ BitVec.ofInt 5 E' ++ BitVec.ofNat 10 q'

/-- `floatToBits` (R100): the binary32 pattern of slot 0, unchanged, as a uint32. -/
def execFloatToBits (s : State) : Host.Outcome State Fault Refusal :=
  deliver s (busOfScalar ((lane 32 s.a 0).setWidth 64))

/-- `bitsToFloat` (R101): the uint32 of slot 0, unchanged, as a binary32 pattern. -/
def execBitsToFloat (s : State) : Host.Outcome State Fault Refusal :=
  deliver s (busOfScalar ((lane 32 s.a 0).setWidth 64))

/-- `halfBitsToFloat` (R102). -/
def execHalfBitsToFloat (s : State) : Host.Outcome State Fault Refusal :=
  deliver s (busOfScalar ((widenHalf (lane 16 s.a 0)).setWidth 64))

/-- `floatToHalfBits` (R103). -/
def execFloatToHalfBits (s : State) : Host.Outcome State Fault Refusal :=
  deliver s (busOfScalar ((narrowFloat (lane 32 s.a 0)).setWidth 64))

end Sys2Proof.Machine
end

