-- ==== Sys2Proof/Machine/HalfVector.lean ====
section
/-! DEFINITION. The Half-Float Vector unit: the scalar converter of R102 and R103 on each of 2 or 4 lanes (R200, R201). -/

namespace Sys2Proof.Machine

/-- `packHalf` (R200): N binary32 lanes to N binary16 patterns. -/
def execPackHalf (n : LaneCount) (s : State) : Host.Outcome State Fault Refusal :=
  deliver s (busOfLanes n fun k => narrowFloat (lane 32 s.a k))

/-- `unpackHalf` (R201): N binary16 patterns to N binary32 lanes. -/
def execUnpackHalf (n : LaneCount) (s : State) : Host.Outcome State Fault Refusal :=
  deliver s (busOfLanes n fun k => widenHalf (lane 16 s.a k))

end Sys2Proof.Machine
end

