-- ==== Sys2Proof/Machine/LanePacking.lean ====
section
/-! DEFINITION. The Lane-Packing unit: uniform packing of 2 or 4 lanes, and the 10-10-10-2 scheme (R150 to R174). The signed and
the unsigned operation of one uniform shape write the same bits (R150). -/

namespace Sys2Proof.Machine

/-- `pack (n, w)` of R150: the N low lanes of A concatenated, lane 0 lowest, as one integer in slot 0 (R41). -/
def packUniform (n : LaneCount) (w : Nat) (a : Bus) : Bus :=
  match n with
  | .x2 => busOfScalar ((lane w a 1 ++ lane w a 0).setWidth 64)
  | .x4 => busOfScalar ((lane w a 3 ++ lane w a 2 ++ lane w a 1 ++ lane w a 0).setWidth 64)

/-- `unpack (n, w)` of R150: the n·w low bits of slot 0, split into N lanes of width w. -/
def unpackUniform (n : LaneCount) (w : Nat) (a : Bus) : Bus :=
  busOfLanes n fun k => (lane (n.count * w) a 0).extractLsb' (w * k.val) w

/-- The field widths of the 10-10-10-2 scheme, component 0 lowest (R41). -/
def fieldWidth (k : Fin 4) : Nat := if k.val = 3 then 2 else 10

/-- Component k of a 10-10-10-2 integer: bits [10k + width - 1 : 10k] (R41, R172, R174). -/
def packedField (P : BitVec 32) (k : Fin 4) : BitVec (fieldWidth k) := P.extractLsb' (10 * k.val) (fieldWidth k)

/-- A lane clamped to the signed range of field k, as the field's pattern (R171). -/
def clampedField (a : Bus) (k : Fin 4) : BitVec (fieldWidth k) :=
  BitVec.ofInt (fieldWidth k) (clampInt (-2 ^ (fieldWidth k - 1)) (2 ^ (fieldWidth k - 1) - 1) (lane 32 a k).toInt)

/-- A lane masked to the width of field k (R173). -/
def maskedField (a : Bus) (k : Fin 4) : BitVec (fieldWidth k) := (lane 32 a k).setWidth (fieldWidth k)

/-- Four fields as one 32-bit integer, field 0 least significant (R41, R171, R173). -/
def packFields1010102 (v : (k : Fin 4) → BitVec (fieldWidth k)) : BitVec 32 :=
  ((v 3).setWidth 2 ++ (v 2).setWidth 10 ++ (v 1).setWidth 10 ++ (v 0).setWidth 10 : BitVec (2 + 10 + 10 + 10))

/-- `packInt2x8` (R151): pack 2 int8 lanes into one 16-bit integer. -/
def execPackInt2x8 (s : State) : Host.Outcome State Fault Refusal :=
  deliver s (packUniform .x2 8 s.a)

/-- `unpackInt2x8` (R152): split one 16-bit integer into 2 int8 lanes. -/
def execUnpackInt2x8 (s : State) : Host.Outcome State Fault Refusal :=
  deliver s (unpackUniform .x2 8 s.a)

/-- `packUint2x8` (R153): pack 2 uint8 lanes into one 16-bit integer. -/
def execPackUint2x8 (s : State) : Host.Outcome State Fault Refusal :=
  deliver s (packUniform .x2 8 s.a)

/-- `unpackUint2x8` (R154): split one 16-bit integer into 2 uint8 lanes. -/
def execUnpackUint2x8 (s : State) : Host.Outcome State Fault Refusal :=
  deliver s (unpackUniform .x2 8 s.a)

/-- `packInt4x8` (R155): pack 4 int8 lanes into one 32-bit integer. -/
def execPackInt4x8 (s : State) : Host.Outcome State Fault Refusal :=
  deliver s (packUniform .x4 8 s.a)

/-- `unpackInt4x8` (R156): split one 32-bit integer into 4 int8 lanes. -/
def execUnpackInt4x8 (s : State) : Host.Outcome State Fault Refusal :=
  deliver s (unpackUniform .x4 8 s.a)

/-- `packUint4x8` (R157): pack 4 uint8 lanes into one 32-bit integer. -/
def execPackUint4x8 (s : State) : Host.Outcome State Fault Refusal :=
  deliver s (packUniform .x4 8 s.a)

/-- `unpackUint4x8` (R158): split one 32-bit integer into 4 uint8 lanes. -/
def execUnpackUint4x8 (s : State) : Host.Outcome State Fault Refusal :=
  deliver s (unpackUniform .x4 8 s.a)

/-- `packInt2x16` (R159): pack 2 int16 lanes into one 32-bit integer. -/
def execPackInt2x16 (s : State) : Host.Outcome State Fault Refusal :=
  deliver s (packUniform .x2 16 s.a)

/-- `unpackInt2x16` (R160): split one 32-bit integer into 2 int16 lanes. -/
def execUnpackInt2x16 (s : State) : Host.Outcome State Fault Refusal :=
  deliver s (unpackUniform .x2 16 s.a)

/-- `packUint2x16` (R161): pack 2 uint16 lanes into one 32-bit integer. -/
def execPackUint2x16 (s : State) : Host.Outcome State Fault Refusal :=
  deliver s (packUniform .x2 16 s.a)

/-- `unpackUint2x16` (R162): split one 32-bit integer into 2 uint16 lanes. -/
def execUnpackUint2x16 (s : State) : Host.Outcome State Fault Refusal :=
  deliver s (unpackUniform .x2 16 s.a)

/-- `packInt4x16` (R163): pack 4 int16 lanes into one 64-bit integer. -/
def execPackInt4x16 (s : State) : Host.Outcome State Fault Refusal :=
  deliver s (packUniform .x4 16 s.a)

/-- `unpackInt4x16` (R164): split one 64-bit integer into 4 int16 lanes. -/
def execUnpackInt4x16 (s : State) : Host.Outcome State Fault Refusal :=
  deliver s (unpackUniform .x4 16 s.a)

/-- `packUint4x16` (R165): pack 4 uint16 lanes into one 64-bit integer. -/
def execPackUint4x16 (s : State) : Host.Outcome State Fault Refusal :=
  deliver s (packUniform .x4 16 s.a)

/-- `unpackUint4x16` (R166): split one 64-bit integer into 4 uint16 lanes. -/
def execUnpackUint4x16 (s : State) : Host.Outcome State Fault Refusal :=
  deliver s (unpackUniform .x4 16 s.a)

/-- `packInt2x32` (R167): pack 2 int32 lanes into one 64-bit integer. -/
def execPackInt2x32 (s : State) : Host.Outcome State Fault Refusal :=
  deliver s (packUniform .x2 32 s.a)

/-- `unpackInt2x32` (R168): split one 64-bit integer into 2 int32 lanes. -/
def execUnpackInt2x32 (s : State) : Host.Outcome State Fault Refusal :=
  deliver s (unpackUniform .x2 32 s.a)

/-- `packUint2x32` (R169): pack 2 uint32 lanes into one 64-bit integer. -/
def execPackUint2x32 (s : State) : Host.Outcome State Fault Refusal :=
  deliver s (packUniform .x2 32 s.a)

/-- `unpackUint2x32` (R170): split one 64-bit integer into 2 uint32 lanes. -/
def execUnpackUint2x32 (s : State) : Host.Outcome State Fault Refusal :=
  deliver s (unpackUniform .x2 32 s.a)

/-- `packI3x10_1x2` (R171): int32 lanes clamped to [-512, 511] and [-2, 1], then packed. -/
def execPackI3x10_1x2 (s : State) : Host.Outcome State Fault Refusal :=
  deliver s (busOfScalar ((packFields1010102 (clampedField s.a)).setWidth 64))

/-- `unpackI3x10_1x2` (R172): four fields sign-extended to int32 lanes, whose bits [63:32] are 0. -/
def execUnpackI3x10_1x2 (s : State) : Host.Outcome State Fault Refusal :=
  deliver s (busOfLanes .x4 fun k => (packedField (lane 32 s.a 0) k).signExtend 32)

/-- `packU3x10_1x2` (R173): uint32 lanes masked to their field widths, then packed. -/
def execPackU3x10_1x2 (s : State) : Host.Outcome State Fault Refusal :=
  deliver s (busOfScalar ((packFields1010102 (maskedField s.a)).setWidth 64))

/-- `unpackU3x10_1x2` (R174): four fields zero-extended. -/
def execUnpackU3x10_1x2 (s : State) : Host.Outcome State Fault Refusal :=
  deliver s (busOfLanes .x4 fun k => (packedField (lane 32 s.a 0) k).setWidth 32)

end Sys2Proof.Machine
end

