-- ==== Sys2Proof/Machine/Normalized.lean ====
section
/-! DEFINITION. The Normalized Fixed-Point unit: the unorm and snorm quantizer and dequantizer, lane by lane (R120 to R128). -/

namespace Sys2Proof.Machine

/-- The largest unorm lane value, 2^BITS - 1 (R121, R122). -/
def unormMax (b : LaneBits) : Int := 2 ^ b.bits - 1

/-- The largest snorm lane value L, 2^(BITS-1) - 1 (R121, R124). -/
def snormMax (b : LaneBits) : Int := 2 ^ (b.bits - 1) - 1

/-- The scale constant Su, rounded once into F (R121). -/
def scaleU (b : LaneBits) (f : LaneFloat) : BitVec f.fmt.width := toF f.fmt (unormMax b)

/-- The scale constant Ss, rounded once into F (R121). -/
def scaleS (b : LaneBits) (f : LaneFloat) : BitVec f.fmt.width := toF f.fmt (snormMax b)

/-- `NaNPack(op, BITS, F, x)`: the free value `Config.nanPack` bounded to the lane's range (R128). -/
def nanPack (op : NormPack) (b : LaneBits) (f : LaneFloat) (x : BitVec f.fmt.width) : Int :=
  match op with
  | .unorm => clampInt 0 (unormMax b) (Config.nanPack .unorm b f (x.setWidth 64))
  | .snorm => clampInt (-snormMax b) (snormMax b) (Config.nanPack .snorm b f (x.setWidth 64))

/-- `packUnorm` on one lane, as an integer (R122). -/
def packUnormLane (b : LaneBits) (f : LaneFloat) (x : BitVec f.fmt.width) : Int :=
  if isNaN f.fmt x then nanPack .unorm b f x
  else
    let c := clampF f.fmt x 0 1
    let p := mulF f.fmt c (scaleU b f)
    min (roundAway (finiteValue f.fmt p)) (unormMax b)

/-- `unpackUnorm` on one lane: one rounded quotient (R123). -/
def unpackUnormLane (b : LaneBits) (f : LaneFloat) (u : BitVec b.bits) : BitVec f.fmt.width :=
  divF f.fmt (toF f.fmt u.toNat) (scaleU b f)

/-- `packSnorm` on one lane, as an integer (R124). -/
def packSnormLane (b : LaneBits) (f : LaneFloat) (x : BitVec f.fmt.width) : Int :=
  if isNaN f.fmt x then nanPack .snorm b f x
  else
    let c := clampF f.fmt x ((-1 : Int) : Rat) 1
    let p := mulF f.fmt c (scaleS b f)
    clampInt (-snormMax b) (snormMax b) (roundAway (finiteValue f.fmt p))

/-- `unpackSnorm` on one lane: the rounded quotient, clamped again (R125). -/
def unpackSnormLane (b : LaneBits) (f : LaneFloat) (i : BitVec b.bits) : BitVec f.fmt.width :=
  clampF f.fmt (divF f.fmt (toF f.fmt i.toInt) (scaleS b f)) ((-1 : Int) : Rat) 1

/-- `packUnorm` (R122): float lanes to unsigned integer lanes, one per slot. -/
def execPackUnorm (b : LaneBits) (n : LaneCount) (f : LaneFloat) (s : State) : Host.Outcome State Fault Refusal :=
  deliver s (busOfLanes n fun i => BitVec.ofInt b.bits (packUnormLane b f (lane f.fmt.width s.a i)))

/-- `unpackUnorm` (R123): unsigned integer lanes to float lanes. -/
def execUnpackUnorm (b : LaneBits) (n : LaneCount) (f : LaneFloat) (s : State) : Host.Outcome State Fault Refusal :=
  deliver s (busOfLanes n fun i => unpackUnormLane b f (lane b.bits s.a i))

/-- `packSnorm` (R124): float lanes to two's-complement integer lanes, one per slot, not sign-extended. -/
def execPackSnorm (b : LaneBits) (n : LaneCount) (f : LaneFloat) (s : State) : Host.Outcome State Fault Refusal :=
  deliver s (busOfLanes n fun i => BitVec.ofInt b.bits (packSnormLane b f (lane f.fmt.width s.a i)))

/-- `unpackSnorm` (R125): two's-complement integer lanes to float lanes. -/
def execUnpackSnorm (b : LaneBits) (n : LaneCount) (f : LaneFloat) (s : State) : Host.Outcome State Fault Refusal :=
  deliver s (busOfLanes n fun i => unpackSnormLane b f (lane b.bits s.a i))

end Sys2Proof.Machine
end

