-- ==== Sys2Proof/Machine/Dispatch.lean ====
section
/-! DEFINITION. What each instruction does: one arm per constructor, one meaning per arm. -/

namespace Sys2Proof.Machine

def exec (i : Instr) (s : State) : Host.Outcome State Fault Refusal :=
  match i with
  | .floatToBits => Sys2Proof.Machine.execFloatToBits s
  | .bitsToFloat => Sys2Proof.Machine.execBitsToFloat s
  | .halfBitsToFloat => Sys2Proof.Machine.execHalfBitsToFloat s
  | .floatToHalfBits => Sys2Proof.Machine.execFloatToHalfBits s
  | .packUnorm b n f => Sys2Proof.Machine.execPackUnorm b n f s
  | .unpackUnorm b n f => Sys2Proof.Machine.execUnpackUnorm b n f s
  | .packSnorm b n f => Sys2Proof.Machine.execPackSnorm b n f s
  | .unpackSnorm b n f => Sys2Proof.Machine.execUnpackSnorm b n f s
  | .packInt2x8 => Sys2Proof.Machine.execPackInt2x8 s
  | .unpackInt2x8 => Sys2Proof.Machine.execUnpackInt2x8 s
  | .packUint2x8 => Sys2Proof.Machine.execPackUint2x8 s
  | .unpackUint2x8 => Sys2Proof.Machine.execUnpackUint2x8 s
  | .packInt4x8 => Sys2Proof.Machine.execPackInt4x8 s
  | .unpackInt4x8 => Sys2Proof.Machine.execUnpackInt4x8 s
  | .packUint4x8 => Sys2Proof.Machine.execPackUint4x8 s
  | .unpackUint4x8 => Sys2Proof.Machine.execUnpackUint4x8 s
  | .packInt2x16 => Sys2Proof.Machine.execPackInt2x16 s
  | .unpackInt2x16 => Sys2Proof.Machine.execUnpackInt2x16 s
  | .packUint2x16 => Sys2Proof.Machine.execPackUint2x16 s
  | .unpackUint2x16 => Sys2Proof.Machine.execUnpackUint2x16 s
  | .packInt4x16 => Sys2Proof.Machine.execPackInt4x16 s
  | .unpackInt4x16 => Sys2Proof.Machine.execUnpackInt4x16 s
  | .packUint4x16 => Sys2Proof.Machine.execPackUint4x16 s
  | .unpackUint4x16 => Sys2Proof.Machine.execUnpackUint4x16 s
  | .packInt2x32 => Sys2Proof.Machine.execPackInt2x32 s
  | .unpackInt2x32 => Sys2Proof.Machine.execUnpackInt2x32 s
  | .packUint2x32 => Sys2Proof.Machine.execPackUint2x32 s
  | .unpackUint2x32 => Sys2Proof.Machine.execUnpackUint2x32 s
  | .packI3x10_1x2 => Sys2Proof.Machine.execPackI3x10_1x2 s
  | .unpackI3x10_1x2 => Sys2Proof.Machine.execUnpackI3x10_1x2 s
  | .packU3x10_1x2 => Sys2Proof.Machine.execPackU3x10_1x2 s
  | .unpackU3x10_1x2 => Sys2Proof.Machine.execUnpackU3x10_1x2 s
  | .packHalf n => Sys2Proof.Machine.execPackHalf n s
  | .unpackHalf n => Sys2Proof.Machine.execUnpackHalf n s

end Sys2Proof.Machine
end

