-- ==== Sys2Proof/Machine/Step.lean ====
section
/-! DEFINITION. One evaluation: decode what stands on CMD, then run it or refuse it (R10, R11). -/

namespace Sys2Proof.Machine

/-- One evaluation, one indivisible step (R10, R11, R45): a legal word has its operation's result, and a reserved one is
refused before any operand is read (R224). -/
def step (s : State) : Host.Outcome State Fault Refusal :=
  match decode s.cmd with
  | .ok i => exec i s
  | .error _ => refuseIllegal

/-- The state with an opcode-table word presented on CMD, where `step` finds its next command: the block fetches nothing
(R21), so the host's drive of CMD is what brings a program in. Log entry 3. -/
def State.withFetchWord (s : State) (nbits w : Nat) : State :=
  { s with cmd := BitVec.ofNat 16 (w % 2 ^ nbits) }

end Sys2Proof.Machine
end

