-- ==== Sys2Proof/Machine/Flags.lean ====
section
/-! DEFINITION. The block has no flags, condition codes or status register (R22, R23): no operation records that it rounded,
saturated, clamped, wrapped or overflowed. Its one status output is port ILL (R26). -/

namespace Sys2Proof.Machine

/-- Port ILL as a function of CMD alone: 1 when the word is reserved, 0 otherwise (R26, R221, R224). -/
def illOutput (c : CmdWord) : Bool :=
  match decode c with
  | .ok _ => false
  | .error _ => true

end Sys2Proof.Machine
end

