-- ==== Sys2Proof/Machine/Assembler.lean ====
section
/-! DEFINITION. The assembler's view of a command (R68): its text, the word the text stands for, and the numbers an operand
list holds. There are no pseudo-instructions: a text is one command word (R69). -/

namespace Sys2Proof

namespace Machine

/-- The suffix of BW (R68). -/
def bitsSuffix : LaneBits → String
  | .b8 => ".b8"
  | .b16 => ".b16"
  | .b32 => ".b32"

/-- The suffix of LN (R68). -/
def countSuffix : LaneCount → String
  | .x2 => ".x2"
  | .x4 => ".x4"

/-- The suffix of FT (R68). -/
def floatSuffix : LaneFloat → String
  | .f32 => ".f32"
  | .f64 => ".f64"

/-- The mnemonic of an instruction, as the operation map spells it (R63). -/
def mnemonic : Instr → String
  | .floatToBits => "floatToBits"
  | .bitsToFloat => "bitsToFloat"
  | .halfBitsToFloat => "halfBitsToFloat"
  | .floatToHalfBits => "floatToHalfBits"
  | .packUnorm _ _ _ => "packUnorm"
  | .unpackUnorm _ _ _ => "unpackUnorm"
  | .packSnorm _ _ _ => "packSnorm"
  | .unpackSnorm _ _ _ => "unpackSnorm"
  | .packInt2x8 => "packInt2x8"
  | .unpackInt2x8 => "unpackInt2x8"
  | .packUint2x8 => "packUint2x8"
  | .unpackUint2x8 => "unpackUint2x8"
  | .packInt4x8 => "packInt4x8"
  | .unpackInt4x8 => "unpackInt4x8"
  | .packUint4x8 => "packUint4x8"
  | .unpackUint4x8 => "unpackUint4x8"
  | .packInt2x16 => "packInt2x16"
  | .unpackInt2x16 => "unpackInt2x16"
  | .packUint2x16 => "packUint2x16"
  | .unpackUint2x16 => "unpackUint2x16"
  | .packInt4x16 => "packInt4x16"
  | .unpackInt4x16 => "unpackInt4x16"
  | .packUint4x16 => "packUint4x16"
  | .unpackUint4x16 => "unpackUint4x16"
  | .packInt2x32 => "packInt2x32"
  | .unpackInt2x32 => "unpackInt2x32"
  | .packUint2x32 => "packUint2x32"
  | .unpackUint2x32 => "unpackUint2x32"
  | .packI3x10_1x2 => "packI3x10_1x2"
  | .unpackI3x10_1x2 => "unpackI3x10_1x2"
  | .packU3x10_1x2 => "packU3x10_1x2"
  | .unpackU3x10_1x2 => "unpackU3x10_1x2"
  | .packHalf _ => "packHalf"
  | .unpackHalf _ => "unpackHalf"

/-- The suffixes of a command, in the order R68 gives them: BW, LN, FT for class V, LN for class H, none for class S. -/
def suffixes : Instr → String
  | .packUnorm b n f => bitsSuffix b ++ countSuffix n ++ floatSuffix f
  | .unpackUnorm b n f => bitsSuffix b ++ countSuffix n ++ floatSuffix f
  | .packSnorm b n f => bitsSuffix b ++ countSuffix n ++ floatSuffix f
  | .unpackSnorm b n f => bitsSuffix b ++ countSuffix n ++ floatSuffix f
  | .packHalf n => countSuffix n
  | .unpackHalf n => countSuffix n
  | .floatToBits => ""
  | .bitsToFloat => ""
  | .halfBitsToFloat => ""
  | .floatToHalfBits => ""
  | .packInt2x8 => ""
  | .unpackInt2x8 => ""
  | .packUint2x8 => ""
  | .unpackUint2x8 => ""
  | .packInt4x8 => ""
  | .unpackInt4x8 => ""
  | .packUint4x8 => ""
  | .unpackUint4x8 => ""
  | .packInt2x16 => ""
  | .unpackInt2x16 => ""
  | .packUint2x16 => ""
  | .unpackUint2x16 => ""
  | .packInt4x16 => ""
  | .unpackInt4x16 => ""
  | .packUint4x16 => ""
  | .unpackUint4x16 => ""
  | .packInt2x32 => ""
  | .unpackInt2x32 => ""
  | .packUint2x32 => ""
  | .unpackUint2x32 => ""
  | .packI3x10_1x2 => ""
  | .unpackI3x10_1x2 => ""
  | .packU3x10_1x2 => ""
  | .unpackU3x10_1x2 => ""

/-- The text of a command without its operands (R68). -/
def asm (i : Instr) : String := mnemonic i ++ suffixes i

/-- The 28 class-S instructions (R64). -/
def classS : List Instr :=
  [.floatToBits, .bitsToFloat, .halfBitsToFloat, .floatToHalfBits] ++
  [.packInt2x8, .unpackInt2x8, .packUint2x8, .unpackUint2x8, .packInt4x8, .unpackInt4x8, .packUint4x8, .unpackUint4x8] ++
  [.packInt2x16, .unpackInt2x16, .packUint2x16, .unpackUint2x16] ++
  [.packInt4x16, .unpackInt4x16, .packUint4x16, .unpackUint4x16] ++
  [.packInt2x32, .unpackInt2x32, .packUint2x32, .unpackUint2x32] ++
  [.packI3x10_1x2, .unpackI3x10_1x2, .packU3x10_1x2, .unpackU3x10_1x2]

/-- The 48 class-V instructions: every lane width, lane count and float format of the four operations (R64, R66). -/
def classV : List Instr :=
  [Instr.packUnorm, Instr.unpackUnorm, Instr.packSnorm, Instr.unpackSnorm].flatMap fun op =>
    [LaneBits.b8, .b16, .b32].flatMap fun b =>
      [LaneCount.x2, .x4].flatMap fun n => [LaneFloat.f32, .f64].map fun f => op b n f

/-- The 4 class-H instructions (R64, R66). -/
def classH : List Instr :=
  [Instr.packHalf, Instr.unpackHalf].flatMap fun op => [LaneCount.x2, .x4].map fun n => op n

/-- Every instruction of the block: the 80 legal commands (R66). -/
def allInstrs : List Instr := classS ++ classV ++ classH

/-- The command word a text stands for, if it is the text of a command (R68). -/
def assemble (text : String) : Option CmdWord := (allInstrs.find? fun i => asm i = text).map encode

/-- A number in an operand list (R68). The text of a number is not parsed here: log entry 11. -/
inductive Literal where
  /-- A hexadecimal pattern. -/
  | hex (v : Slot)
  /-- A decimal integer. -/
  | int (i : Int)
  /-- A float literal with its format tag: its written sign and its magnitude. -/
  | float (f : LaneFloat) (neg : Bool) (magnitude : Rat)
  deriving DecidableEq, Repr

/-- The slot value of a number: a decimal integer is its 64-bit two's-complement pattern, and a float literal is its format's
pattern, rounded to nearest even where it is not exact (R68). -/
def literalBits : Literal → Slot
  | .hex v => v
  | .int i => BitVec.ofInt 64 i
  | .float f neg q =>
    (rne f.fmt (mkRat (if neg then -q.num else q.num) q.den) (BitVec.ofBool neg)).setWidth 64

end Machine

end Sys2Proof
end

