-- ==== Sys2Proof/Machine/Program.lean ====
section
/-! DEFINITION. The host outside the block: commands presented one after another, each result carried by the host into a
later operand list (R10, R68, R254), and the results of a sequence of evaluations by one instance (R31, R48). -/

namespace Sys2Proof.Machine

/-- The ports once the block has evaluated the inputs that stand on them, with either outcome: a result beside ILL = 0, or
ILL = 1 (R11, R26). -/
def State.evaluated (s : State) : State :=
  match step s with
  | .next t => t
  | .refused _ => s.refuse
  | .fault r => nomatch r

/-- The host presents a command and an operand bus, and the block evaluates them once: the ports after it, and the result, which
the host takes from Y unless ILL is 1 (R11, R253). -/
def evaluate (s : State) (cmd : CmdWord) (a : Bus) : State × Option Bus :=
  let t := (s.present cmd a).evaluated
  (t, if t.ill then none else some t.y)

/-- The results of a sequence of evaluations by one instance, in order. -/
def evaluateAll : State → List (CmdWord × Bus) → List (Option Bus)
  | _, [] => []
  | s, (cmd, a) :: rest => (evaluate s cmd a).2 :: evaluateAll (evaluate s cmd a).1 rest

/-- An entry of an operand list (R68): a number, or `y.i`, slot i of the result of an earlier command, named by its place. -/
inductive Operand where
  | lit (v : Literal)
  | result (command : Nat) (i : Fin 4)
  deriving DecidableEq, Repr

/-- One line of a host program (R68). -/
structure HostCommand where
  cmd : CmdWord
  operands : List Operand
  deriving DecidableEq, Repr

/-- The value of an operand, given the results so far: none when it names a command that gave no result. -/
def operandValue (done : List (Option Bus)) : Operand → Option Slot
  | .lit v => some (literalBits v)
  | .result k i => (done.getD k none).map fun y => slot y i

/-- A host program (R68, R254): each command is presented with its operands, at most four, and its result is kept for later
lists. None when an operand list cannot be given. A refused command gives no result, and the program goes on. -/
def runProgram : State → List (Option Bus) → List HostCommand → Option (List (Option Bus))
  | _, done, [] => some done
  | s, done, c :: rest =>
    if 4 < c.operands.length then none
    else
      match c.operands.mapM (operandValue done) with
      | none => none
      | some vs =>
        runProgram (evaluate s c.cmd (busOfList vs)).1 (done ++ [(evaluate s c.cmd (busOfList vs)).2]) rest

end Sys2Proof.Machine
end

