-- ==== Sys2Proof/Machine/Timing.lean ====
section
/-! DEFINITION. The one timing rule a host must follow (R252, R253): it samples Y and ILL no earlier than LATENCY(CMD) after the
last change of CMD or A. No meaning depends on it; an evaluation is one step. -/

namespace Sys2Proof.Machine

/-- A change of the inputs: from this time on, the host drives this command word and operand bus. -/
structure InputChange where
  time : Nat
  cmd : CmdWord
  a : Bus
  deriving DecidableEq, Repr

/-- What a sample of the outputs at time t means, given the changes of the inputs, the newest first: the evaluation of the
inputs then driven once LATENCY(CMD) has passed since they last changed, and nothing before that (R253). -/
def sample (changes : List InputChange) (t : Nat) : Option (Host.Outcome State Fault Refusal) :=
  match changes.find? fun d => d.time ≤ t with
  | none => none
  | some d => if d.time + Config.latency d.cmd ≤ t then some (step (State.reset.present d.cmd d.a)) else none

end Sys2Proof.Machine
end

