-- ==== Sys2Proof/Safety.lean ====
section
/-! DEFINITION. The terms in which the statements about the block are made: frames, settled ports, the opcode table, the bits an
operation reads and writes, results carried from one command to the next, and rounding to nearest. -/

namespace Sys2Proof.Safety

open Sys2Proof.Machine

/-- What a result leaves unchanged: the host's inputs still stand, and ILL is 0 (R11). The block has nothing else to change
(R20 to R25). -/
def Frame (s t : State) : Prop := t.cmd = s.cmd ∧ t.a = s.a ∧ t.ill = false

/-- Every slot of a bus from slot k up is 0 (R29). -/
def ZeroFrom (y : Bus) (k : Nat) : Prop := ∀ i : Fin 4, k ≤ i.val → slot y i = 0

/-- The outputs are those of the inputs they stand with: evaluating again changes nothing (R30, R255). -/
def Settled (s : State) : Prop := s.ill = illOutput s.cmd ∧ step s = .next s

/-- A worked example: on this operand list, the instruction gives this result list (R68). -/
def Gives (i : Instr) (operands results : List Slot) : Prop :=
  ∀ s : State, s.a = busOfList operands → ∃ t, exec i s = .next t ∧ t.y = busOfList results

/-- The result of j on the result of i: the host carries Y to A and presents j (R254). -/
def pipe (i j : Instr) (s : State) : Option Bus :=
  match exec i s with
  | .next t =>
    match exec j (t.present (encode j) t.y) with
    | .next u => some u.y
    | _ => none
  | _ => none

/-- A row of the opcode table: a word is the row's when its masked bits are the row's pattern (R63). -/
structure OpcodeRow where
  mnemonic : String
  mask : CmdWord
  pattern : CmdWord
  deriving DecidableEq, Repr

/-- A word has the row's pattern under the row's mask. -/
def OpcodeRow.has (r : OpcodeRow) (c : CmdWord) : Prop := c &&& r.mask = r.pattern

/-- The mask and match columns of R63, copied from opcode_table.json. -/
def opcodeTable : List OpcodeRow :=
  [
    ⟨"floatToBits", 0xFFFF, 0x0000⟩,
    ⟨"bitsToFloat", 0xFFFF, 0x0001⟩,
    ⟨"halfBitsToFloat", 0xFFFF, 0x0002⟩,
    ⟨"floatToHalfBits", 0xFFFF, 0x0003⟩,
    ⟨"packUnorm", 0xFC3F, 0x0004⟩,
    ⟨"unpackUnorm", 0xFC3F, 0x0005⟩,
    ⟨"packSnorm", 0xFC3F, 0x0006⟩,
    ⟨"unpackSnorm", 0xFC3F, 0x0007⟩] ++ [
    ⟨"packInt2x8", 0xFFFF, 0x0008⟩,
    ⟨"unpackInt2x8", 0xFFFF, 0x0009⟩,
    ⟨"packUint2x8", 0xFFFF, 0x000A⟩,
    ⟨"unpackUint2x8", 0xFFFF, 0x000B⟩,
    ⟨"packInt4x8", 0xFFFF, 0x000C⟩,
    ⟨"unpackInt4x8", 0xFFFF, 0x000D⟩,
    ⟨"packUint4x8", 0xFFFF, 0x000E⟩,
    ⟨"unpackUint4x8", 0xFFFF, 0x000F⟩,
    ⟨"packInt2x16", 0xFFFF, 0x0010⟩,
    ⟨"unpackInt2x16", 0xFFFF, 0x0011⟩,
    ⟨"packUint2x16", 0xFFFF, 0x0012⟩,
    ⟨"unpackUint2x16", 0xFFFF, 0x0013⟩] ++ [
    ⟨"packInt4x16", 0xFFFF, 0x0014⟩,
    ⟨"unpackInt4x16", 0xFFFF, 0x0015⟩,
    ⟨"packUint4x16", 0xFFFF, 0x0016⟩,
    ⟨"unpackUint4x16", 0xFFFF, 0x0017⟩,
    ⟨"packInt2x32", 0xFFFF, 0x0018⟩,
    ⟨"unpackInt2x32", 0xFFFF, 0x0019⟩,
    ⟨"packUint2x32", 0xFFFF, 0x001A⟩,
    ⟨"unpackUint2x32", 0xFFFF, 0x001B⟩] ++ [
    ⟨"packI3x10_1x2", 0xFFFF, 0x001C⟩,
    ⟨"unpackI3x10_1x2", 0xFFFF, 0x001D⟩,
    ⟨"packU3x10_1x2", 0xFFFF, 0x001E⟩,
    ⟨"unpackU3x10_1x2", 0xFFFF, 0x001F⟩,
    ⟨"packHalf", 0xFEFF, 0x0020⟩,
    ⟨"unpackHalf", 0xFEFF, 0x0021⟩]

/-- How many lanes an instruction reads, from slot 0 up (R27, R28). -/
def lanesRead : Instr → Nat
  | .floatToBits => 1
  | .bitsToFloat => 1
  | .halfBitsToFloat => 1
  | .floatToHalfBits => 1
  | .packUnorm _ n _ => n.count
  | .unpackUnorm _ n _ => n.count
  | .packSnorm _ n _ => n.count
  | .unpackSnorm _ n _ => n.count
  | .packInt2x8 => 2
  | .unpackInt2x8 => 1
  | .packUint2x8 => 2
  | .unpackUint2x8 => 1
  | .packInt4x8 => 4
  | .unpackInt4x8 => 1
  | .packUint4x8 => 4
  | .unpackUint4x8 => 1
  | .packInt2x16 => 2
  | .unpackInt2x16 => 1
  | .packUint2x16 => 2
  | .unpackUint2x16 => 1
  | .packInt4x16 => 4
  | .unpackInt4x16 => 1
  | .packUint4x16 => 4
  | .unpackUint4x16 => 1
  | .packInt2x32 => 2
  | .unpackInt2x32 => 1
  | .packUint2x32 => 2
  | .unpackUint2x32 => 1
  | .packI3x10_1x2 => 4
  | .unpackI3x10_1x2 => 1
  | .packU3x10_1x2 => 4
  | .unpackU3x10_1x2 => 1
  | .packHalf n => n.count
  | .unpackHalf n => n.count

/-- How many low bits of each lane an instruction reads (R27, R28). -/
def widthRead : Instr → Nat
  | .floatToBits => 32
  | .bitsToFloat => 32
  | .halfBitsToFloat => 16
  | .floatToHalfBits => 32
  | .packUnorm _ _ f => f.fmt.width
  | .unpackUnorm b _ _ => b.bits
  | .packSnorm _ _ f => f.fmt.width
  | .unpackSnorm b _ _ => b.bits
  | .packInt2x8 => 8
  | .unpackInt2x8 => 16
  | .packUint2x8 => 8
  | .unpackUint2x8 => 16
  | .packInt4x8 => 8
  | .unpackInt4x8 => 32
  | .packUint4x8 => 8
  | .unpackUint4x8 => 32
  | .packInt2x16 => 16
  | .unpackInt2x16 => 32
  | .packUint2x16 => 16
  | .unpackUint2x16 => 32
  | .packInt4x16 => 16
  | .unpackInt4x16 => 64
  | .packUint4x16 => 16
  | .unpackUint4x16 => 64
  | .packInt2x32 => 32
  | .unpackInt2x32 => 64
  | .packUint2x32 => 32
  | .unpackUint2x32 => 64
  | .packI3x10_1x2 => 32
  | .unpackI3x10_1x2 => 32
  | .packU3x10_1x2 => 32
  | .unpackU3x10_1x2 => 32
  | .packHalf _ => 32
  | .unpackHalf _ => 16

/-- How many slots of Y an instruction writes, from slot 0 up (R27, R29). -/
def lanesWritten : Instr → Nat
  | .floatToBits => 1
  | .bitsToFloat => 1
  | .halfBitsToFloat => 1
  | .floatToHalfBits => 1
  | .packUnorm _ n _ => n.count
  | .unpackUnorm _ n _ => n.count
  | .packSnorm _ n _ => n.count
  | .unpackSnorm _ n _ => n.count
  | .packInt2x8 => 1
  | .unpackInt2x8 => 2
  | .packUint2x8 => 1
  | .unpackUint2x8 => 2
  | .packInt4x8 => 1
  | .unpackInt4x8 => 4
  | .packUint4x8 => 1
  | .unpackUint4x8 => 4
  | .packInt2x16 => 1
  | .unpackInt2x16 => 2
  | .packUint2x16 => 1
  | .unpackUint2x16 => 2
  | .packInt4x16 => 1
  | .unpackInt4x16 => 4
  | .packUint4x16 => 1
  | .unpackUint4x16 => 4
  | .packInt2x32 => 1
  | .unpackInt2x32 => 2
  | .packUint2x32 => 1
  | .unpackUint2x32 => 2
  | .packI3x10_1x2 => 1
  | .unpackI3x10_1x2 => 4
  | .packU3x10_1x2 => 1
  | .unpackU3x10_1x2 => 4
  | .packHalf n => n.count
  | .unpackHalf n => n.count

/-- How many low bits of each slot an instruction writes (R27, R29). -/
def widthWritten : Instr → Nat
  | .floatToBits => 32
  | .bitsToFloat => 32
  | .halfBitsToFloat => 32
  | .floatToHalfBits => 16
  | .packUnorm b _ _ => b.bits
  | .unpackUnorm _ _ f => f.fmt.width
  | .packSnorm b _ _ => b.bits
  | .unpackSnorm _ _ f => f.fmt.width
  | .packInt2x8 => 16
  | .unpackInt2x8 => 8
  | .packUint2x8 => 16
  | .unpackUint2x8 => 8
  | .packInt4x8 => 32
  | .unpackInt4x8 => 8
  | .packUint4x8 => 32
  | .unpackUint4x8 => 8
  | .packInt2x16 => 32
  | .unpackInt2x16 => 16
  | .packUint2x16 => 32
  | .unpackUint2x16 => 16
  | .packInt4x16 => 64
  | .unpackInt4x16 => 16
  | .packUint4x16 => 64
  | .unpackUint4x16 => 16
  | .packInt2x32 => 64
  | .unpackInt2x32 => 32
  | .packUint2x32 => 64
  | .unpackUint2x32 => 32
  | .packI3x10_1x2 => 32
  | .unpackI3x10_1x2 => 32
  | .packU3x10_1x2 => 32
  | .unpackU3x10_1x2 => 32
  | .packHalf _ => 16
  | .unpackHalf _ => 32

/-- The least magnitude that rounds to infinity: the midpoint between the largest finite value and 2^(B+1) (R17, R103). -/
def overflowBound (F : FloatFmt) : Rat := 2 ^ (F.bias + 1) - (2 : Rat) ^ ((F.bias : Int) - F.fracBits - 1)

/-- Pattern b is x rounded to format F, to nearest with ties to even: infinity from the overflow bound up, and below it a finite
value none of whose rivals is nearer, with an even last fraction bit where another is as near.
The sign is that of x, or s when x is 0. -/
def RoundsToNearestEven (F : FloatFmt) (x : Rat) (s : BitVec 1) (b : BitVec F.width) : Prop :=
  (signBit F b = if x = 0 then s else BitVec.ofBool (decide (x < 0))) ∧
  (overflowBound F ≤ |x| → decodeF F b = .inf (decide (x < 0))) ∧
  (|x| < overflowBound F → ∃ y, decodeF F b = .finite y ∧
    ∀ c z, decodeF F c = .finite z → |y - x| ≤ |z - x| ∧
      (|z - x| = |y - x| → z ≠ y → (fracField F b).toNat % 2 = 0))

/-- A uniform pack with its lane count and lane width. -/
structure UniformPack where
  instr : Instr
  lanes : LaneCount
  width : Nat
  deriving DecidableEq, Repr

/-- The ten uniform packs (R150). -/
def uniformPacks : List UniformPack :=
  [⟨.packInt2x8, .x2, 8⟩, ⟨.packUint2x8, .x2, 8⟩, ⟨.packInt4x8, .x4, 8⟩, ⟨.packUint4x8, .x4, 8⟩] ++
  [⟨.packInt2x16, .x2, 16⟩, ⟨.packUint2x16, .x2, 16⟩, ⟨.packInt4x16, .x4, 16⟩, ⟨.packUint4x16, .x4, 16⟩, ⟨.packInt2x32, .x2, 32⟩, ⟨.packUint2x32, .x2, 32⟩]

/-- A uniform pack: slot 0 holds the lanes' low w bits, lane k weighted by 2^(w·k), and the other slots are 0 (R150). -/
def PlacesLanes (i : Instr) (n : LaneCount) (w : Nat) : Prop :=
  ∀ s : State, ∃ t, exec i s = .next t ∧ Frame s t ∧ ZeroFrom t.y 1 ∧
    (slot t.y 0).toNat = ∑ k : Fin 4, if k.val < n.count then (slot s.a k).toNat % 2 ^ w * 2 ^ (w * k.val) else 0

/-- A uniform unpack: slot k holds bits [w·k + w - 1 : w·k] of slot 0, and the slots above the lane count are 0 (R150). -/
def SplitsLanes (i : Instr) (n : LaneCount) (w : Nat) : Prop :=
  ∀ s : State, ∃ t, exec i s = .next t ∧ Frame s t ∧ ZeroFrom t.y n.count ∧
    ∀ k : Fin 4, k.val < n.count → (slot t.y k).toNat = (slot s.a 0).toNat / 2 ^ (w * k.val) % 2 ^ w

/-- The result of a signed pack, read as an integer of the packed width, is negative exactly when the top lane is (R151). -/
def SignOfTopLane (i : Instr) (n : LaneCount) (w : Nat) (top : Fin 4) : Prop :=
  ∀ s t : State, exec i s = .next t → ((lane (n.count * w) t.y 0).toInt < 0 ↔ (lane w s.a top).toInt < 0)

/-- Unpacking what was packed gives each lane back at its own width, and packing what was unpacked gives the integer back
(R175). -/
def InverseShapes (pack unpack : Instr) (n : LaneCount) (w : Nat) : Prop :=
  ∀ s : State,
    (∃ y, pipe pack unpack s = some y ∧
      ∀ k : Fin 4, slot y k = if k.val < n.count then (lane w s.a k).setWidth 64 else 0) ∧
    (∃ y, pipe unpack pack s = some y ∧ slot y 0 = (lane (n.count * w) s.a 0).setWidth 64 ∧ ZeroFrom y 1)

end Sys2Proof.Safety
end

