-- ==== Sys2Proof/Certificates/Slice0/Obligations.lean ====
section
/-! DEFINITION. The statements about the block, in the order of the spec's files. They state and prove nothing. -/

open Sys2Proof
open Sys2Proof.Machine
open Sys2Proof.Safety

/-! ## Formats and arithmetic -/

/-- R16: the value of a pattern, from its sign bit, exponent field and fraction field as plain numbers, and two non-NaN patterns
of one value being the same pattern unless both are zeros. -/
def Obligations.DecodingFollowsTheFormat : Prop :=
  ∀ (F : FloatFmt) (b : BitVec F.width),
    let s := b.toNat / 2 ^ (F.width - 1)
    let e := b.toNat / 2 ^ F.fracBits % 2 ^ F.expBits
    let t := b.toNat % 2 ^ F.fracBits
    (e = 2 ^ F.expBits - 1 → t = 0 → decodeF F b = .inf (decide (s = 1))) ∧
    (e = 2 ^ F.expBits - 1 → t ≠ 0 → decodeF F b = .nan) ∧
    (e = 0 → decodeF F b = .finite ((-1) ^ s * t * (2 : Rat) ^ (1 - (F.bias : Int) - F.fracBits))) ∧
    (0 < e → e < 2 ^ F.expBits - 1 →
      decodeF F b = .finite ((-1) ^ s * (2 ^ F.fracBits + t) * (2 : Rat) ^ ((e : Int) - F.bias - F.fracBits))) ∧
    (∀ c : BitVec F.width, decodeF F b ≠ .nan → decodeF F c = decodeF F b → decodeF F b ≠ .finite 0 → c = b)

/-- R17: the rounding algorithm rounds every rational to nearest, ties to even, with gradual underflow and overflow to
infinity at the midpoint above the largest finite value. -/
def Obligations.RoundingIsNearestEven : Prop :=
  ∀ (F : FloatFmt) (r : Rat) (s0 : BitVec 1), RoundsToNearestEven F r s0 (rne F r s0)

/-- R18: the primitives on finite operands are one exact operation, rounded once, and `roundAway` is
`sign(r) × floor(|r| + 1/2)`. -/
def Obligations.PrimitivesRoundOnce : Prop :=
  (∀ (F : FloatFmt) (a b : BitVec F.width) (x y : Rat), decodeF F a = .finite x → decodeF F b = .finite y →
    mulF F a b = rne F (x * y) (signBit F a ^^^ signBit F b) ∧
    (y ≠ 0 → divF F a b = rne F (x / y) (signBit F a ^^^ signBit F b))) ∧
  (∀ (F : FloatFmt) (n : Int), toF F n = rne F (n : Rat) 0) ∧
  (∀ r : Rat, roundAway r = (if r < 0 then -1 else 1) * ⌊|r| + 1 / 2⌋) ∧
  (∀ (F : FloatFmt) (b : BitVec F.width), isNaN F b = true ↔ decodeF F b = .nan)

/-- R19: the clamp is numeric; a pattern within the bounds, a zero of either sign among them, passes unchanged. -/
def Obligations.ClampIsNumeric : Prop :=
  ∀ (F : FloatFmt) (b : BitVec F.width) (lo hi : Rat), lo ≤ hi →
    (decodeF F b = .inf true → clampF F b lo hi = rne F lo 0) ∧
    (decodeF F b = .inf false → clampF F b lo hi = rne F hi 0) ∧
    (∀ x, decodeF F b = .finite x →
      (x < lo → clampF F b lo hi = rne F lo 0) ∧ (hi < x → clampF F b lo hi = rne F hi 0) ∧
      (lo ≤ x → x ≤ hi → clampF F b lo hi = b))

/-! ## Commands, evaluation and the ports -/

/-- Where the slots of a bus lie (R14, R26): slot i is bits [64i+63:64i], and a bus is its four slots, slot 0 lowest. Every statement
about a slot of A or Y rests on this. -/
def Obligations.SlotsAreTheBusQuarters : Prop :=
  (∀ (b : Bus) (i : Fin 4), (slot b i).toNat = b.toNat / 2 ^ (64 * i.val) % 2 ^ 64) ∧
  (∀ f : Fin 4 → Slot, (busOfSlots f).toNat = ∑ i : Fin 4, (f i).toNat * 2 ^ (64 * i.val))

/-- R63: a word decodes to an operation exactly when it has that operation's mask and match (and, in class V, a BW that is not
3); no word has two rows' patterns, and no word with OP from 0x22 up decodes. -/
def Obligations.OperationMapIsTheTable : Prop :=
  (∀ c i, decode c = .ok i → ∃ r ∈ opcodeTable, r.mnemonic = mnemonic i ∧ r.has c ∧
    (r.mask = 0xFC3F → WellFormed.bwField c ≠ 3)) ∧
  (∀ r ∈ opcodeTable, ∀ c, r.has c →
    (∃ i, decode c = .ok i ∧ mnemonic i = r.mnemonic) ∨ (r.mask = 0xFC3F ∧ WellFormed.bwField c = 3)) ∧
  opcodeTable.Pairwise (fun r q => ∀ c, ¬ (r.has c ∧ q.has c)) ∧
  (∀ c, 0x22 ≤ WellFormed.opNumber c → ∀ i, decode c ≠ .ok i)

/-- Decoding and encoding agree both ways: the encoder loses no field of any instruction, and every word that decodes is the
encoder's word for what it decodes to (R60 to R64). -/
def Obligations.DecodeEncodeAgree : Prop :=
  (∀ i, decode (encode i) = .ok i) ∧ (∀ c i, decode c = .ok i → encode i = c)

/-- R65: a word that meets any of the five reserved conditions is refused with ILL = 1, whatever stands on the other ports,
and no other word is. -/
def Obligations.ReservedWordsAreRefused : Prop :=
  ∀ s : State,
    let c := s.cmd
    let condition :=
      0x22 ≤ WellFormed.opNumber c ∨ WellFormed.rsvField c ≠ 0 ∨
      (WellFormed.isClassV c = true ∧ WellFormed.bwField c = 3) ∨
      (WellFormed.isClassS c = true ∧
        (WellFormed.bwField c ≠ 0 ∨ WellFormed.lnField c ≠ 0 ∨ WellFormed.ftField c ≠ 0)) ∨
      (WellFormed.isClassH c = true ∧ (WellFormed.bwField c ≠ 0 ∨ WellFormed.ftField c ≠ 0))
    (condition → step s = .refused .illegalCommand ∧ illOutput c = true) ∧
    (¬ condition → (∃ t, step s = .next t) ∧ illOutput c = false)

/-- R66: the words that pass the legality check are exactly those the decoder accepts, and exactly those of the 80 instructions: 28
of class S, 48 of class V and 4 of class H, no two of them with one word. -/
def Obligations.EightyLegalWords : Prop :=
  (∀ c, (∃ i, decode c = .ok i) ↔ WellFormed.legal c = true) ∧
  (∀ c, WellFormed.legal c = true ↔ c ∈ allInstrs.map encode) ∧
  (allInstrs.map encode).Nodup ∧ (allInstrs.map encode).length = 80 ∧
  classS.length = 28 ∧ (∀ i ∈ classS, WellFormed.isClassS (encode i) = true) ∧
  classV.length = 48 ∧ (∀ i ∈ classV, WellFormed.isClassV (encode i) = true) ∧
  classH.length = 4 ∧ (∀ i ∈ classH, WellFormed.isClassH (encode i) = true)

/-- R68: the text of a command is one of exactly one command word, so that an assembler reads back what it wrote. -/
def Obligations.CommandTextNamesOneWord : Prop :=
  (∀ i, assemble (asm i) = some (encode i)) ∧ (∀ i j, asm i = asm j → i = j)

/-- R70: the rule's own example words, the four reserved ones among them. -/
def Obligations.ExampleWordsDecode : Prop :=
  decode 0x0000 = .ok .floatToBits ∧ decode 0x0003 = .ok .floatToHalfBits ∧
  decode 0x0104 = .ok (.packUnorm .b8 .x4 .f32) ∧ decode 0x0045 = .ok (.unpackUnorm .b16 .x2 .f32) ∧
  decode 0x0246 = .ok (.packSnorm .b16 .x2 .f64) ∧ decode 0x0387 = .ok (.unpackSnorm .b32 .x4 .f64) ∧
  decode 0x000E = .ok .packUint4x8 ∧ decode 0x001C = .ok .packI3x10_1x2 ∧
  decode 0x0120 = .ok (.packHalf .x4) ∧ decode 0x0021 = .ok (.unpackHalf .x2) ∧
  decode 0x00C4 = .error .reservedWidth ∧ decode 0x0108 = .error .unusedFieldS ∧
  decode 0x0022 = .error .reservedOp ∧ decode 0x0400 = .error .reservedBits

/-- A step runs the decoded instruction: where CMD decodes to i, the step is `exec i` of the state. The block moves no program
counter and adds nothing around it (R10, R21). -/
def Obligations.StepRunsDecodedInstruction : Prop :=
  ∀ (s : State) (i : Instr), decode s.cmd = .ok i → step s = exec i s

/-- R11: a legal command gives a result with ILL = 0, and a reserved one is refused with ILL = 1; there is no third outcome. -/
def Obligations.TwoOutcomes : Prop :=
  ∀ s : State,
    (WellFormed.legal s.cmd = true →
      illOutput s.cmd = false ∧ ∃ i t, decode s.cmd = .ok i ∧ exec i s = .next t ∧ step s = .next t ∧ t.ill = false) ∧
    (WellFormed.legal s.cmd = false → illOutput s.cmd = true ∧ step s = .refused .illegalCommand)

/-- R220: every one of the operations completes on every state, whatever stands on the ports: no operand makes it fault, refuse
or stop, and it changes no port but Y and ILL. -/
def Obligations.EveryInstructionCompletes : Prop :=
  ∀ (i : Instr) (s : State), ∃ t, exec i s = .next t ∧ Frame s t

/-- R12: in a vector operation, lane k of the result depends on lane k of the operand alone, at the width the operation reads: no
other bit of slot k and no other slot reaches it. -/
def Obligations.VectorLanesAreIndependent : Prop :=
  ∀ (i : Instr), WellFormed.isClassV (encode i) = true ∨ WellFormed.isClassH (encode i) = true →
    ∀ (s s' : State) (k : Fin 4), lane (widthRead i) s.a k = lane (widthRead i) s'.a k →
      ∃ t t', exec i s = .next t ∧ exec i s' = .next t' ∧ slot t.y k = slot t'.y k

/-- R28: an operation reads only the bits its rule names: two operand buses that agree on them give the same result. -/
def Obligations.UnnamedInputBitsAreIgnored : Prop :=
  ∀ (i : Instr) (s s' : State),
    (∀ k : Fin 4, k.val < lanesRead i → lane (widthRead i) s.a k = lane (widthRead i) s'.a k) →
    ∃ t t', exec i s = .next t ∧ exec i s' = .next t' ∧ t.y = t'.y

/-- R29: every bit of Y that an operation's rule does not write is 0: the bits of a slot above the result's width, signed or
not, and the slots above the lane count. -/
def Obligations.UnwrittenOutputBitsAreZero : Prop :=
  ∀ (i : Instr) (s : State), ∃ t, exec i s = .next t ∧ ZeroFrom t.y (lanesWritten i) ∧
    ∀ k : Fin 4, (slot t.y k).toNat < 2 ^ widthWritten i

/-- R31: the outcome of an evaluation depends on CMD and the input bits its operation names alone: not on the outputs that stand
before it, and not on the evaluations before it, their order or their number. -/
def Obligations.OutcomeDependsOnInputsAlone : Prop :=
  (∀ s s' : State, s.cmd = s'.cmd → s.a = s'.a → step s = step s') ∧
  (∀ (s s' : State) (i : Instr), s.cmd = s'.cmd → decode s.cmd = .ok i →
    (∀ k : Fin 4, k.val < lanesRead i → lane (widthRead i) s.a k = lane (widthRead i) s'.a k) →
    ∃ t t', step s = .next t ∧ step s' = .next t' ∧ t.y = t'.y ∧ t.ill = t'.ill) ∧
  (∀ (s : State) (before : List (CmdWord × Bus)) (cmd : CmdWord) (a : Bus),
    evaluateAll s (before ++ [(cmd, a)]) = evaluateAll s before ++ [(evaluate State.reset cmd a).2])

/-- R48: no order of evaluations changes any result: one instance, from any state, gives for every command of a sequence what a
fresh instance gives for it alone, so a reordered sequence gives the same results reordered. -/
def Obligations.EvaluationOrderIsImmaterial : Prop :=
  ∀ (s s' : State) (l l' : List (CmdWord × Bus)), l.Perm l' →
    evaluateAll s l = l.map (fun p => (evaluate State.reset p.1 p.2).2) ∧
    (evaluateAll s l).Perm (evaluateAll s' l')

/-- R221: a refusal has one cause, a reserved word, whatever A holds; it is the one refusal a step gives, and it leaves no trace: the
evaluation after it is as it would have been. -/
def Obligations.RefusalLeavesNoTrace : Prop :=
  (∀ (s : State) (r : Refusal), step s = .refused r → WellFormed.reserved s.cmd = true ∧ r = .illegalCommand) ∧
  ∀ (s : State) (c : CmdWord), WellFormed.reserved c = true →
    (∀ a : Bus, step (s.present c a) = .refused .illegalCommand ∧ illOutput c = true) ∧
    (∀ (a : Bus) (c' : CmdWord) (a' : Bus),
      (evaluate (evaluate s c a).1 c' a').2 = (evaluate s c' a').2)

/-- R255, as an invariant of the step: a step that gives a result leaves outputs that are those of the inputs they stand with, so
that every further step repeats it; and whatever came in between, from every state with the same CMD and A the outcome is the
same, a result or a refusal. That the ports are the model's state is its own choice (log entry 1). -/
def Obligations.StepLeavesSettledPorts : Prop :=
  (∀ s t : State, step s = .next t →
    Settled t ∧ t.cmd = s.cmd ∧ t.a = s.a ∧ (∀ n, Host.Core.run core n t = .next t) ∧
    ∀ s' : State, s'.cmd = s.cmd → s'.a = s.a → step s' = .next t) ∧
  (∀ (s s' : State) (r : Refusal), step s = .refused r → s'.cmd = s.cmd → s'.a = s.a → step s' = .refused r)

/-- The model's start is settled: its outputs are those of the command and bus it stands with. That all four ports read 0 there is
the model's choice (log entry 2). -/
def Obligations.ResetIsSettled : Prop :=
  Settled State.reset ∧ State.reset = { cmd := 0, a := 0, y := 0, ill := false }

/-- R253: a sample has a meaning from LATENCY(CMD) after the last change of the inputs on, and none before that; its meaning is the
evaluation of the inputs then driven, whatever the ports held. Holds for every value of LATENCY. -/
def Obligations.SampleWaitsForLatency : Prop :=
  ∀ (d : InputChange) (earlier : List InputChange) (t : Nat) (s : State), d.time ≤ t →
    sample (d :: earlier) t =
      if d.time + Config.latency d.cmd ≤ t then some (step (s.present d.cmd d.a)) else none

/-! ## Bit-Reinterpretation unit -/

/-- R100: `floatToBits` passes the 32 low bits of slot 0 unchanged, every NaN among them. -/
def Obligations.FloatToBitsPassesEveryPattern : Prop :=
  decode 0x0000 = .ok .floatToBits ∧
  (∀ s : State, ∃ t, exec .floatToBits s = .next t ∧ Frame s t ∧ ZeroFrom t.y 1 ∧
    (slot t.y 0).toNat = (slot s.a 0).toNat % 2 ^ 32) ∧
  Gives .floatToBits [0x3F800000] [0x000000003F800000]

/-- R101: `bitsToFloat` passes the 32 low bits of slot 0 unchanged, and each of the two bitcasts undoes the other on every
pattern. -/
def Obligations.BitsToFloatInvertsFloatToBits : Prop :=
  decode 0x0001 = .ok .bitsToFloat ∧
  (∀ s : State, ∃ t, exec .bitsToFloat s = .next t ∧ Frame s t ∧ ZeroFrom t.y 1 ∧
    (slot t.y 0).toNat = (slot s.a 0).toNat % 2 ^ 32) ∧
  (∀ s : State, ∃ y z, pipe .floatToBits .bitsToFloat s = some y ∧ pipe .bitsToFloat .floatToBits s = some z ∧
    lane 32 y 0 = lane 32 s.a 0 ∧ lane 32 z 0 = lane 32 s.a 0) ∧
  Gives .bitsToFloat [0x7FC00001] [0x7FC00001]

/-- R102: `halfBitsToFloat` is exact: the sign is kept, a number or an infinity keeps its value, a NaN keeps its payload in the top
ten fraction bits, and every binary16 subnormal becomes a binary32 normal. -/
def Obligations.HalfBitsToFloatIsExact : Prop :=
  decode 0x0002 = .ok .halfBitsToFloat ∧
  (∀ s : State, ∃ t, exec .halfBitsToFloat s = .next t ∧ Frame s t ∧ ZeroFrom t.y 1 ∧
    (slot t.y 0).toNat < 2 ^ 32 ∧
    let h : BitVec 16 := lane 16 s.a 0
    let r : BitVec 32 := lane 32 t.y 0
    signBit .binary32 r = signBit .binary16 h ∧
    (isNaN .binary16 h = false → decodeF .binary32 r = decodeF .binary16 h) ∧
    (isNaN .binary16 h = true → isNaN .binary32 r = true ∧
      (fracField .binary32 r).toNat = (fracField .binary16 h).toNat * 2 ^ 13) ∧
    (expField .binary16 h = 0 → fracField .binary16 h ≠ 0 → expField .binary32 r ≠ 0)) ∧
  Gives .halfBitsToFloat [0x3C00] [0x3F800000]

/-- R103: `floatToHalfBits` keeps the sign, rounds a finite value to nearest even (65520 and up to infinity, 2^-25 and down to
zero), keeps an infinity, and keeps a NaN's top ten payload bits, or payload 1 where they are 0. -/
def Obligations.FloatToHalfBitsRoundsToNearestEven : Prop :=
  decode 0x0003 = .ok .floatToHalfBits ∧
  (∀ s : State, ∃ t, exec .floatToHalfBits s = .next t ∧ Frame s t ∧ ZeroFrom t.y 1 ∧
    (slot t.y 0).toNat < 2 ^ 16 ∧
    let f : BitVec 32 := lane 32 s.a 0
    let r : BitVec 16 := lane 16 t.y 0
    signBit .binary16 r = signBit .binary32 f ∧
    (isNaN .binary32 f = true → isNaN .binary16 r = true ∧
      (fracField .binary16 r).toNat =
        if (fracField .binary32 f).toNat / 2 ^ 13 = 0 then 1 else (fracField .binary32 f).toNat / 2 ^ 13) ∧
    (∀ neg, decodeF .binary32 f = .inf neg → decodeF .binary16 r = .inf neg) ∧
    (∀ v, decodeF .binary32 f = .finite v →
      RoundsToNearestEven .binary16 v (signBit .binary32 f) r ∧
      (65520 ≤ |v| → decodeF .binary16 r = .inf (decide (v < 0))) ∧
      (|v| < 65520 → ∃ w, decodeF .binary16 r = .finite w) ∧
      (|v| ≤ (2 : Rat) ^ (-25 : Int) → decodeF .binary16 r = .finite 0))) ∧
  Gives .floatToHalfBits [0x3DCCCCCD] [0x2E66]

/-- R103: its bit-level form is equal to its value form on every one of the 2^32 inputs. -/
def Obligations.BitLevelNarrowingEqualsValueForm : Prop :=
  ∀ f : BitVec 32, narrowFloatBits f = narrowFloat f

/-- R104: widening a binary16 pattern and narrowing it again gives the pattern back, every NaN among them. -/
def Obligations.HalfRoundTripIsExact : Prop :=
  ∀ s : State, ∃ y, pipe .halfBitsToFloat .floatToHalfBits s = some y ∧ ZeroFrom y 1 ∧
    slot y 0 = (lane 16 s.a 0).setWidth 64

/-- R105: narrowing and widening a binary32 value gives the nearest binary16 value, widened: within 2^-11 of the magnitude in the
normal range, within 2^-25 below it, infinity from 65520 up, a non-NaN itself exactly when it is a binary16 value, and a NaN
with the sign and the top payload bits kept. That "equals f" is said of non-NaN f alone is a reading of the rule: log entry 12. -/
def Obligations.NarrowThenWidenErrorBounds : Prop :=
  ∀ s : State, ∃ y, pipe .floatToHalfBits .halfBitsToFloat s = some y ∧ ZeroFrom y 1 ∧
    let f : BitVec 32 := lane 32 s.a 0
    let r : BitVec 32 := lane 32 y 0
    (∀ v, decodeF .binary32 f = .finite v →
      (∃ h : BitVec 16, RoundsToNearestEven .binary16 v (signBit .binary32 f) h ∧
        decodeF .binary32 r = decodeF .binary16 h ∧ signBit .binary32 r = signBit .binary16 h) ∧
      ((2 : Rat) ^ (-14 : Int) ≤ |v| → |v| ≤ 65504 →
        ∃ w, decodeF .binary32 r = .finite w ∧ |w - v| ≤ (2 : Rat) ^ (-11 : Int) * |v|) ∧
      (|v| < (2 : Rat) ^ (-14 : Int) → ∃ w, decodeF .binary32 r = .finite w ∧ |w - v| ≤ (2 : Rat) ^ (-25 : Int)) ∧
      (65520 ≤ |v| → decodeF .binary32 r = .inf (decide (v < 0)))) ∧
    (isNaN .binary32 f = false → (r = f ↔ ∃ h : BitVec 16, decodeF .binary16 h = decodeF .binary32 f)) ∧
    (isNaN .binary32 f = true → isNaN .binary32 r = true ∧ signBit .binary32 r = signBit .binary32 f ∧
      (fracField .binary32 r).toNat =
        (if (fracField .binary32 f).toNat / 2 ^ 13 = 0 then 1 else (fracField .binary32 f).toNat / 2 ^ 13) * 2 ^ 13)

/-! ## Normalized Fixed-Point unit -/

/-- R121: the twelve scale constants, pattern and value: each the scale integer itself but for binary32 with BITS = 32, where they
are 2^32 and 2^31. -/
def Obligations.ScaleConstantsTable : Prop :=
  (scaleU .b8 .f32 = 0x437F0000#32 ∧ scaleS .b8 .f32 = 0x42FE0000#32) ∧
  (scaleU .b16 .f32 = 0x477FFF00#32 ∧ scaleS .b16 .f32 = 0x46FFFE00#32) ∧
  (scaleU .b32 .f32 = 0x4F800000#32 ∧ scaleS .b32 .f32 = 0x4F000000#32) ∧
  (scaleU .b8 .f64 = 0x406FE00000000000#64 ∧ scaleS .b8 .f64 = 0x405FC00000000000#64) ∧
  (scaleU .b16 .f64 = 0x40EFFFE000000000#64 ∧ scaleS .b16 .f64 = 0x40DFFFC000000000#64) ∧
  (scaleU .b32 .f64 = 0x41EFFFFFFFE00000#64 ∧ scaleS .b32 .f64 = 0x41DFFFFFFFC00000#64) ∧
  (∀ b f, ¬ (b = .b32 ∧ f = .f32) →
    decodeF f.fmt (scaleU b f) = .finite (2 ^ b.bits - 1) ∧ decodeF f.fmt (scaleS b f) = .finite (2 ^ (b.bits - 1) - 1)) ∧
  decodeF .binary32 (scaleU .b32 .f32) = .finite (2 ^ 32) ∧ decodeF .binary32 (scaleS .b32 .f32) = .finite (2 ^ 31)

/-- R122: `packUnorm` clamps to [0, 1], multiplies by Su with one rounding into F, rounds that to the nearest integer with ties
upward, and saturates at 2^BITS - 1, which acts in binary32 at 32 bits alone. An infinity clamps like any other number; a NaN lane is NaNPack. -/
def Obligations.PackUnormQuantizes : Prop :=
  decode 0x0104 = .ok (.packUnorm .b8 .x4 .f32) ∧
  (∀ (b : LaneBits) (n : LaneCount) (f : LaneFloat) (s : State),
    ∃ t, exec (.packUnorm b n f) s = .next t ∧ Frame s t ∧ ZeroFrom t.y n.count ∧
      ∀ k : Fin 4, k.val < n.count →
        let x := lane f.fmt.width s.a k
        (isNaN f.fmt x = true → slot t.y k = (BitVec.ofInt b.bits (nanPack .unorm b f x)).setWidth 64) ∧
        (decodeF f.fmt x = .inf true → slot t.y k = 0) ∧
        (decodeF f.fmt x = .inf false → (slot t.y k).toNat = 2 ^ b.bits - 1) ∧
        (∀ v, decodeF f.fmt x = .finite v →
          (∃ S p : Rat, decodeF f.fmt (toF f.fmt (2 ^ b.bits - 1)) = .finite S ∧
            decodeF f.fmt (rne f.fmt (max 0 (min v 1) * S) 0) = .finite p ∧
            ((slot t.y k).toNat : Int) = min ⌊p + 1 / 2⌋ (2 ^ b.bits - 1) ∧
            (¬ (b = .b32 ∧ f = .f32) → ⌊p + 1 / 2⌋ ≤ 2 ^ b.bits - 1)) ∧
          (v ≤ 0 → slot t.y k = 0) ∧ (1 ≤ v → (slot t.y k).toNat = 2 ^ b.bits - 1) ∧
          (expField f.fmt x = 0 → slot t.y k = 0))) ∧
  Gives (.packUnorm .b8 .x2 .f32) [0x3F000000, 0x3E800000] [128, 64] ∧
  Gives (.packUnorm .b8 .x2 .f32) [0x3B008081] [1]

/-- R123: `unpackUnorm` is one rounded quotient of toF(u) by Su: 0 gives +0, the largest lane gives exactly 1, and every result is
a number in [0, 1] that is not -0. -/
def Obligations.UnpackUnormDequantizes : Prop :=
  decode 0x0045 = .ok (.unpackUnorm .b16 .x2 .f32) ∧
  (∀ (b : LaneBits) (n : LaneCount) (f : LaneFloat) (s : State),
    ∃ t, exec (.unpackUnorm b n f) s = .next t ∧ Frame s t ∧ ZeroFrom t.y n.count ∧
      ∀ k : Fin 4, k.val < n.count →
        let u := (slot s.a k).toNat % 2 ^ b.bits
        let y := lane f.fmt.width t.y k
        slot t.y k = y.setWidth 64 ∧
        (∃ U S : Rat, decodeF f.fmt (toF f.fmt u) = .finite U ∧ decodeF f.fmt (toF f.fmt (2 ^ b.bits - 1)) = .finite S ∧
          y = rne f.fmt (U / S) 0) ∧
        (u = 0 → slot t.y k = 0) ∧ (u = 2 ^ b.bits - 1 → decodeF f.fmt y = .finite 1) ∧
        (∃ v, decodeF f.fmt y = .finite v ∧ 0 ≤ v ∧ v ≤ 1 ∧ signBit f.fmt y = 0)) ∧
  Gives (.unpackUnorm .b8 .x2 .f32) [255, 128] [0x3F800000, 0x3F008081] ∧
  Gives (.unpackUnorm .b32 .x2 .f32) [0xFFFFFFFE, 0xFFFFFFFF] [0x3F800000, 0x3F800000]

/-- R124: `packSnorm` clamps to [-1, 1], multiplies by Ss with one rounding into F, rounds that to the nearest integer with ties
away from zero, and saturates symmetrically (which acts in binary32 at 32 bits alone); its lanes are two's complement, and the most negative one never occurs. -/
def Obligations.PackSnormQuantizes : Prop :=
  decode 0x0246 = .ok (.packSnorm .b16 .x2 .f64) ∧
  (∀ (b : LaneBits) (n : LaneCount) (f : LaneFloat) (s : State),
    ∃ t, exec (.packSnorm b n f) s = .next t ∧ Frame s t ∧ ZeroFrom t.y n.count ∧
      ∀ k : Fin 4, k.val < n.count →
        let L : Int := 2 ^ (b.bits - 1) - 1
        let x := lane f.fmt.width s.a k
        let r := (lane b.bits t.y k).toInt
        (slot t.y k).toNat < 2 ^ b.bits ∧ -L ≤ r ∧ r ≤ L ∧
        (isNaN f.fmt x = true → r = nanPack .snorm b f x) ∧
        (decodeF f.fmt x = .inf true → r = -L) ∧ (decodeF f.fmt x = .inf false → r = L) ∧
        (∀ v, decodeF f.fmt x = .finite v →
          (∃ S p : Rat, decodeF f.fmt (toF f.fmt L) = .finite S ∧
            decodeF f.fmt (rne f.fmt (max (-1) (min v 1) * S) 0) = .finite p ∧
            r = max (-L) (min ((if p < 0 then -1 else 1) * ⌊|p| + 1 / 2⌋) L) ∧
            (¬ (b = .b32 ∧ f = .f32) → ⌊|p| + 1 / 2⌋ ≤ L)) ∧
          (v ≤ -1 → r = -L) ∧ (1 ≤ v → r = L) ∧ (v = 0 → r = 0))) ∧
  Gives (.packSnorm .b8 .x2 .f32) [0xBF800000, 0x3F000000] [0x81, 0x40] ∧
  Gives (.packSnorm .b8 .x2 .f32) [0xBF000000] [0xC0]

/-- R125: `unpackSnorm` is one rounded quotient of toF(i) by Ss, clamped to [-1, 1]: the two least lane values both give exactly -1,
the least by the clamp wherever Ss is exact, and 0 gives +0. -/
def Obligations.UnpackSnormDequantizes : Prop :=
  decode 0x0387 = .ok (.unpackSnorm .b32 .x4 .f64) ∧
  (∀ (b : LaneBits) (n : LaneCount) (f : LaneFloat) (s : State),
    ∃ t, exec (.unpackSnorm b n f) s = .next t ∧ Frame s t ∧ ZeroFrom t.y n.count ∧
      ∀ k : Fin 4, k.val < n.count →
        let i := (lane b.bits s.a k).toInt
        let y := lane f.fmt.width t.y k
        slot t.y k = y.setWidth 64 ∧
        (∃ I S q : Rat, decodeF f.fmt (toF f.fmt i) = .finite I ∧
          decodeF f.fmt (toF f.fmt (2 ^ (b.bits - 1) - 1)) = .finite S ∧ decodeF f.fmt (rne f.fmt (I / S) 0) = .finite q ∧
          decodeF f.fmt y = .finite (max (-1) (min q 1)) ∧ -1 ≤ max (-1) (min q 1) ∧ max (-1) (min q 1) ≤ 1 ∧
          (i = -2 ^ (b.bits - 1) → ¬ (b = .b32 ∧ f = .f32) → q < -1)) ∧
        (i = 0 → slot t.y k = 0) ∧
        (i = -2 ^ (b.bits - 1) ∨ i = -(2 ^ (b.bits - 1) - 1) → decodeF f.fmt y = .finite (-1)) ∧
        (i = 2 ^ (b.bits - 1) - 1 → decodeF f.fmt y = .finite 1)) ∧
  Gives (.unpackSnorm .b8 .x2 .f32) [0x80, 0x40] [0xBF800000, 0x3F010204]

/-- R128: a NaN lane of a normalized pack gives a fixed function of the operation, BITS, F and the lane's own pattern, with values
in the lane's range; the lane's place, the lane count and the other lanes do not enter. Holds for every NaNPack. -/
def Obligations.NaNLaneIsAFixedFunction : Prop :=
  ∃ g : NormPack → LaneBits → LaneFloat → Slot → Int,
    (∀ b f x, 0 ≤ g .unorm b f x ∧ g .unorm b f x ≤ 2 ^ b.bits - 1) ∧
    (∀ b f x, -(2 ^ (b.bits - 1) - 1) ≤ g .snorm b f x ∧ g .snorm b f x ≤ 2 ^ (b.bits - 1) - 1) ∧
    ∀ (b : LaneBits) (n : LaneCount) (f : LaneFloat) (s : State),
      ∃ t u, exec (.packUnorm b n f) s = .next t ∧ exec (.packSnorm b n f) s = .next u ∧
        ∀ k : Fin 4, k.val < n.count → isNaN f.fmt (lane f.fmt.width s.a k) = true →
          ((slot t.y k).toNat : Int) = g .unorm b f ((lane f.fmt.width s.a k).setWidth 64) ∧
          (slot u.y k).toNat < 2 ^ b.bits ∧
          (lane b.bits u.y k).toInt = g .snorm b f ((lane f.fmt.width s.a k).setWidth 64)

/-- The ranges of the four normalized operations (R129): pack lanes in range, the most negative snorm lane never among them; unpack
lanes in [0, 1] or [-1, 1], never a NaN, an infinity or -0. -/
def Obligations.NormalizedResultRanges : Prop :=
  ∀ (b : LaneBits) (n : LaneCount) (f : LaneFloat) (s : State), ∃ p u q w,
    exec (.packUnorm b n f) s = .next p ∧ exec (.unpackUnorm b n f) s = .next u ∧
    exec (.packSnorm b n f) s = .next q ∧ exec (.unpackSnorm b n f) s = .next w ∧
    ∀ k : Fin 4, k.val < n.count →
      (slot p.y k).toNat ≤ 2 ^ b.bits - 1 ∧
      (slot q.y k).toNat ≠ 2 ^ (b.bits - 1) ∧ (slot q.y k).toNat < 2 ^ b.bits ∧
      (∃ v, decodeF f.fmt (lane f.fmt.width u.y k) = .finite v ∧ 0 ≤ v ∧ v ≤ 1 ∧
        (v = 0 → signBit f.fmt (lane f.fmt.width u.y k) = 0)) ∧
      (∃ v, decodeF f.fmt (lane f.fmt.width w.y k) = .finite v ∧ -1 ≤ v ∧ v ≤ 1 ∧
        (v = 0 → signBit f.fmt (lane f.fmt.width w.y k) = 0))

/-- R130: packing an unpacked unorm lane gives it back, for every lane value, in binary64 at every width and in binary32 at 8 and
16 bits; in binary32 at 32 bits it does so up to 2^24 and first fails at 2^24 + 1. -/
def Obligations.UnormGridRoundTrip : Prop :=
  ∀ (b : LaneBits) (n : LaneCount) (f : LaneFloat) (s : State),
    ∃ y, pipe (.unpackUnorm b n f) (.packUnorm b n f) s = some y ∧
      ∀ k : Fin 4, k.val < n.count →
        (¬ (b = .b32 ∧ f = .f32) → slot y k = (lane b.bits s.a k).setWidth 64) ∧
        (b = .b32 → f = .f32 →
          ((lane b.bits s.a k).toNat ≤ 2 ^ 24 → slot y k = (lane b.bits s.a k).setWidth 64) ∧
          ((lane b.bits s.a k).toNat = 2 ^ 24 + 1 → slot y k ≠ (lane b.bits s.a k).setWidth 64))

/-- R131: packing an unpacked snorm lane gives it back under the same formats and widths, for every lane but the most negative one;
that one comes back as its neighbour in every format and width; in binary32 at 32 bits the law fails. -/
def Obligations.SnormGridRoundTrip : Prop :=
  (∀ (b : LaneBits) (n : LaneCount) (f : LaneFloat) (s : State),
    ∃ y, pipe (.unpackSnorm b n f) (.packSnorm b n f) s = some y ∧
      ∀ k : Fin 4, k.val < n.count →
        ((lane b.bits s.a k).toInt ≠ -2 ^ (b.bits - 1) → ¬ (b = .b32 ∧ f = .f32) →
          slot y k = (lane b.bits s.a k).setWidth 64) ∧
        ((lane b.bits s.a k).toInt = -2 ^ (b.bits - 1) →
          (slot y k).toNat < 2 ^ b.bits ∧ (lane b.bits y k).toInt = -(2 ^ (b.bits - 1) - 1))) ∧
  (∀ n : LaneCount, ∃ (s : State) (y : Bus), pipe (.unpackSnorm .b32 n .f32) (.packSnorm .b32 n .f32) s = some y ∧
    lane 32 s.a 0 ≠ 0x80000000#32 ∧ slot y 0 ≠ (lane 32 s.a 0).setWidth 64)

/-- R132: for every x in [0, 1], unpacking what was packed is within one grid step of x, in every format and width. -/
def Obligations.UnormErrorBound : Prop :=
  ∀ (b : LaneBits) (n : LaneCount) (f : LaneFloat) (s : State),
    ∃ y, pipe (.packUnorm b n f) (.unpackUnorm b n f) s = some y ∧
      ∀ k : Fin 4, k.val < n.count → ∀ v, decodeF f.fmt (lane f.fmt.width s.a k) = .finite v → 0 ≤ v → v ≤ 1 →
        ∃ w, decodeF f.fmt (lane f.fmt.width y k) = .finite w ∧ |w - v| ≤ 1 / (2 ^ b.bits - 1)

/-! ## Lane-Packing unit -/

/-- The five signed packs (R151, R155, R159, R163, R167): pure bit placement, lane 0 lowest, and a result whose sign is the top
lane's. -/
def Obligations.SignedPacksPlaceLanes : Prop :=
  (decode 0x0008 = .ok .packInt2x8 ∧ PlacesLanes .packInt2x8 .x2 8 ∧ SignOfTopLane .packInt2x8 .x2 8 1 ∧
    Gives .packInt2x8 [-1, 1] [0x01FF]) ∧
  (decode 0x000C = .ok .packInt4x8 ∧ PlacesLanes .packInt4x8 .x4 8 ∧ SignOfTopLane .packInt4x8 .x4 8 3 ∧
    Gives .packInt4x8 [1, -2, 3, -4] [0xFC03FE01]) ∧
  (decode 0x0010 = .ok .packInt2x16 ∧ PlacesLanes .packInt2x16 .x2 16 ∧ SignOfTopLane .packInt2x16 .x2 16 1 ∧
    Gives .packInt2x16 [-32768, 32767] [0x7FFF8000]) ∧
  (decode 0x0014 = .ok .packInt4x16 ∧ PlacesLanes .packInt4x16 .x4 16 ∧ SignOfTopLane .packInt4x16 .x4 16 3 ∧
    Gives .packInt4x16 [-1, 0, -32768, 1] [0x000180000000FFFF]) ∧
  (decode 0x0018 = .ok .packInt2x32 ∧ PlacesLanes .packInt2x32 .x2 32 ∧ SignOfTopLane .packInt2x32 .x2 32 1 ∧
    Gives .packInt2x32 [-1, 0] [0x00000000FFFFFFFF])

/-- The five unsigned packs (R153, R157, R161, R165, R169): the result is the sum of the lanes weighted by 2^(w·k). -/
def Obligations.UnsignedPacksSumWeightedLanes : Prop :=
  (decode 0x000A = .ok .packUint2x8 ∧ PlacesLanes .packUint2x8 .x2 8 ∧ Gives .packUint2x8 [0x12, 0x34] [0x3412]) ∧
  (decode 0x000E = .ok .packUint4x8 ∧ PlacesLanes .packUint4x8 .x4 8 ∧
    Gives .packUint4x8 [0xDE, 0xAD, 0xBE, 0xEF] [0xEFBEADDE]) ∧
  (decode 0x0012 = .ok .packUint2x16 ∧ PlacesLanes .packUint2x16 .x2 16 ∧
    Gives .packUint2x16 [0xFFFF, 0x0001] [0x0001FFFF]) ∧
  (decode 0x0016 = .ok .packUint4x16 ∧ PlacesLanes .packUint4x16 .x4 16 ∧
    Gives .packUint4x16 [0x0001, 0x0002, 0x0003, 0xFFFF] [0xFFFF000300020001]) ∧
  (decode 0x001A = .ok .packUint2x32 ∧ PlacesLanes .packUint2x32 .x2 32 ∧
    Gives .packUint2x32 [0x89ABCDEF, 0x01234567] [0x0123456789ABCDEF])

/-- The five signed unpacks (R152, R156, R160, R164, R168): lane k is the field at bit w·k, not sign-extended in its slot. -/
def Obligations.SignedUnpacksSplitLanes : Prop :=
  (decode 0x0009 = .ok .unpackInt2x8 ∧ SplitsLanes .unpackInt2x8 .x2 8 ∧ InverseShapes .packInt2x8 .unpackInt2x8 .x2 8 ∧
    Gives .unpackInt2x8 [0x80FF] [0xFF, 0x80]) ∧
  (decode 0x000D = .ok .unpackInt4x8 ∧ SplitsLanes .unpackInt4x8 .x4 8 ∧ InverseShapes .packInt4x8 .unpackInt4x8 .x4 8 ∧
    Gives .unpackInt4x8 [0xFC03FE01] [0x01, 0xFE, 0x03, 0xFC]) ∧
  (decode 0x0011 = .ok .unpackInt2x16 ∧ SplitsLanes .unpackInt2x16 .x2 16 ∧
    InverseShapes .packInt2x16 .unpackInt2x16 .x2 16 ∧ Gives .unpackInt2x16 [0x80007FFF] [0x7FFF, 0x8000]) ∧
  (decode 0x0015 = .ok .unpackInt4x16 ∧ SplitsLanes .unpackInt4x16 .x4 16 ∧
    InverseShapes .packInt4x16 .unpackInt4x16 .x4 16 ∧
    Gives .unpackInt4x16 [0x8000000100020003] [0x0003, 0x0002, 0x0001, 0x8000]) ∧
  (decode 0x0019 = .ok .unpackInt2x32 ∧ SplitsLanes .unpackInt2x32 .x2 32 ∧
    InverseShapes .packInt2x32 .unpackInt2x32 .x2 32 ∧ Gives .unpackInt2x32 [0x800000007FFFFFFF] [0x7FFFFFFF, 0x80000000])

/-- The five unsigned unpacks (R154, R158, R162, R166, R170): lane k is the field at bit w·k, and packing the lanes gives the
integer back. -/
def Obligations.UnsignedUnpacksSplitLanes : Prop :=
  (decode 0x000B = .ok .unpackUint2x8 ∧ SplitsLanes .unpackUint2x8 .x2 8 ∧
    InverseShapes .packUint2x8 .unpackUint2x8 .x2 8 ∧ Gives .unpackUint2x8 [0x80FF] [0xFF, 0x80]) ∧
  (decode 0x000F = .ok .unpackUint4x8 ∧ SplitsLanes .unpackUint4x8 .x4 8 ∧
    InverseShapes .packUint4x8 .unpackUint4x8 .x4 8 ∧ Gives .unpackUint4x8 [0xFC03FE01] [0x01, 0xFE, 0x03, 0xFC]) ∧
  (decode 0x0013 = .ok .unpackUint2x16 ∧ SplitsLanes .unpackUint2x16 .x2 16 ∧
    InverseShapes .packUint2x16 .unpackUint2x16 .x2 16 ∧ Gives .unpackUint2x16 [0x80007FFF] [0x7FFF, 0x8000]) ∧
  (decode 0x0017 = .ok .unpackUint4x16 ∧ SplitsLanes .unpackUint4x16 .x4 16 ∧
    InverseShapes .packUint4x16 .unpackUint4x16 .x4 16 ∧
    Gives .unpackUint4x16 [0x8000000100020003] [0x0003, 0x0002, 0x0001, 0x8000]) ∧
  (decode 0x001B = .ok .unpackUint2x32 ∧ SplitsLanes .unpackUint2x32 .x2 32 ∧
    InverseShapes .packUint2x32 .unpackUint2x32 .x2 32 ∧ Gives .unpackUint2x32 [0x800000007FFFFFFF] [0x7FFFFFFF, 0x80000000])

/-- R43: the low k·w bits of a packed integer of n lanes are the packed integer of its first k lanes, for every uniform pack and
every k up to n; the halves of `packInt4x16` are `packInt2x16` of lanes 0 and 1 and of lanes 2 and 3, and the low half of
`packUint4x8` is `packUint2x8` of lanes 0 and 1. -/
def Obligations.NarrowerViewsSeeLowerLanes : Prop :=
  (∀ p ∈ uniformPacks, ∀ (s : State) (k : Nat), k ≤ p.lanes.count → ∃ t, exec p.instr s = .next t ∧
    (slot t.y 0).toNat % 2 ^ (p.width * k) =
      ∑ j : Fin 4, if j.val < k then (slot s.a j).toNat % 2 ^ p.width * 2 ^ (p.width * j.val) else 0) ∧
  (∀ s : State, ∃ t u v,
    exec .packInt4x16 s = .next t ∧ exec .packInt2x16 s = .next u ∧
    exec .packInt2x16 (s.present s.cmd (busOfList [slot s.a 2, slot s.a 3])) = .next v ∧
    (slot t.y 0).toNat % 2 ^ 32 = (slot u.y 0).toNat ∧ (slot t.y 0).toNat / 2 ^ 32 = (slot v.y 0).toNat) ∧
  (∀ s : State, ∃ p q, exec .packUint4x8 s = .next p ∧ exec .packUint2x8 s = .next q ∧
    (slot p.y 0).toNat % 2 ^ 16 = (slot q.y 0).toNat)

/-- R171: `packI3x10_1x2` clamps int32 lanes to [-512, 511] and [-2, 1], by signed comparison of their 32 low bits, and packs the fields
with field 0 lowest. -/
def Obligations.SignedTenBitPackClamps : Prop :=
  decode 0x001C = .ok .packI3x10_1x2 ∧
  (∀ s : State, ∃ t, exec .packI3x10_1x2 s = .next t ∧ Frame s t ∧ ZeroFrom t.y 1 ∧
    let c : Fin 4 → Int := fun k =>
      if k.val = 3 then max (-2) (min (lane 32 s.a k).toInt 1) else max (-512) (min (lane 32 s.a k).toInt 511)
    ((slot t.y 0).toNat : Int) =
      c 0 % 2 ^ 10 + c 1 % 2 ^ 10 * 2 ^ 10 + c 2 % 2 ^ 10 * 2 ^ 20 + c 3 % 2 ^ 2 * 2 ^ 30) ∧
  Gives .packI3x10_1x2 [600, -600, -1, -3] [0xBFF801FF]

/-- R172: `unpackI3x10_1x2` sign-extends each field to an int32 lane whose slot bits [63:32] are 0, and packing the lanes gives every
integer back. -/
def Obligations.SignedTenBitUnpackSignExtends : Prop :=
  decode 0x001D = .ok .unpackI3x10_1x2 ∧
  (∀ s : State, ∃ t, exec .unpackI3x10_1x2 s = .next t ∧ Frame s t ∧
    (∀ k : Fin 4, (slot t.y k).toNat < 2 ^ 32) ∧
    (∀ k : Fin 4, k.val < 3 →
      -512 ≤ (lane 32 t.y k).toInt ∧ (lane 32 t.y k).toInt ≤ 511 ∧
      (lane 32 t.y k).toInt % 2 ^ 10 = ((slot s.a 0).toNat : Int) / 2 ^ (10 * k.val) % 2 ^ 10) ∧
    (-2 ≤ (lane 32 t.y 3).toInt ∧ (lane 32 t.y 3).toInt ≤ 1 ∧
      (lane 32 t.y 3).toInt % 2 ^ 2 = ((slot s.a 0).toNat : Int) / 2 ^ 30 % 2 ^ 2)) ∧
  (∀ s : State, ∃ y, pipe .unpackI3x10_1x2 .packI3x10_1x2 s = some y ∧
    (slot y 0).toNat = (slot s.a 0).toNat % 2 ^ 32) ∧
  Gives .unpackI3x10_1x2 [0x80080200] [0xFFFFFE00, 0xFFFFFE00, 0x00000000, 0xFFFFFFFE]

/-- R173: `packU3x10_1x2` masks each lane to its field: values out of range wrap, and none is clamped. -/
def Obligations.UnsignedTenBitPackWraps : Prop :=
  decode 0x001E = .ok .packU3x10_1x2 ∧
  (∀ s : State, ∃ t, exec .packU3x10_1x2 s = .next t ∧ Frame s t ∧ ZeroFrom t.y 1 ∧
    (slot t.y 0).toNat =
      (slot s.a 0).toNat % 2 ^ 10 + (slot s.a 1).toNat % 2 ^ 10 * 2 ^ 10 + (slot s.a 2).toNat % 2 ^ 10 * 2 ^ 20 +
        (slot s.a 3).toNat % 2 ^ 2 * 2 ^ 30) ∧
  Gives .packU3x10_1x2 [1023, 1024, 5, 7] [0xC05003FF]

/-- R174: `unpackU3x10_1x2` zero-extends each field, and packing the lanes gives every integer back. -/
def Obligations.UnsignedTenBitUnpackZeroExtends : Prop :=
  decode 0x001F = .ok .unpackU3x10_1x2 ∧
  (∀ s : State, ∃ t, exec .unpackU3x10_1x2 s = .next t ∧ Frame s t ∧
    ∀ k : Fin 4, (slot t.y k).toNat =
      (slot s.a 0).toNat / 2 ^ (10 * k.val) % 2 ^ (if k.val = 3 then 2 else 10)) ∧
  (∀ s : State, ∃ y, pipe .unpackU3x10_1x2 .packU3x10_1x2 s = some y ∧
    (slot y 0).toNat = (slot s.a 0).toNat % 2 ^ 32) ∧
  Gives .unpackU3x10_1x2 [0xFFFFFFFF] [1023, 1023, 1023, 3]

/-- R175: the round trips of the unit: exact for every uniform shape both ways; for the signed 10-10-10-2 scheme each lane comes back
clamped, so exactly the vectors in range come back whole; for the unsigned one each lane comes back reduced. -/
def Obligations.LanePackingRoundTrips : Prop :=
  (InverseShapes .packInt2x8 .unpackInt2x8 .x2 8 ∧ InverseShapes .packUint2x8 .unpackUint2x8 .x2 8) ∧
  (InverseShapes .packInt4x8 .unpackInt4x8 .x4 8 ∧ InverseShapes .packUint4x8 .unpackUint4x8 .x4 8) ∧
  (InverseShapes .packInt2x16 .unpackInt2x16 .x2 16 ∧ InverseShapes .packUint2x16 .unpackUint2x16 .x2 16) ∧
  (InverseShapes .packInt4x16 .unpackInt4x16 .x4 16 ∧ InverseShapes .packUint4x16 .unpackUint4x16 .x4 16) ∧
  (InverseShapes .packInt2x32 .unpackInt2x32 .x2 32 ∧ InverseShapes .packUint2x32 .unpackUint2x32 .x2 32) ∧
  (∀ s : State, ∃ y, pipe .packI3x10_1x2 .unpackI3x10_1x2 s = some y ∧
    (∀ k : Fin 4, (lane 32 y k).toInt =
      if k.val = 3 then max (-2) (min (lane 32 s.a k).toInt 1) else max (-512) (min (lane 32 s.a k).toInt 511)) ∧
    ((∀ k : Fin 4, lane 32 y k = lane 32 s.a k) ↔
      (∀ k : Fin 4, k.val < 3 → -512 ≤ (lane 32 s.a k).toInt ∧ (lane 32 s.a k).toInt ≤ 511) ∧
        -2 ≤ (lane 32 s.a 3).toInt ∧ (lane 32 s.a 3).toInt ≤ 1)) ∧
  (∀ s : State, ∃ y, pipe .packU3x10_1x2 .unpackU3x10_1x2 s = some y ∧
    ∀ k : Fin 4, (slot y k).toNat = (slot s.a k).toNat % (if k.val = 3 then 4 else 1024)) ∧
  Gives .packI3x10_1x2 [0, 0, 0, 0] [0] ∧ Gives .unpackI3x10_1x2 [0] [0, 0, 0, 0] ∧
  Gives .packI3x10_1x2 [511, -512, 511, 1] [0x5FF801FF]

/-! ## Half-Float Vector unit -/

/-- R200: `packHalf` is `floatToHalfBits` on each of its lanes, each result in its lane's own slot. -/
def Obligations.PackHalfIsScalarPerLane : Prop :=
  decode 0x0020 = .ok (.packHalf .x2) ∧ decode 0x0120 = .ok (.packHalf .x4) ∧
  (∀ (n : LaneCount) (s : State), ∃ t, exec (.packHalf n) s = .next t ∧ Frame s t ∧ ZeroFrom t.y n.count ∧
    ∀ k : Fin 4, k.val < n.count →
      ∃ u, exec .floatToHalfBits (s.present 0x0003 (busOfList [slot s.a k])) = .next u ∧ slot t.y k = slot u.y 0) ∧
  Gives (.packHalf .x4) [0x3F800000, 0x3F000000, 0xC0000000, 0x3DCCCCCD] [0x3C00, 0x3800, 0xC000, 0x2E66]

/-- R201: `unpackHalf` is `halfBitsToFloat` on each of its lanes. -/
def Obligations.UnpackHalfIsScalarPerLane : Prop :=
  decode 0x0021 = .ok (.unpackHalf .x2) ∧ decode 0x0121 = .ok (.unpackHalf .x4) ∧
  (∀ (n : LaneCount) (s : State), ∃ t, exec (.unpackHalf n) s = .next t ∧ Frame s t ∧ ZeroFrom t.y n.count ∧
    ∀ k : Fin 4, k.val < n.count →
      ∃ u, exec .halfBitsToFloat (s.present 0x0002 (busOfList [slot s.a k])) = .next u ∧ slot t.y k = slot u.y 0) ∧
  Gives (.unpackHalf .x2) [0x2E66, 0x7C00] [0x3DCCC000, 0x7F800000]

/-- The laws of the half-float vectors (R202): packing unpacked patterns gives them back, NaNs among them; and a non-NaN lane
survives packing and unpacking exactly when it is a binary16 value. That the second law is said of non-NaN lanes alone is a
reading of the rule: log entry 12. -/
def Obligations.HalfVectorRoundTrips : Prop :=
  (∀ (n : LaneCount) (s : State), ∃ y, pipe (.unpackHalf n) (.packHalf n) s = some y ∧
    ∀ k : Fin 4, k.val < n.count → slot y k = (lane 16 s.a k).setWidth 64) ∧
  (∀ (n : LaneCount) (s : State), ∃ y, pipe (.packHalf n) (.unpackHalf n) s = some y ∧
    ∀ k : Fin 4, k.val < n.count → isNaN .binary32 (lane 32 s.a k) = false →
      (lane 32 y k = lane 32 s.a k ↔ ∃ h : BitVec 16, decodeF .binary16 h = decodeF .binary32 (lane 32 s.a k)))

/-! ## The ports after an evaluation -/

/-- The ports after an evaluation (R26, R30): the inputs stand, ILL is 1 exactly when the word is reserved, a result is Y beside
ILL = 0 and there is none beside ILL = 1, evaluating again changes nothing, and what the ports showed before leaves no trace.
That Y beside ILL = 1 is one function of CMD and A is the model's choice (log entry 14). -/
def Obligations.PortsAfterEvaluation : Prop :=
  ∀ (s s' : State) (c : CmdWord) (a : Bus),
    let t := (evaluate s c a).1
    t.cmd = c ∧ t.a = a ∧ (t.ill = true ↔ WellFormed.reserved c = true) ∧
    (WellFormed.reserved c = true → (evaluate s c a).2 = none) ∧
    (WellFormed.reserved c = false → (evaluate s c a).2 = some t.y) ∧
    t.evaluated = t ∧ (evaluate s' c a).1 = t
end

