-- ==== Sys2Proof/Laws/State.lean ====
section
/-! SUPPORT. What each update of the ports does to each of them, so that no proof unfolds a record update. -/

namespace Sys2Proof.Machine

@[simp] theorem State.present_cmd (s : State) (c : CmdWord) (a : Bus) : (s.present c a).cmd = c := rfl
@[simp] theorem State.present_a (s : State) (c : CmdWord) (a : Bus) : (s.present c a).a = a := rfl
@[simp] theorem State.present_y (s : State) (c : CmdWord) (a : Bus) : (s.present c a).y = s.y := rfl
@[simp] theorem State.present_ill (s : State) (c : CmdWord) (a : Bus) : (s.present c a).ill = s.ill := rfl

@[simp] theorem State.settle_cmd (s : State) (y : Bus) : (s.settle y).cmd = s.cmd := rfl
@[simp] theorem State.settle_a (s : State) (y : Bus) : (s.settle y).a = s.a := rfl
@[simp] theorem State.settle_y (s : State) (y : Bus) : (s.settle y).y = y := rfl
@[simp] theorem State.settle_ill (s : State) (y : Bus) : (s.settle y).ill = false := rfl

@[simp] theorem State.refuse_cmd (s : State) : s.refuse.cmd = s.cmd := rfl
@[simp] theorem State.refuse_a (s : State) : s.refuse.a = s.a := rfl
@[simp] theorem State.refuse_y (s : State) : s.refuse.y = Config.refusedY s.cmd s.a := rfl
@[simp] theorem State.refuse_ill (s : State) : s.refuse.ill = true := rfl

@[simp] theorem State.withFetchWord_cmd (s : State) (nbits w : Nat) :
    (s.withFetchWord nbits w).cmd = BitVec.ofNat 16 (w % 2 ^ nbits) := rfl
@[simp] theorem State.withFetchWord_a (s : State) (nbits w : Nat) : (s.withFetchWord nbits w).a = s.a := rfl
@[simp] theorem State.withFetchWord_y (s : State) (nbits w : Nat) : (s.withFetchWord nbits w).y = s.y := rfl
@[simp] theorem State.withFetchWord_ill (s : State) (nbits w : Nat) : (s.withFetchWord nbits w).ill = s.ill := rfl

/-- A later result replaces an earlier one. -/
@[simp] theorem State.settle_settle (s : State) (y z : Bus) : (s.settle y).settle z = s.settle z := rfl

/-- The inputs a state holds decide its settled form: earlier outputs leave no trace. -/
theorem State.settle_congr {s t : State} (hc : s.cmd = t.cmd) (ha : s.a = t.a) (y : Bus) : s.settle y = t.settle y := by
  cases s
  cases t
  simp_all [State.settle]

/-- The same of the ports after a refusal. -/
theorem State.refuse_congr {s t : State} (hc : s.cmd = t.cmd) (ha : s.a = t.a) : s.refuse = t.refuse := by
  cases s
  cases t
  simp_all [State.refuse]

end Sys2Proof.Machine
end

