-- ==== Sys2Proof/Laws/Ops.lean ====
section
/-! SUPPORT. One lemma for each shared operation over the ports, saying what it does slot by slot. -/

namespace Sys2Proof.Machine

/-- Slot i of the bus made of the slots `f` is `f i`. -/
@[simp] theorem slot_busOfSlots (f : Fin 4 → Slot) (i : Fin 4) : slot (busOfSlots f) i = f i := by
  have h : ∀ a b c d : Slot, (a ++ b ++ c ++ d : BitVec 256).extractLsb' 0 64 = d ∧
      (a ++ b ++ c ++ d : BitVec 256).extractLsb' 64 64 = c ∧ (a ++ b ++ c ++ d : BitVec 256).extractLsb' 128 64 = b ∧
      (a ++ b ++ c ++ d : BitVec 256).extractLsb' 192 64 = a := by
    intro a b c d
    refine ⟨?_, ?_, ?_, ?_⟩ <;>
    · ext j hj
      simp only [BitVec.getElem_extractLsb', BitVec.getLsbD_append]
      grind
  obtain ⟨h0, h1, h2, h3⟩ := h (f 3) (f 2) (f 1) (f 0)
  fin_cases i
  · exact h0
  · exact h1
  · exact h2
  · exact h3

/-- Two buses with the same four slots are equal. -/
theorem bus_ext {b c : Bus} (h : ∀ i, slot b i = slot c i) : b = c := by
  apply BitVec.eq_of_getLsbD_eq
  intro j hj
  have hi := congrArg (fun v : Slot => v.getLsbD (j % 64)) (h ⟨j / 64, by omega⟩)
  have e : 64 * (j / 64) + j % 64 = j := by omega
  simpa [slot, BitVec.getLsbD_extractLsb', Nat.mod_lt, e] using hi

@[simp] theorem slot_busOfList (l : List Slot) (i : Fin 4) : slot (busOfList l) i = l.getD i.val 0 := by
  simp [busOfList]

@[simp] theorem slot_busOfScalar (v : Slot) (i : Fin 4) : slot (busOfScalar v) i = if i.val = 0 then v else 0 := by
  simp [busOfScalar]

@[simp] theorem slot_busOfLanes {w : Nat} (n : LaneCount) (f : Fin 4 → BitVec w) (i : Fin 4) :
    slot (busOfLanes n f) i = if i.val < n.count then (f i).setWidth 64 else 0 := by
  simp [busOfLanes]

/-- A lane of a vector result, at its own width. -/
theorem lane_busOfLanes {w : Nat} (n : LaneCount) (f : Fin 4 → BitVec w) (i : Fin 4) (hw : w ≤ 64) (hi : i.val < n.count) :
    lane w (busOfLanes n f) i = f i := by
  simp [lane, hi, hw]

/-- The number a lane holds is its slot's low bits. -/
theorem toNat_lane (w : Nat) (b : Bus) (i : Fin 4) : (lane w b i).toNat = (slot b i).toNat % 2 ^ w := by
  simp [lane]

/-- `deliver` answers one next state: the inputs stand, Y is the result and ILL is 0. -/
theorem deliver_eq_next {s t : State} {y : Bus} : deliver s y = .next t ↔ t = s.settle y := by
  simp [deliver, eq_comm]

/-- `deliver` neither faults nor refuses. -/
theorem deliver_ne_refused {s : State} {y : Bus} {r : Refusal} : deliver s y ≠ .refused r := by
  simp [deliver]

/-- `refuseIllegal` answers no next state. -/
theorem refuseIllegal_ne_next {t : State} : refuseIllegal ≠ .next t := by
  simp [refuseIllegal]

end Sys2Proof.Machine
end

