-- ==== Sys2Proof/Laws/Exec.lean ====
section
/-! SUPPORT. What `exec` and `step` can do, said once: every instruction delivers a result that is a function of the operand
bus, and a step either does that or refuses. -/

namespace Sys2Proof.Machine

/-- The result bus of an instruction on an operand bus, read off its meaning. -/
def resultBus (i : Instr) (a : Bus) : Bus :=
  match exec i (State.reset.present 0 a) with
  | .next t => t.y
  | _ => 0

/-- Every instruction delivers its result bus, on every state. -/
theorem exec_eq_deliver (i : Instr) (s : State) : exec i s = deliver s (resultBus i s.a) := by
  cases i <;> rfl

/-- What an instruction's next state is: its settled result, and nothing else. -/
theorem exec_cases {i : Instr} {s t : State} (h : exec i s = .next t) : t = s.settle (resultBus i s.a) := by
  rw [exec_eq_deliver] at h
  exact deliver_eq_next.mp h

/-- A next state of `step` is the settled result of the decoded instruction. -/
theorem step_cases {s t : State} (h : step s = .next t) :
    ∃ i, decode s.cmd = .ok i ∧ t = s.settle (resultBus i s.a) := by
  unfold step at h
  split at h
  · next i hi => exact ⟨i, hi, exec_cases h⟩
  · exact absurd h refuseIllegal_ne_next

/-- A refusal of `step` is the refusal of a word the decoder rejects. -/
theorem step_refused_cases {s : State} {r : Refusal} (h : step s = .refused r) :
    (∃ e, decode s.cmd = .error e) ∧ r = .illegalCommand := by
  unfold step at h
  split at h
  · next i _ =>
    rw [exec_eq_deliver] at h
    exact absurd h deliver_ne_refused
  · next e he =>
    refine ⟨⟨e, he⟩, ?_⟩
    simpa [refuseIllegal, eq_comm] using h

end Sys2Proof.Machine
end

