-- ==== Sys2Proof/Laws/Float.lean ====
section
/-! SUPPORT. The exact rational operations are the field operations, and the two searches of the rounding algorithm find what
R17 asks for. -/

namespace Sys2Proof.Machine

@[simp] theorem mulPow2_eq (a : Rat) (k : Int) : mulPow2 a k = a * (2 : Rat) ^ k := by
  unfold mulPow2
  split
  · next h => simp [Rat.num_eq_zero.mp h]
  · split
    · next n =>
      rw [Rat.mkRat_eq_div]
      push_cast
      rw [mul_div_right_comm, Rat.num_div_den]
      simp
    · next n =>
      rw [Rat.mkRat_eq_div]
      push_cast
      rw [← div_div, Rat.num_div_den, zpow_negSucc, div_eq_mul_inv]

@[simp] theorem mulExact_eq (a b : Rat) : mulExact a b = a * b := (Rat.mul_eq_mkRat a b).symm

@[simp] theorem divExact_eq (a b : Rat) : divExact a b = a / b := by
  unfold divExact
  rcases lt_trichotomy b 0 with hb | rfl | hb
  · have hn := Rat.num_neg.mpr hb
    have habs : ((b.num.natAbs : Nat) : Rat) = -(b.num : Rat) := by
      rw [Nat.cast_natAbs, abs_of_neg hn, Int.cast_neg]
    conv_rhs => rw [← Rat.num_div_den a, ← Rat.num_div_den b]
    rw [Rat.mkRat_eq_div, Int.sign_eq_neg_one_of_neg hn]
    push_cast
    rw [habs, div_div_div_eq, mul_neg, mul_neg, mul_one, neg_div_neg_eq]
  · simp
  · have hn := Rat.num_pos.mpr hb
    have habs : ((b.num.natAbs : Nat) : Rat) = (b.num : Rat) := by rw [Nat.cast_natAbs, abs_of_pos hn]
    conv_rhs => rw [← Rat.num_div_den a, ← Rat.num_div_den b]
    rw [Rat.mkRat_eq_div, Int.sign_eq_one_of_pos hn]
    push_cast
    rw [habs, div_div_div_eq, mul_one]

@[simp] theorem absExact_eq (r : Rat) : absExact r = |r| := by
  rw [absExact, Rat.mkRat_eq_div, Rat.abs_def, Rat.divInt_eq_div]
  norm_cast

@[simp] theorem fractExact_eq (q : Rat) : fractExact q = Int.fract q := by
  have hd : (q.den : Rat) ≠ 0 := by exact_mod_cast q.den_nz
  have hf : ⌊q⌋ = q.num / (q.den : Int) := Rat.floor_def'
  rw [fractExact, Rat.mkRat_eq_div, Int.fract, hf, Int.emod_def]
  push_cast
  rw [sub_div, Rat.num_div_den, mul_div_cancel_left₀ _ hd]

/-- `roundAway` is the rule's own formula (R18). -/
theorem roundAway_eq (r : Rat) : roundAway r = r.num.sign * ⌊|r| + 1 / 2⌋ := by
  have hd : (r.den : Rat) ≠ 0 := by exact_mod_cast r.den_nz
  have e : |r| + 1 / 2 = ((2 * r.num.natAbs + r.den : Nat) : Int) / ((2 * r.den : Nat) : Rat) := by
    rw [← absExact_eq, absExact, Rat.mkRat_eq_div]
    push_cast
    field_simp
  rw [roundAway, e, Rat.floor_intCast_div_natCast]
  push_cast
  rfl

/-- `floorLog2` finds the exponent of a positive rational (R17). -/
theorem floorLog2_spec {a : Rat} (ha : 0 < a) : (2 : Rat) ^ floorLog2 a ≤ a ∧ a < (2 : Rat) ^ (floorLog2 a + 1) := by
  have hn : a.num.natAbs ≠ 0 := Int.natAbs_ne_zero.mpr (Rat.num_pos.mpr ha).ne'
  have hnum : ((a.num.natAbs : Nat) : Rat) = a.num := by
    rw [Nat.cast_natAbs, abs_of_pos (Rat.num_pos.mpr ha)]
  have hd0 : (0 : Rat) < a.den := by exact_mod_cast a.den_pos
  have hval : a * a.den = (a.num.natAbs : Nat) := by rw [hnum, Rat.mul_den_eq_num]
  have n1 : (2 : Rat) ^ a.num.natAbs.log2 ≤ (a.num.natAbs : Nat) := by exact_mod_cast Nat.log2_self_le hn
  have n2 : ((a.num.natAbs : Nat) : Rat) < 2 ^ (a.num.natAbs.log2 + 1) := by exact_mod_cast Nat.lt_log2_self
  have d1 : (2 : Rat) ^ a.den.log2 ≤ a.den := by exact_mod_cast Nat.log2_self_le a.den_nz
  have d2 : (a.den : Rat) < 2 ^ (a.den.log2 + 1) := by exact_mod_cast Nat.lt_log2_self
  have two : (2 : Rat) ≠ 0 := two_ne_zero
  have up : a < (2 : Rat) ^ ((a.num.natAbs.log2 : Int) - a.den.log2 + 1) := by
    rw [show (a.num.natAbs.log2 : Int) - a.den.log2 + 1 = ((a.num.natAbs.log2 + 1 : Nat) : Int) - (a.den.log2 : Nat) by
      push_cast; ring, zpow_sub₀ two, zpow_natCast, zpow_natCast, lt_div_iff₀ (by positivity)]
    nlinarith
  have lo : (2 : Rat) ^ ((a.num.natAbs.log2 : Int) - a.den.log2 - 1) ≤ a := by
    rw [show (a.num.natAbs.log2 : Int) - a.den.log2 - 1 = (a.num.natAbs.log2 : Nat) - ((a.den.log2 + 1 : Nat) : Int) by
      push_cast; ring, zpow_sub₀ two, zpow_natCast, zpow_natCast, div_le_iff₀ (by positivity)]
    nlinarith
  simp only [floorLog2, mulPow2_eq, one_mul]
  split
  · next h => exact ⟨h, up⟩
  · next h => exact ⟨lo, by rw [sub_add_cancel]; exact lt_of_not_ge h⟩

/-- `roundHalfEven` answers a nearest integer, and the even one at a midpoint (R17). -/
theorem roundHalfEven_spec {q : Rat} (hq : 0 ≤ q) :
    |(roundHalfEven q : Rat) - q| ≤ 1 / 2 ∧ (|(roundHalfEven q : Rat) - q| = 1 / 2 → roundHalfEven q % 2 = 0) := by
  have hfl : ((q.floor.toNat : Nat) : Rat) = (⌊q⌋ : Int) := by
    exact_mod_cast Int.toNat_of_nonneg (Int.floor_nonneg.mpr hq)
  have hfr : Int.fract q = q - (⌊q⌋ : Int) := rfl
  have h0 := Int.fract_nonneg q
  have h1 := Int.fract_lt_one q
  have half : mkRat 1 2 = 1 / 2 := by norm_num [Rat.mkRat_eq_div]
  simp only [roundHalfEven, fractExact_eq, half]
  split
  · next h =>
    push_cast
    rw [hfl]
    have hge : 1 / 2 ≤ Int.fract q := by
      rcases h with h | h
      · exact h.le
      · exact h.1.ge
    rw [show ((⌊q⌋ : Int) : Rat) + 1 - q = 1 - Int.fract q by rw [hfr]; ring, abs_of_pos (by linarith)]
    refine ⟨by linarith, fun e => ?_⟩
    rcases h with h | h
    · linarith
    · omega
  · next h =>
    rw [hfl, show ((⌊q⌋ : Int) : Rat) - q = -Int.fract q by rw [hfr]; ring, abs_neg, abs_of_nonneg h0]
    push Not at h
    refine ⟨h.1, fun e => ?_⟩
    have := h.2 e
    omega

/-- The three fields of a packed pattern. -/
@[simp] theorem signBit_packFields (F : FloatFmt) (s : BitVec 1) (e : BitVec F.expBits) (t : BitVec F.fracBits) :
    signBit F (packFields F s e t) = s := by
  cases F <;>
  · simp only [signBit, packFields]
    ext i hi
    simp only [BitVec.getElem_extractLsb', BitVec.getLsbD_setWidth, BitVec.getLsbD_append]
    grind

@[simp] theorem expField_packFields (F : FloatFmt) (s : BitVec 1) (e : BitVec F.expBits) (t : BitVec F.fracBits) :
    expField F (packFields F s e t) = e := by
  cases F <;>
  · simp only [expField, packFields]
    ext i hi
    simp only [BitVec.getElem_extractLsb', BitVec.getLsbD_setWidth, BitVec.getLsbD_append]
    grind

@[simp] theorem fracField_packFields (F : FloatFmt) (s : BitVec 1) (e : BitVec F.expBits) (t : BitVec F.fracBits) :
    fracField F (packFields F s e t) = t := by
  cases F <;>
  · simp only [fracField, packFields]
    ext i hi
    simp only [BitVec.getElem_extractLsb', BitVec.getLsbD_setWidth, BitVec.getLsbD_append]
    grind

/-- The value of a pattern, in the field operations (R16). -/
theorem decodeF_eq (F : FloatFmt) (b : BitVec F.width) :
    decodeF F b =
      if (expField F b).toNat = 2 ^ F.expBits - 1 then
        if (fracField F b).toNat = 0 then .inf (decide ((signBit F b).toNat = 1)) else .nan
      else .finite ((if (signBit F b).toNat = 1 then -1 else 1) *
        (if (expField F b).toNat = 0 then ((fracField F b).toNat : Rat) else 2 ^ F.fracBits + (fracField F b).toNat) *
        (2 : Rat) ^ ((if (expField F b).toNat = 0 then 1 else ((expField F b).toNat : Int)) - F.bias - F.fracBits)) := by
  unfold decodeF
  simp only [mulPow2_eq]
  split_ifs <;> first | rfl | (push_cast; ring_nf)


/-- A sign bit is 1 as a number exactly when it is the bit 1. -/
theorem signBit_toNat_eq_one {s : BitVec 1} : s.toNat = 1 ↔ s = 1#1 := by
  constructor
  · intro h
    exact BitVec.eq_of_toNat_eq h
  · rintro rfl
    rfl

/-- The value of an assembled pattern whose exponent is in range (R17). -/
theorem decodeF_assembleFloat {F : FloatFmt} {s : BitVec 1} {n : Nat} {ex : Int} (hlo : 1 - (F.bias : Int) ≤ ex)
    (hhi : ex ≤ F.bias) (hn : n < 2 ^ (F.fracBits + 1)) (hsub : n < 2 ^ F.fracBits → ex = 1 - F.bias) :
    decodeF F (assembleFloat F s n ex) =
      .finite ((if s = 1 then -1 else 1) * (n : Rat) * (2 : Rat) ^ (ex - F.fracBits)) := by
  have hE : 2 * F.bias + 2 = 2 ^ F.expBits := by cases F <;> rfl
  have hb : 1 ≤ F.bias := by cases F <;> decide
  unfold assembleFloat
  rw [if_neg (by omega)]
  split
  · next h =>
    rw [decodeF_eq, hsub h]
    simp only [expField_packFields, fracField_packFields, signBit_packFields, BitVec.toNat_ofNat,
      signBit_toNat_eq_one, Nat.mod_eq_of_lt h]
    rw [if_neg (by simp; omega)]
    simp
  · next h =>
    have he : (BitVec.ofInt F.expBits (ex + F.bias)).toNat = (ex + F.bias).toNat := by
      rw [BitVec.toNat_ofInt, ← hE, Int.emod_eq_of_lt (by omega) (by push_cast; omega)]
    have ht : n - 2 ^ F.fracBits < 2 ^ F.fracBits := by
      rw [pow_succ] at hn
      omega
    rw [decodeF_eq]
    simp only [expField_packFields, fracField_packFields, signBit_packFields, he, BitVec.toNat_ofNat,
      signBit_toNat_eq_one, Nat.mod_eq_of_lt ht]
    have hz : ¬ (ex + F.bias).toNat = 0 := by omega
    rw [if_neg (show ¬ (ex + F.bias).toNat = 2 ^ F.expBits - 1 by omega)]
    simp only [if_neg hz]
    have h1 : ((2 : Rat) ^ F.fracBits + ((n - 2 ^ F.fracBits : Nat) : Rat)) = n := by
      rw [Nat.cast_sub (by omega)]
      push_cast
      ring
    have h2 : (((ex + F.bias).toNat : Nat) : Int) - F.bias - F.fracBits = ex - F.fracBits := by omega
    rw [h1, h2]
    rfl

/-- Rounding does not cross an integer from below. -/
theorem roundHalfEven_le {q : Rat} {m : Nat} (hq : 0 ≤ q) (h : q ≤ m) : roundHalfEven q ≤ m := by
  have h1 := (abs_le.mp (roundHalfEven_spec hq).1).2
  have : (roundHalfEven q : Rat) < (m : Rat) + 1 := by linarith
  exact_mod_cast Nat.lt_succ_iff.mp (by exact_mod_cast this)

/-- Rounding does not cross an integer from above. -/
theorem le_roundHalfEven {q : Rat} {m : Nat} (hq : 0 ≤ q) (h : (m : Rat) ≤ q) : m ≤ roundHalfEven q := by
  have h1 := (abs_le.mp (roundHalfEven_spec hq).1).1
  have : (m : Rat) < (roundHalfEven q : Rat) + 1 := by linarith
  exact_mod_cast Nat.lt_succ_iff.mp (by exact_mod_cast this)

/-- The exponent the rounding algorithm works at (R17). -/
def rneExp (F : FloatFmt) (r : Rat) : Int := max (floorLog2 |r|) (1 - F.bias)

/-- The significand the rounding algorithm finds (R17). -/
def rneSig (F : FloatFmt) (r : Rat) : Nat := roundHalfEven (|r| * (2 : Rat) ^ ((F.fracBits : Int) - rneExp F r))

/-- The significand fits: at most 2^(T+1), and at least 2^T unless the exponent is the least one. -/
theorem rneSig_bounds (F : FloatFmt) {r : Rat} (hr : r ≠ 0) :
    rneSig F r ≤ 2 ^ (F.fracBits + 1) ∧ (rneSig F r < 2 ^ F.fracBits → rneExp F r = 1 - F.bias) := by
  have ha : 0 < |r| := abs_pos.mpr hr
  obtain ⟨hl, hu⟩ := floorLog2_spec ha
  have hq : 0 ≤ |r| * (2 : Rat) ^ ((F.fracBits : Int) - rneExp F r) := by positivity
  have hpos : (0 : Rat) < (2 : Rat) ^ ((F.fracBits : Int) - rneExp F r) := by positivity
  constructor
  · apply roundHalfEven_le hq
    have hle : (2 : Rat) ^ (floorLog2 |r| + 1) ≤ (2 : Rat) ^ (rneExp F r + 1) :=
      zpow_le_zpow_right₀ (by norm_num) (by simp [rneExp])
    refine le_of_lt ?_
    calc |r| * (2 : Rat) ^ ((F.fracBits : Int) - rneExp F r)
        < (2 : Rat) ^ (rneExp F r + 1) * (2 : Rat) ^ ((F.fracBits : Int) - rneExp F r) :=
          mul_lt_mul_of_pos_right (lt_of_lt_of_le hu hle) hpos
      _ = ((2 ^ (F.fracBits + 1) : Nat) : Rat) := by
          rw [← zpow_add₀ two_ne_zero, show rneExp F r + 1 + ((F.fracBits : Int) - rneExp F r) = ((F.fracBits + 1 : Nat) : Int) by
            push_cast; ring, zpow_natCast]
          push_cast
          rfl
  · intro h
    by_contra hne
    have hex : rneExp F r = floorLog2 |r| := by
      unfold rneExp at hne ⊢
      omega
    refine absurd (le_roundHalfEven (m := 2 ^ F.fracBits) hq ?_) (by simpa [rneSig] using h)
    calc ((2 ^ F.fracBits : Nat) : Rat)
        = (2 : Rat) ^ (rneExp F r) * (2 : Rat) ^ ((F.fracBits : Int) - rneExp F r) := by
          rw [← zpow_add₀ two_ne_zero, show rneExp F r + ((F.fracBits : Int) - rneExp F r) = ((F.fracBits : Nat) : Int) by ring,
            zpow_natCast]
          push_cast
          rfl
      _ ≤ _ := by
          rw [hex]
          exact mul_le_mul_of_nonneg_right hl (by positivity)

/-- The value of a rounded rational that does not overflow: its sign, and its rounded significand at its exponent (R17). -/
theorem decodeF_rne {F : FloatFmt} {r : Rat} (s0 : BitVec 1) (hr : r ≠ 0)
    (hb : (rneSig F r : Rat) * (2 : Rat) ^ (rneExp F r - F.fracBits) < (2 : Rat) ^ (F.bias + 1)) :
    decodeF F (rne F r s0) =
      .finite ((if r < 0 then -1 else 1) * (rneSig F r : Rat) * (2 : Rat) ^ (rneExp F r - F.fracBits)) := by
  obtain ⟨hle, hsub⟩ := rneSig_bounds F hr
  have hlo : 1 - (F.bias : Int) ≤ rneExp F r := le_max_right _ _
  have hs : (BitVec.ofBool (decide (r.num < 0)) = 1) ↔ r < 0 := by
    rw [← Rat.num_neg]
    by_cases h : r.num < 0 <;> simp [h]
  -- the magnitude bound keeps the exponent in range
  have hexp : ∀ m : Nat, ∀ ex : Int, 2 ^ F.fracBits ≤ m →
      (m : Rat) * (2 : Rat) ^ (ex - F.fracBits) < (2 : Rat) ^ (F.bias + 1) → ex ≤ F.bias := by
    intro m ex hm h
    by_contra hgt
    have h1 : ((2 ^ F.fracBits : Nat) : Rat) ≤ m := by exact_mod_cast hm
    have h2 : (2 : Rat) ^ (F.bias + 1) ≤ (2 : Rat) ^ ex := by
      rw [← zpow_natCast]
      exact zpow_le_zpow_right₀ (by norm_num) (by push_cast; omega)
    have h3 : (2 : Rat) ^ ex = ((2 ^ F.fracBits : Nat) : Rat) * (2 : Rat) ^ (ex - F.fracBits) := by
      push_cast
      rw [← zpow_natCast, ← zpow_add₀ two_ne_zero]
      congr 1
      ring
    have h4 : ((2 ^ F.fracBits : Nat) : Rat) * (2 : Rat) ^ (ex - F.fracBits) ≤ m * (2 : Rat) ^ (ex - F.fracBits) :=
      mul_le_mul_of_nonneg_right h1 (by positivity)
    linarith
  have hunf : rne F r s0 =
      if rneSig F r = 2 ^ (F.fracBits + 1) then
        assembleFloat F (BitVec.ofBool (decide (r.num < 0))) (2 ^ F.fracBits) (rneExp F r + 1)
      else assembleFloat F (BitVec.ofBool (decide (r.num < 0))) (rneSig F r) (rneExp F r) := by
    simp only [rne, Rat.num_eq_zero, if_neg hr, absExact_eq, mulPow2_eq]
    rfl
  rw [hunf]
  split
  · next h =>
    have hval : (rneSig F r : Rat) * (2 : Rat) ^ (rneExp F r - F.fracBits) =
        ((2 ^ F.fracBits : Nat) : Rat) * (2 : Rat) ^ (rneExp F r + 1 - F.fracBits) := by
      rw [h, show rneExp F r + 1 - (F.fracBits : Int) = rneExp F r - F.fracBits + 1 by ring, zpow_add_one₀ two_ne_zero]
      push_cast
      ring
    have hhi : rneExp F r + 1 ≤ F.bias := hexp (2 ^ F.fracBits) _ le_rfl (by rw [← hval]; exact hb)
    rw [decodeF_assembleFloat (by omega) hhi (Nat.pow_lt_pow_succ (by norm_num)) (fun h' => absurd h' (lt_irrefl _))]
    simp only [hs, mul_assoc, hval]
  · next h =>
    have hlt : rneSig F r < 2 ^ (F.fracBits + 1) := lt_of_le_of_ne hle h
    have hhi : rneExp F r ≤ F.bias := by
      by_cases hn : rneSig F r < 2 ^ F.fracBits
      · rw [hsub hn]
        have : 1 ≤ F.bias := by cases F <;> decide
        omega
      · exact hexp _ _ (by omega) hb
    rw [decodeF_assembleFloat hlo hhi hlt hsub]
    simp only [hs]

/-- Rounding does not cross a power of two of the format: a magnitude up to 2^k rounds to a finite value up to 2^k. -/
theorem rne_finite {F : FloatFmt} {r : Rat} {k : Int} (s0 : BitVec 1) (hlo : 1 - (F.bias : Int) ≤ k) (hhi : k ≤ F.bias)
    (h : |r| ≤ (2 : Rat) ^ k) : ∃ y, decodeF F (rne F r s0) = .finite y ∧ |y| ≤ (2 : Rat) ^ k := by
  rcases eq_or_ne r 0 with rfl | hr
  · refine ⟨0, ?_, by simp [zpow_nonneg]⟩
    have hE : 0 ≠ 2 ^ F.expBits - 1 := by cases F <;> decide
    simp [rne, decodeF_eq, hE]
  · obtain ⟨hl, _⟩ := floorLog2_spec (abs_pos.mpr hr)
    have hfl : floorLog2 |r| ≤ k := (zpow_le_zpow_iff_right₀ (by norm_num : (1 : Rat) < 2)).mp (hl.trans h)
    have hex : rneExp F r ≤ k := max_le hfl hlo
    obtain ⟨m, hm⟩ : ∃ m : Nat, (m : Int) = k + F.fracBits - rneExp F r := ⟨(k + F.fracBits - rneExp F r).toNat, by omega⟩
    have hq : |r| * (2 : Rat) ^ ((F.fracBits : Int) - rneExp F r) ≤ ((2 ^ m : Nat) : Rat) := by
      push_cast
      rw [← zpow_natCast, hm, show k + (F.fracBits : Int) - rneExp F r = k + (F.fracBits - rneExp F r) by ring,
        zpow_add₀ two_ne_zero]
      exact mul_le_mul_of_nonneg_right h (by positivity)
    have hsig : (rneSig F r : Rat) ≤ ((2 ^ m : Nat) : Rat) := by
      exact_mod_cast roundHalfEven_le (by positivity) hq
    have hmag : (rneSig F r : Rat) * (2 : Rat) ^ (rneExp F r - F.fracBits) ≤ (2 : Rat) ^ k := by
      calc (rneSig F r : Rat) * (2 : Rat) ^ (rneExp F r - F.fracBits)
          ≤ ((2 ^ m : Nat) : Rat) * (2 : Rat) ^ (rneExp F r - F.fracBits) :=
            mul_le_mul_of_nonneg_right hsig (by positivity)
        _ = (2 : Rat) ^ k := by
            push_cast
            rw [← zpow_natCast, hm, ← zpow_add₀ two_ne_zero]
            congr 1
            ring
    have hlt : (2 : Rat) ^ k < (2 : Rat) ^ (F.bias + 1) := by
      rw [← zpow_natCast]
      exact zpow_lt_zpow_right₀ (by norm_num) (by push_cast; omega)
    refine ⟨_, decodeF_rne s0 hr (hmag.trans_lt hlt), ?_⟩
    rw [mul_assoc, abs_mul]
    have h1 : |(if r < 0 then -1 else 1 : Rat)| = 1 := by split <;> simp
    rw [h1, one_mul, abs_of_nonneg (by positivity)]
    exact hmag

end Sys2Proof.Machine
end

