-- ==== Sys2Proof/Laws/LanePacking.lean ====
section
/-! SUPPORT. What the Lane-Packing unit's shared operations compute, as numbers (R150, R171 to R174). -/

namespace Sys2Proof.Machine

/-- A concatenation as a number: the high part weighted by the width of the low one. -/
theorem toNat_append_add {m n : Nat} (x : BitVec m) (y : BitVec n) :
    (x ++ y).toNat = y.toNat + x.toNat * 2 ^ n := by
  rw [BitVec.toNat_append, Nat.shiftLeft_eq, ← Nat.shiftLeft_eq, ← Nat.shiftLeft_add_eq_or_of_lt y.isLt, Nat.shiftLeft_eq]
  omega

/-- A packed integer lies in slot 0 alone (R27, R29). -/
theorem slot_packUniform_above (n : LaneCount) (w : Nat) (a : Bus) {i : Fin 4} (hi : i.val ≠ 0) :
    slot (packUniform n w a) i = 0 := by
  cases n <;> simp [packUniform, hi]

/-- Two packed lanes as a number (R150). -/
theorem toNat_packUniform_x2 {w : Nat} (hw : w + w ≤ 64) (a : Bus) :
    (slot (packUniform .x2 w a) 0).toNat = (lane w a 0).toNat + (lane w a 1).toNat * 2 ^ w := by
  have h := (lane w a 1 ++ lane w a 0).isLt
  have hle : 2 ^ (w + w) ≤ 2 ^ 64 := Nat.pow_le_pow_right (by norm_num) hw
  simp only [packUniform, slot_busOfScalar, Fin.val_zero, if_true, BitVec.toNat_setWidth]
  rw [Nat.mod_eq_of_lt (by omega), toNat_append_add]

/-- Four packed lanes as a number (R150). -/
theorem toNat_packUniform_x4 {w : Nat} (hw : w + w + w + w ≤ 64) (a : Bus) :
    (slot (packUniform .x4 w a) 0).toNat =
      (lane w a 0).toNat + (lane w a 1).toNat * 2 ^ w + (lane w a 2).toNat * 2 ^ (2 * w) +
        (lane w a 3).toNat * 2 ^ (3 * w) := by
  have h := (lane w a 3 ++ lane w a 2 ++ lane w a 1 ++ lane w a 0).isLt
  have hle : 2 ^ (w + w + w + w) ≤ 2 ^ 64 := Nat.pow_le_pow_right (by norm_num) hw
  simp only [packUniform, slot_busOfScalar, Fin.val_zero, if_true, BitVec.toNat_setWidth]
  rw [Nat.mod_eq_of_lt (by omega)]
  simp only [toNat_append_add]
  ring

/-- Lane k of an unpacked integer as a number (R150). -/
theorem toNat_unpackUniform (n : LaneCount) {w : Nat} (hw : n.count * w ≤ 64) (a : Bus) {k : Fin 4}
    (hk : k.val < n.count) :
    (slot (unpackUniform n w a) k).toNat = (slot a 0).toNat / 2 ^ (w * k.val) % 2 ^ w := by
  have hw64 : w ≤ 64 := le_trans (Nat.le_mul_of_pos_left w (by cases n <;> decide)) hw
  have hkw : w * k.val + w ≤ n.count * w := by
    calc w * k.val + w = (k.val + 1) * w := by ring
      _ ≤ n.count * w := Nat.mul_le_mul_right w hk
  have hlt := Nat.mod_lt ((slot a 0).toNat % 2 ^ (n.count * w) / 2 ^ (w * k.val)) (Nat.two_pow_pos w)
  have hle : 2 ^ w ≤ 2 ^ 64 := Nat.pow_le_pow_right (by norm_num) hw64
  simp only [unpackUniform, slot_busOfLanes, if_pos hk, BitVec.toNat_setWidth, BitVec.extractLsb'_toNat, lane,
    Nat.shiftRight_eq_div_pow]
  rw [Nat.mod_eq_of_lt (by omega)]
  have hsplit : 2 ^ (n.count * w) = 2 ^ (w * k.val) * 2 ^ (n.count * w - w * k.val) := by
    rw [← pow_add]
    congr 1
    omega
  rw [hsplit, Nat.mod_mul_right_div_self]
  exact Nat.mod_mod_of_dvd _ (Nat.pow_dvd_pow 2 (by omega))

/-- Slots above the lane count of an unpacked integer are 0 (R29). -/
theorem slot_unpackUniform_above (n : LaneCount) (w : Nat) (a : Bus) {k : Fin 4} (hk : n.count ≤ k.val) :
    slot (unpackUniform n w a) k = 0 := by
  simp [unpackUniform, Nat.not_lt.mpr hk]

/-- Four packed 10-10-10-2 fields as a number (R171, R173). -/
theorem toNat_packFields1010102 (v : (k : Fin 4) → BitVec (fieldWidth k)) :
    (packFields1010102 v).toNat =
      (v 0).toNat + (v 1).toNat * 2 ^ 10 + (v 2).toNat * 2 ^ 20 + (v 3).toNat * 2 ^ 30 := by
  have h0 : (v 0).toNat < 2 ^ 10 := (v 0).isLt
  have h1 : (v 1).toNat < 2 ^ 10 := (v 1).isLt
  have h2 : (v 2).toNat < 2 ^ 10 := (v 2).isLt
  have h3 : (v 3).toNat < 2 ^ 2 := (v 3).isLt
  unfold packFields1010102
  simp only [toNat_append_add, BitVec.toNat_setWidth]
  rw [Nat.mod_eq_of_lt h0, Nat.mod_eq_of_lt h1, Nat.mod_eq_of_lt h2, Nat.mod_eq_of_lt h3]
  ring

/-- A field of a 10-10-10-2 integer as a number (R172, R174). -/
theorem toNat_packedField (P : BitVec 32) (k : Fin 4) :
    (packedField P k).toNat = P.toNat / 2 ^ (10 * k.val) % 2 ^ fieldWidth k := by
  simp [packedField, BitVec.extractLsb'_toNat, Nat.shiftRight_eq_div_pow]

/-- A clamped field is the clamped integer's two's-complement pattern (R171). -/
theorem toNat_clampedField (a : Bus) (k : Fin 4) :
    ((clampedField a k).toNat : Int) =
      clampInt (-2 ^ (fieldWidth k - 1)) (2 ^ (fieldWidth k - 1) - 1) (lane 32 a k).toInt % 2 ^ fieldWidth k := by
  have h : (0 : Int) < 2 ^ fieldWidth k := by positivity
  simp only [clampedField, BitVec.toNat_ofInt]
  push_cast
  rw [Int.toNat_of_nonneg (Int.emod_nonneg _ h.ne')]

end Sys2Proof.Machine
end

