-- ==== Sys2Proof/Laws/Normalized.lean ====
section
/-! SUPPORT. The Normalized unit hands only finite operands to the primitives of R18, so that the value `finiteValue` gives a
pattern that is not finite is never read (log entry 8), and NaNPack stays in its range (R128). -/

namespace Sys2Proof.Machine

/-- What a clamp to bounds within [-1, 1] gives is finite and within [-1, 1], for every pattern but a NaN (R19). -/
theorem clampF_finite {F : FloatFmt} {b : BitVec F.width} {lo hi : Rat} (hlo : |lo| ≤ 1) (hhi : |hi| ≤ 1)
    (hb : decodeF F b ≠ .nan) : ∃ y, decodeF F (clampF F b lo hi) = .finite y ∧ |y| ≤ 1 := by
  have hbias : 1 ≤ F.bias := by cases F <;> decide
  have bound : ∀ r : Rat, |r| ≤ 1 → ∃ y, decodeF F (rne F r 0) = .finite y ∧ |y| ≤ 1 := by
    intro r hr
    simpa using rne_finite (F := F) (k := 0) (r := r) 0 (by omega) (by omega) (by simpa using hr)
  unfold clampF
  split
  · next h => exact absurd h hb
  · exact bound lo hlo
  · exact bound hi hhi
  · next x hx =>
    split
    · exact bound lo hlo
    · split
      · exact bound hi hhi
      · next h1 h2 =>
        refine ⟨x, hx, abs_le.mpr ⟨?_, ?_⟩⟩
        · linarith [(abs_le.mp hlo).1]
        · linarith [(abs_le.mp hhi).2]

/-- An integer of at most 32 bits converts to a finite value of either lane format (R18). -/
theorem toF_finite (f : LaneFloat) {n : Int} (h : |n| ≤ 2 ^ 32) :
    ∃ S, decodeF f.fmt (toF f.fmt n) = .finite S ∧ |S| ≤ (2 : Rat) ^ (32 : Int) := by
  refine rne_finite 0 (by cases f <;> decide) (by cases f <;> decide) ?_
  exact_mod_cast h

/-- The product of a clamped lane and a finite scale is finite (R122, R124). -/
theorem mulF_finite (f : LaneFloat) {c S : BitVec f.fmt.width} {x y : Rat} (hc : decodeF f.fmt c = .finite x)
    (hS : decodeF f.fmt S = .finite y) (hx : |x| ≤ 1) (hy : |y| ≤ (2 : Rat) ^ (32 : Int)) :
    ∃ p, decodeF f.fmt (mulF f.fmt c S) = .finite p ∧ |p| ≤ (2 : Rat) ^ (32 : Int) := by
  have hxy : |x * y| ≤ (2 : Rat) ^ (32 : Int) := by
    rw [abs_mul]
    exact (mul_le_of_le_one_left (abs_nonneg y) hx).trans hy
  simp only [mulF, finiteValue, hc, hS, mulExact_eq]
  exact rne_finite _ (by cases f <;> decide) (by cases f <;> decide) hxy

/-- NaNPack answers in the lane's range, whatever the open function is (R128). -/
theorem nanPack_unorm_bounds (b : LaneBits) (f : LaneFloat) (x : BitVec f.fmt.width) :
    0 ≤ nanPack .unorm b f x ∧ nanPack .unorm b f x ≤ unormMax b := by
  have h : 0 ≤ unormMax b := by cases b <;> decide
  simp only [nanPack, clampInt]
  omega

/-- NaNPack answers in the lane's range, whatever the open function is (R128). -/
theorem nanPack_snorm_bounds (b : LaneBits) (f : LaneFloat) (x : BitVec f.fmt.width) :
    -snormMax b ≤ nanPack .snorm b f x ∧ nanPack .snorm b f x ≤ snormMax b := by
  have h : 0 ≤ snormMax b := by cases b <;> decide
  simp only [nanPack, clampInt]
  omega

end Sys2Proof.Machine
end

