-- ==== Sys2Proof/Laws/PerInstr.lean ====
section
/-! SUPPORT. Statements for all instructions, proved one constructor at a time. -/

/-- The encoder's word of an instruction has RSV = 0, passes the legality check of R66, and is not reserved (R65). -/
def Sys2Proof.Laws.EncodingIsLegal.Statement (i : Sys2Proof.Instr) : Prop :=
  Sys2Proof.rsvField (Sys2Proof.encode i) = 0 ∧ Sys2Proof.WellFormed.legal (Sys2Proof.encode i) = true ∧
    Sys2Proof.WellFormed.reserved (Sys2Proof.encode i) = false

namespace Sys2Proof.Laws.EncodingIsLegal

theorem floatToBits : Statement .floatToBits := ⟨rfl, rfl, rfl⟩

theorem bitsToFloat : Statement .bitsToFloat := ⟨rfl, rfl, rfl⟩

theorem halfBitsToFloat : Statement .halfBitsToFloat := ⟨rfl, rfl, rfl⟩

theorem floatToHalfBits : Statement .floatToHalfBits := ⟨rfl, rfl, rfl⟩

theorem packUnorm (b : LaneBits) (n : LaneCount) (f : LaneFloat) : Statement (.packUnorm b n f) := by
  cases b <;> cases n <;> cases f <;> exact ⟨rfl, rfl, rfl⟩

theorem unpackUnorm (b : LaneBits) (n : LaneCount) (f : LaneFloat) : Statement (.unpackUnorm b n f) := by
  cases b <;> cases n <;> cases f <;> exact ⟨rfl, rfl, rfl⟩

theorem packSnorm (b : LaneBits) (n : LaneCount) (f : LaneFloat) : Statement (.packSnorm b n f) := by
  cases b <;> cases n <;> cases f <;> exact ⟨rfl, rfl, rfl⟩

theorem unpackSnorm (b : LaneBits) (n : LaneCount) (f : LaneFloat) : Statement (.unpackSnorm b n f) := by
  cases b <;> cases n <;> cases f <;> exact ⟨rfl, rfl, rfl⟩

theorem packInt2x8 : Statement .packInt2x8 := ⟨rfl, rfl, rfl⟩

theorem unpackInt2x8 : Statement .unpackInt2x8 := ⟨rfl, rfl, rfl⟩

theorem packUint2x8 : Statement .packUint2x8 := ⟨rfl, rfl, rfl⟩

theorem unpackUint2x8 : Statement .unpackUint2x8 := ⟨rfl, rfl, rfl⟩

theorem packInt4x8 : Statement .packInt4x8 := ⟨rfl, rfl, rfl⟩

theorem unpackInt4x8 : Statement .unpackInt4x8 := ⟨rfl, rfl, rfl⟩

theorem packUint4x8 : Statement .packUint4x8 := ⟨rfl, rfl, rfl⟩

theorem unpackUint4x8 : Statement .unpackUint4x8 := ⟨rfl, rfl, rfl⟩

theorem packInt2x16 : Statement .packInt2x16 := ⟨rfl, rfl, rfl⟩

theorem unpackInt2x16 : Statement .unpackInt2x16 := ⟨rfl, rfl, rfl⟩

theorem packUint2x16 : Statement .packUint2x16 := ⟨rfl, rfl, rfl⟩

theorem unpackUint2x16 : Statement .unpackUint2x16 := ⟨rfl, rfl, rfl⟩

theorem packInt4x16 : Statement .packInt4x16 := ⟨rfl, rfl, rfl⟩

theorem unpackInt4x16 : Statement .unpackInt4x16 := ⟨rfl, rfl, rfl⟩

theorem packUint4x16 : Statement .packUint4x16 := ⟨rfl, rfl, rfl⟩

theorem unpackUint4x16 : Statement .unpackUint4x16 := ⟨rfl, rfl, rfl⟩

theorem packInt2x32 : Statement .packInt2x32 := ⟨rfl, rfl, rfl⟩

theorem unpackInt2x32 : Statement .unpackInt2x32 := ⟨rfl, rfl, rfl⟩

theorem packUint2x32 : Statement .packUint2x32 := ⟨rfl, rfl, rfl⟩

theorem unpackUint2x32 : Statement .unpackUint2x32 := ⟨rfl, rfl, rfl⟩

theorem packI3x10_1x2 : Statement .packI3x10_1x2 := ⟨rfl, rfl, rfl⟩

theorem unpackI3x10_1x2 : Statement .unpackI3x10_1x2 := ⟨rfl, rfl, rfl⟩

theorem packU3x10_1x2 : Statement .packU3x10_1x2 := ⟨rfl, rfl, rfl⟩

theorem unpackU3x10_1x2 : Statement .unpackU3x10_1x2 := ⟨rfl, rfl, rfl⟩

theorem packHalf (n : LaneCount) : Statement (.packHalf n) := by
  cases n <;> exact ⟨rfl, rfl, rfl⟩

theorem unpackHalf (n : LaneCount) : Statement (.unpackHalf n) := by
  cases n <;> exact ⟨rfl, rfl, rfl⟩

end Sys2Proof.Laws.EncodingIsLegal
end

