-- ==== Sys2Proof/Laws/Program.lean ====
section
/-! SUPPORT. What one evaluation does to the ports, said once: the two outcomes of `State.evaluated` and of `evaluate`. -/

namespace Sys2Proof.Machine

/-- A word that decodes leaves its result on Y beside ILL = 0. -/
theorem State.evaluated_of_ok {s : State} {i : Instr} (h : decode s.cmd = .ok i) :
    s.evaluated = s.settle (resultBus i s.a) := by
  simp [State.evaluated, step, h, exec_eq_deliver, deliver]

/-- A word that does not decode leaves ILL = 1. -/
theorem State.evaluated_of_error {s : State} {e : DecodeError} (h : decode s.cmd = .error e) : s.evaluated = s.refuse := by
  simp [State.evaluated, step, h, refuseIllegal]

/-- An evaluation leaves the host's inputs as they are. -/
@[simp] theorem State.evaluated_cmd (s : State) : s.evaluated.cmd = s.cmd := by
  cases h : decode s.cmd with
  | ok i => rw [State.evaluated_of_ok h, State.settle_cmd]
  | error e => rw [State.evaluated_of_error h, State.refuse_cmd]

@[simp] theorem State.evaluated_a (s : State) : s.evaluated.a = s.a := by
  cases h : decode s.cmd with
  | ok i => rw [State.evaluated_of_ok h, State.settle_a]
  | error e => rw [State.evaluated_of_error h, State.refuse_a]

/-- After an evaluation, port ILL is the function of CMD that R26 gives. -/
@[simp] theorem State.evaluated_ill (s : State) : s.evaluated.ill = illOutput s.cmd := by
  cases h : decode s.cmd with
  | ok i => rw [State.evaluated_of_ok h, illOutput, h, State.settle_ill]
  | error e => rw [State.evaluated_of_error h, illOutput, h, State.refuse_ill]

/-- The inputs alone decide the ports after an evaluation. -/
theorem State.evaluated_congr {s t : State} (hc : s.cmd = t.cmd) (ha : s.a = t.a) : s.evaluated = t.evaluated := by
  cases h : decode s.cmd with
  | ok i =>
    rw [State.evaluated_of_ok h, State.evaluated_of_ok (hc ▸ h), ha]
    exact State.settle_congr hc ha _
  | error e =>
    rw [State.evaluated_of_error h, State.evaluated_of_error (hc ▸ h)]
    exact State.refuse_congr hc ha

/-- A command that decodes gives its result. -/
theorem evaluate_of_ok {c : CmdWord} {i : Instr} (h : decode c = .ok i) (s : State) (a : Bus) :
    evaluate s c a = ((s.present c a).settle (resultBus i a), some (resultBus i a)) := by
  have h' : decode (s.present c a).cmd = .ok i := h
  simp [evaluate, State.evaluated_of_ok h']

/-- A command that does not decode gives none. -/
theorem evaluate_of_error {c : CmdWord} {e : DecodeError} (h : decode c = .error e) (s : State) (a : Bus) :
    evaluate s c a = ((s.present c a).refuse, none) := by
  have h' : decode (s.present c a).cmd = .error e := h
  simp [evaluate, State.evaluated_of_error h']

end Sys2Proof.Machine
end

