-- ==== Sys2Proof/Machine/HostMemory.lean ====
section
/-! DEFINITION. The block has no memory and no byte order of its own (R40, R42). How a host lays a result out in its own memory is
the open parameter HOST_BYTE_ORDER, and this is the one place that reads it. -/

namespace Sys2Proof.Machine

/-- The bytes of an integer of `8 * n` bits at rising addresses, in a given byte order (R42). -/
def hostBytes (o : ByteOrder) (n : Nat) (v : Slot) : List (BitVec 8) :=
  let littleFirst := (List.range n).map fun k => v.extractLsb' (8 * k) 8
  match o with
  | .littleEndian => littleFirst
  | .bigEndian => littleFirst.reverse

/-- The bytes a host that follows HOST_BYTE_ORDER stores for the n low bytes of a result slot (R42). -/
def storedBytes (n : Nat) (y : Bus) (i : Fin 4) : List (BitVec 8) := hostBytes Config.hostByteOrder n (slot y i)

end Sys2Proof.Machine
end

