-- ==== Sys2Proof/Tests/Slice0.lean ====
section
/-! SUPPORT. Tests, with expected results from the spec's own tables, and for every statement that has hypotheses a witness that
meets them. -/

namespace Sys2Proof.Tests

open Sys2Proof.Machine
open Sys2Proof.Safety

/-- The result of one command on an operand list, from the model's start. -/
def result (c : CmdWord) (operands : List Slot) : Option Bus := (evaluate State.reset c (busOfList operands)).2

/-- A state with the given command and operand list. -/
def presented (c : CmdWord) (operands : List Slot) : State := State.reset.present c (busOfList operands)

/-! ## Well-formedness: for each check of R65, a word it refuses (V12) -/

theorem test_reserved_op : WellFormed.reservedOp 0x0022 = true ∧ WellFormed.legal 0x0022 = false := by decide
theorem test_reserved_bits : WellFormed.reservedBitsSet 0x8004 = true ∧ WellFormed.legal 0x8004 = false := by decide
theorem test_reserved_width : WellFormed.reservedWidth 0x01C5 = true ∧ WellFormed.legal 0x01C5 = false := by decide
theorem test_unused_field_s : WellFormed.unusedFieldS 0x009C = true ∧ WellFormed.legal 0x009C = false := by decide
theorem test_unused_field_h : WellFormed.unusedFieldH 0x0220 = true ∧ WellFormed.legal 0x0220 = false := by decide
theorem test_legal_word : WellFormed.legal 0x0387 = true ∧ WellFormed.reserved 0x0387 = false := by decide

/-! ## Decoding: words written out from R61 to R63, fields RSV, FT, LN, BW, OP -/

theorem test_decode_bitcast_unit : decode 0b000000_0_0_00_000010#16 = .ok .halfBitsToFloat := by decide
theorem test_decode_normalized_unit : decode 0b000000_1_0_01_000110#16 = .ok (.packSnorm .b16 .x2 .f64) := by decide
theorem test_decode_normalized_unit_x4 : decode 0b000000_0_1_10_000101#16 = .ok (.unpackUnorm .b32 .x4 .f32) := by decide
theorem test_decode_uniform_packing : decode 0b000000_0_0_00_010101#16 = .ok .unpackInt4x16 := by decide
theorem test_decode_ten_bit_packing : decode 0b000000_0_0_00_011110#16 = .ok .packU3x10_1x2 := by decide
theorem test_decode_half_vector_unit : decode 0b000000_0_1_00_100001#16 = .ok (.unpackHalf .x4) := by decide
theorem test_decode_rejects_by_name :
    decode 0x00C4 = .error .reservedWidth ∧ decode 0x0048 = .error .unusedFieldS ∧ decode 0x0060 = .error .unusedFieldH ∧
      decode 0x003F = .error .reservedOp ∧ decode 0xFFFF = .error .reservedBits := by decide
theorem test_decode_table_word :
    decodeTableWord 16 0x0104 = some (.packUnorm .b8 .x4 .f32) ∧ decodeTableWord 16 0x0400 = none := by decide
theorem test_step_runs_table_word :
    step (State.reset.withFetchWord 16 0x0008) = .next (State.reset.withFetchWord 16 0x0008) := rfl
theorem test_step_refuses_reserved_word : step (State.reset.withFetchWord 16 0x0022) = .refused .illegalCommand := rfl

/-! ## One or two evaluations of each instruction (95_test_vectors.md) -/

/-- V1, R28. -/
theorem test_floatToBits_keeps_signaling_nan :
    result 0x0000 [0xFFFFFFFF7F800001] = some (busOfList [0x7F800001]) := by decide

/-- V1. -/
theorem test_bitsToFloat_keeps_quiet_nan :
    result 0x0001 [0x7FC00001] = some (busOfList [0x7FC00001]) := by decide

/-- V2, R28. -/
theorem test_halfBitsToFloat_largest_subnormal :
    result 0x0002 [0xABCD03FF] = some (busOfList [0x387FC000]) := by decide

/-- V2. -/
theorem test_halfBitsToFloat_signaling_nan :
    result 0x0002 [0x7C01] = some (busOfList [0x7F802000]) := by decide

/-- V3. -/
theorem test_floatToHalfBits_tie_at_least_normal :
    result 0x0003 [0x387FE000] = some (busOfList [0x400]) := by decide

/-- V3. -/
theorem test_floatToHalfBits_nan_payload_forced :
    result 0x0003 [0x7F800001] = some (busOfList [0x7C01]) := by decide

/-- V11. -/
theorem test_packUnorm_tie_after_rounding :
    result 0x0004 [0x3C20A0A1] = some (busOfList [3]) := by decide

/-- V4. -/
theorem test_packUnorm_saturates_at_32_bits :
    result 0x0184 [0x3F800000, 0x3F000000, 0x3DCCCCCD, 0x3F7FFFFF] = some (busOfList [0xFFFFFFFF, 0x80000000, 0x199999A0, 0xFFFFFF00]) := by decide

/-- V5. -/
theorem test_unpackUnorm_reads_low_bits :
    result 0x0005 [254, 0xFF01] = some (busOfList [0x3F7EFEFF, 0x3B808081]) := by decide

/-- V5. -/
theorem test_unpackUnorm_binary64 :
    result 0x0285 [0x80000000, 0xFFFFFFFF] = some (busOfList [0x3FE0000000100000, 0x3FF0000000000000]) := by decide

/-- V6. -/
theorem test_packSnorm_infinities_and_zero :
    result 0x0106 [0x7F800000, 0xFF800000, 0x80000000, 0xC0000000] = some (busOfList [0x7F, 0x81, 0x0, 0x81]) := by decide

/-- V11. -/
theorem test_packSnorm_negative_tie_away :
    result 0x0006 [0xBCA14285] = some (busOfList [0xFD]) := by decide

/-- V7. -/
theorem test_unpackSnorm_least_lane_clamps :
    result 0x0107 [0x01, 0x80, 0xFF, 0x40] = some (busOfList [0x3C010204, 0xBF800000, 0xBC010204, 0x3F010204]) := by decide

/-- V7. -/
theorem test_unpackSnorm_binary64 :
    result 0x0207 [0x80, 0x40] = some (busOfList [0xBFF0000000000000, 0x3FE0204081020408]) := by decide

/-- V8. -/
theorem test_packInt2x8 :
    result 0x0008 [0x1234, 0x5678] = some (busOfList [0x7834]) := by decide

/-- V8. -/
theorem test_unpackInt2x8_not_sign_extended :
    result 0x0009 [0x7F80] = some (busOfList [0x80, 0x7F]) := by decide

/-- V8. -/
theorem test_packUint2x8 :
    result 0x000A [255, 0] = some (busOfList [0xFF]) := by decide

/-- V8. -/
theorem test_unpackUint2x8 :
    result 0x000B [0xFFFF1234] = some (busOfList [0x34, 0x12]) := by decide

/-- V8. -/
theorem test_packInt4x8 :
    result 0x000C [-128, -1, 0, 127] = some (busOfList [0x7F00FF80]) := by decide

/-- V8. -/
theorem test_unpackInt4x8 :
    result 0x000D [0x807F00FF] = some (busOfList [0xFF, 0x0, 0x7F, 0x80]) := by decide

/-- V8. -/
theorem test_packUint4x8 :
    result 0x000E [0xDE, 0xAD, 0xBE, 0xEF] = some (busOfList [0xEFBEADDE]) := by decide

/-- V8. -/
theorem test_unpackUint4x8 :
    result 0x000F [0xEFBEADDE] = some (busOfList [0xDE, 0xAD, 0xBE, 0xEF]) := by decide

/-- V8. -/
theorem test_packInt2x16 :
    result 0x0010 [-32768, 32767] = some (busOfList [0x7FFF8000]) := by decide

/-- V8. -/
theorem test_unpackInt2x16 :
    result 0x0011 [0x7FFF8000] = some (busOfList [0x8000, 0x7FFF]) := by decide

/-- V8. -/
theorem test_packUint2x16 :
    result 0x0012 [0xFFFF, 0x0001] = some (busOfList [0x1FFFF]) := by decide

/-- V8. -/
theorem test_unpackUint2x16 :
    result 0x0013 [0x0001FFFF] = some (busOfList [0xFFFF, 0x1]) := by decide

/-- V8. -/
theorem test_packInt4x16 :
    result 0x0014 [-1, 0, -32768, 1] = some (busOfList [0x180000000FFFF]) := by decide

/-- V8. -/
theorem test_unpackInt4x16 :
    result 0x0015 [0x000180000000FFFF] = some (busOfList [0xFFFF, 0x0, 0x8000, 0x1]) := by decide

/-- V8. -/
theorem test_packUint4x16 :
    result 0x0016 [1, 2, 3, 0xFFFF] = some (busOfList [0xFFFF000300020001]) := by decide

/-- V8. -/
theorem test_unpackUint4x16 :
    result 0x0017 [0xFFFF000300020001] = some (busOfList [0x1, 0x2, 0x3, 0xFFFF]) := by decide

/-- V8. -/
theorem test_packInt2x32 :
    result 0x0018 [-2147483648, 2147483647] = some (busOfList [0x7FFFFFFF80000000]) := by decide

/-- V8. -/
theorem test_unpackInt2x32 :
    result 0x0019 [0x7FFFFFFF80000000] = some (busOfList [0x80000000, 0x7FFFFFFF]) := by decide

/-- V8. -/
theorem test_packUint2x32 :
    result 0x001A [0xFFFFFFFF, 0] = some (busOfList [0xFFFFFFFF]) := by decide

/-- V8. -/
theorem test_unpackUint2x32 :
    result 0x001B [0xFFFFFFFF00000001] = some (busOfList [0x1, 0xFFFFFFFF]) := by decide

/-- V9. -/
theorem test_packI3x10_1x2_clamps :
    result 0x001C [600, -600, -1, -3] = some (busOfList [0xBFF801FF]) := by decide

/-- V9. -/
theorem test_packI3x10_1x2_reads_low_32_bits :
    result 0x001C [0x00000000000001FF, 0xFFFFFFFF00000000, 0, 0] = some (busOfList [0x1FF]) := by decide

/-- V9. -/
theorem test_unpackI3x10_1x2_sign_extends :
    result 0x001D [0x80080200] = some (busOfList [0xFFFFFE00, 0xFFFFFE00, 0x0, 0xFFFFFFFE]) := by decide

/-- V9. -/
theorem test_packU3x10_1x2_wraps :
    result 0x001E [0xFFFFFFFF, 1024, 1023, 4] = some (busOfList [0x3FF003FF]) := by decide

/-- V9. -/
theorem test_unpackU3x10_1x2 :
    result 0x001F [0xC05003FF] = some (busOfList [0x3FF, 0x0, 0x5, 0x3]) := by decide

/-- V10. -/
theorem test_packHalf :
    result 0x0120 [0x33000000, 0x33400000, 0x80000000, 0xFF800001] = some (busOfList [0x0, 0x1, 0x8000, 0xFC01]) := by decide

/-- V10. -/
theorem test_unpackHalf :
    result 0x0121 [0x0001, 0x03FF, 0xFC01, 0x7BFF] = some (busOfList [0x33800000, 0x387FC000, 0xFF802000, 0x477FE000]) := by decide

/-! ## The host's side: texts, numbers, a program with a refused word, stored bytes -/

/-- R68, R70. -/
theorem test_asm_text : asm (.packSnorm .b16 .x2 .f64) = "packSnorm.b16.x2.f64" := by decide

/-- R68: -1 is the 64-bit pattern of all ones, and 0.1f32 is 0x3DCCCCCD. -/
theorem test_literals :
    literalBits (.int (-1)) = 0xFFFFFFFFFFFFFFFF ∧ literalBits (.float .f32 false (mkRat 1 10)) = 0x3DCCCCCD ∧
      literalBits (.float .f64 true 1) = 0xBFF0000000000000 := by decide

/-- P4, steps 2 to 4: the refused word leaves no trace. -/
theorem test_program_with_refused_word :
    runProgram State.reset []
      [⟨0x0010, [.lit (.hex 0x8001), .lit (.hex 0x2000)]⟩, ⟨0x00C4, [.result 0 0]⟩, ⟨0x0011, [.result 0 0]⟩] =
      some [some (busOfList [0x20008001]), none, some (busOfList [0x8001, 0x2000])] := by decide

/-- R26, V12: a reserved word shows on port ILL, and a legal word after it takes it back. -/
theorem test_ill_port :
    (evaluate State.reset 0x00C4 1).1.ill = true ∧
      (evaluate (evaluate State.reset 0x00C4 1).1 0x0008 1).1.ill = false := by decide

/-- R41, R42: the byte order is the host's; the integer is not. -/
theorem test_host_bytes :
    hostBytes .littleEndian 4 0xEFBEADDE = [0xDE, 0xAD, 0xBE, 0xEF] ∧
      hostBytes .bigEndian 4 0xEFBEADDE = [0xEF, 0xBE, 0xAD, 0xDE] := by decide

/-! ## Witnesses: states and operands that meet the hypotheses of each statement, clause by clause -/

theorem witness_DecodingFollowsTheFormat :
    ((0x7C00#16).toNat / 2 ^ 10 % 2 ^ 5 = 31 ∧ (0x7C00#16).toNat % 2 ^ 10 = 0) ∧
      ((0x7C01#16).toNat / 2 ^ 10 % 2 ^ 5 = 31 ∧ (0x7C01#16).toNat % 2 ^ 10 ≠ 0) ∧
      (0x03FF#16).toNat / 2 ^ 10 % 2 ^ 5 = 0 ∧
      (0 < (0x0400#16).toNat / 2 ^ 10 % 2 ^ 5 ∧ (0x7BFF#16).toNat / 2 ^ 10 % 2 ^ 5 < 31) ∧
      (decodeF .binary16 0x3C00#16 ≠ .nan ∧ decodeF .binary16 0x3C00#16 ≠ .finite 0) := by decide

theorem witness_RoundingIsNearestEven :
    overflowBound .binary16 = 65520 ∧ |(65519 : Rat)| < overflowBound .binary16 ∧
      decodeF .binary16 0x3C01#16 = .finite (1025 / 1024) ∧
      |(1025 / 1024 : Rat) - 2049 / 2048| = |(1 : Rat) - 2049 / 2048| ∧ (1025 / 1024 : Rat) ≠ 1 := by
  refine ⟨by norm_num [overflowBound], by norm_num [overflowBound], by decide +kernel, by norm_num, by norm_num⟩

theorem witness_PrimitivesRoundOnce :
    decodeF .binary32 0x3F000000#32 = .finite (1 / 2) ∧ decodeF .binary32 0xBF800000#32 = .finite (-1) ∧
      (-1 : Rat) ≠ 0 := by decide +kernel

theorem witness_ClampIsNumeric :
    (0 : Rat) ≤ 1 ∧ decodeF .binary32 0xFF800000#32 = .inf true ∧ decodeF .binary32 0x7F800000#32 = .inf false ∧
      decodeF .binary32 0xBF800000#32 = .finite (-1) ∧ (-1 : Rat) < 0 ∧
      decodeF .binary32 0x40000000#32 = .finite 2 ∧ (1 : Rat) < 2 ∧
      decodeF .binary32 0x80000000#32 = .finite 0 := by decide +kernel

theorem witness_OperationMapIsTheTable :
    decode 0x0286 = .ok (.packSnorm .b32 .x2 .f64) ∧ (⟨"packSnorm", 0xFC3F, 0x0006⟩ : OpcodeRow) ∈ opcodeTable ∧
      (⟨"packSnorm", 0xFC3F, 0x0006⟩ : OpcodeRow).has 0x0286 ∧ (⟨"packSnorm", 0xFC3F, 0x0006⟩ : OpcodeRow).has 0x00C6 ∧
      WellFormed.bwField 0x0286 = 2 ∧ WellFormed.bwField 0x00C6 = 3 ∧
      0x22 ≤ WellFormed.opNumber 0x0022 := by
  refine ⟨by decide, by decide, rfl, rfl, by decide, by decide, by decide⟩

theorem witness_DecodeEncodeAgree : decode 0x0387 = .ok (.unpackSnorm .b32 .x4 .f64) := by decide

theorem witness_ReservedWordsAreRefused :
    0x22 ≤ WellFormed.opNumber 0x0022 ∧ WellFormed.rsvField 0x0400 ≠ 0 ∧
      (WellFormed.isClassV 0x00C4 = true ∧ WellFormed.bwField 0x00C4 = 3) ∧
      (WellFormed.isClassS 0x0108 = true ∧ WellFormed.lnField 0x0108 ≠ 0) ∧
      (WellFormed.isClassH 0x0220 = true ∧ WellFormed.ftField 0x0220 ≠ 0) ∧ WellFormed.reserved 0x0121 = false := by
  decide

theorem witness_CommandTextNamesOneWord : asm .packInt2x8 = asm .packInt2x8 := rfl

theorem witness_EightyLegalWords :
    Instr.unpackU3x10_1x2 ∈ classS ∧ Instr.packUnorm .b32 .x4 .f64 ∈ classV ∧ Instr.unpackHalf .x4 ∈ classH := by decide

theorem witness_StepRunsDecodedInstruction :
    decode (presented 0x000E [1, 2, 3, 4]).cmd = .ok .packUint4x8 := by decide

theorem witness_TwoOutcomes :
    WellFormed.legal (presented 0x0121 []).cmd = true ∧ WellFormed.legal (presented 0x0122 []).cmd = false := by decide

theorem witness_VectorLanesAreIndependent :
    WellFormed.isClassV (encode (.packUnorm .b8 .x2 .f32)) = true ∧ WellFormed.isClassH (encode (.packHalf .x4)) = true ∧
      lane (widthRead (.packHalf .x4)) (busOfList [1, 2]) 1 = lane (widthRead (.packHalf .x4)) (busOfList [3, 0xF00000002]) 1 ∧
      slot (busOfList [1, 2]) 1 ≠ slot (busOfList [3, 0xF00000002]) 1 ∧
      slot (busOfList [1, 2]) 0 ≠ slot (busOfList [3, 0xF00000002]) 0 := by
  decide

theorem witness_UnnamedInputBitsAreIgnored :
    (∀ k : Fin 4, k.val < lanesRead .packInt2x8 →
      lane (widthRead .packInt2x8) (busOfList [0x1234, 0x5678]) k =
        lane (widthRead .packInt2x8) (busOfList [0x34, 0x78, 9]) k) ∧
      busOfList [0x1234, 0x5678] ≠ busOfList [0x34, 0x78, 9] := by decide

theorem witness_OutcomeDependsOnInputsAlone :
    (presented 0x0008 [0x34, 0x78]).cmd = ((presented 0x0008 [0x34, 0x78]).settle 7).cmd ∧
      (presented 0x0008 [0x34, 0x78]).a = ((presented 0x0008 [0x34, 0x78]).settle 7).a ∧
      decode (presented 0x0008 [0x34, 0x78]).cmd = .ok .packInt2x8 ∧
      (∀ k : Fin 4, k.val < lanesRead .packInt2x8 →
        lane (widthRead .packInt2x8) (presented 0x0008 [0x1234, 0x5678]).a k =
          lane (widthRead .packInt2x8) (presented 0x0008 [0x34, 0x78]).a k) := by decide

theorem witness_EvaluationOrderIsImmaterial :
    [(0x0010#16, busOfList [1, 2]), (0x0022#16, 0)].Perm [(0x0022#16, 0), (0x0010#16, busOfList [1, 2])] :=
  List.Perm.swap _ _ _

theorem witness_RefusalLeavesNoTrace :
    step (presented 0x00C4 [1]) = .refused .illegalCommand ∧ WellFormed.reserved 0x00C4 = true := ⟨rfl, by decide⟩

theorem witness_StepLeavesSettledPorts :
    step (presented 0x000A [0x12, 0x34]) = .next ((presented 0x000A [0x12, 0x34]).settle (busOfList [0x3412])) ∧
      ((presented 0x000A [0x12, 0x34]).settle 7).cmd = (presented 0x000A [0x12, 0x34]).cmd ∧
      ((presented 0x000A [0x12, 0x34]).settle 7).a = (presented 0x000A [0x12, 0x34]).a ∧
      step (presented 0x00C4 [1]) = .refused .illegalCommand := ⟨rfl, rfl, rfl, rfl⟩

theorem witness_SampleWaitsForLatency : (⟨5, 0x0000, 0⟩ : InputChange).time ≤ 5 := by decide

theorem witness_GivesExamples : (presented 0x0000 [0x3F800000]).a = busOfList [0x3F800000] := rfl

theorem witness_HalfBitsToFloatIsExact :
    isNaN .binary16 0x7BFF#16 = false ∧ isNaN .binary16 0xFC00#16 = false ∧ isNaN .binary16 0x7C01#16 = true ∧
      (expField .binary16 0x0001#16 = 0 ∧ fracField .binary16 0x0001#16 ≠ 0) := by decide

theorem witness_FloatToHalfBitsRoundsToNearestEven :
    isNaN .binary32 0x7F800001#32 = true ∧ decodeF .binary32 0xFF800000#32 = .inf true ∧
      decodeF .binary32 0x477FF000#32 = .finite 65520 ∧ decodeF .binary32 0x477FEF00#32 = .finite 65519 ∧
      decodeF .binary32 0x33000000#32 = .finite (1 / 2 ^ 25) := by decide +kernel

theorem witness_NarrowThenWidenErrorBounds :
    decodeF .binary32 0x38800000#32 = .finite (1 / 2 ^ 14) ∧ decodeF .binary32 0x477FE000#32 = .finite 65504 ∧
      decodeF .binary32 0x387FE000#32 = .finite (2047 / 2 ^ 25) ∧ decodeF .binary32 0xC77FF000#32 = .finite (-65520) ∧
      isNaN .binary32 0x3F800000#32 = false ∧ isNaN .binary32 0xFFFFFFFF#32 = true := by decide +kernel

theorem witness_ScaleConstantsTable : ¬ (LaneBits.b32 = .b32 ∧ LaneFloat.f64 = .f32) := by decide

theorem witness_PackUnormQuantizes :
    isNaN .binary32 (lane 32 (busOfList [0x7FC00000]) 0) = true ∧
      decodeF .binary32 (lane 32 (busOfList [0xFF800000]) 0) = .inf true ∧
      decodeF .binary32 (lane 32 (busOfList [0x7F800000]) 0) = .inf false ∧
      decodeF .binary32 (lane 32 (busOfList [0x80000000]) 0) = .finite 0 ∧
      decodeF .binary64 (lane 64 (busOfList [0x3FF0000000000000]) 0) = .finite 1 ∧
      expField .binary32 (lane 32 (busOfList [0x007FFFFF]) 0) = 0 ∧
      ¬ (LaneBits.b16 = .b32 ∧ LaneFloat.f32 = .f32) := by decide +kernel

theorem witness_UnpackUnormDequantizes :
    (slot (busOfList [0x100]) 0).toNat % 2 ^ LaneBits.b8.bits = 0 ∧
      (slot (busOfList [0xFFFF]) 0).toNat % 2 ^ LaneBits.b16.bits = 2 ^ LaneBits.b16.bits - 1 := by decide

theorem witness_PackSnormQuantizes :
    isNaN .binary64 (lane 64 (busOfList [0x7FF8000000000000]) 0) = true ∧
      decodeF .binary32 (lane 32 (busOfList [0xFF800000]) 0) = .inf true ∧
      decodeF .binary32 (lane 32 (busOfList [0x7F800000]) 0) = .inf false ∧
      decodeF .binary32 (lane 32 (busOfList [0xBF800000]) 0) = .finite (-1) ∧
      decodeF .binary32 (lane 32 (busOfList [0x3F800000]) 0) = .finite 1 ∧
      decodeF .binary32 (lane 32 (busOfList [0x80000000]) 0) = .finite 0 := by decide +kernel

theorem witness_UnpackSnormDequantizes :
    (lane 8 (busOfList [0x100]) 0).toInt = 0 ∧ (lane 8 (busOfList [0x80]) 0).toInt = -2 ^ 7 ∧
      (lane 8 (busOfList [0x81]) 0).toInt = -(2 ^ 7 - 1) ∧ (lane 8 (busOfList [0x7F]) 0).toInt = 2 ^ 7 - 1 := by decide

theorem witness_NaNLaneIsAFixedFunction : isNaN .binary32 (lane 32 (busOfList [0, 0xFFFFFFFF]) 1) = true := by decide

theorem witness_NormalizedResultRanges :
    (0 : Fin 4).val < LaneCount.x2.count ∧
      decodeF .binary32 (unpackUnormLane .b8 .f32 0) = .finite 0 ∧
      decodeF .binary64 (unpackSnormLane .b32 .f64 0) = .finite 0 := by decide +kernel

theorem witness_UnormGridRoundTrip :
    ¬ (LaneBits.b16 = .b32 ∧ LaneFloat.f32 = .f32) ∧ (lane 32 (busOfList [0x1000000]) 0).toNat ≤ 2 ^ 24 ∧
      (lane 32 (busOfList [0x1000001]) 0).toNat = 2 ^ 24 + 1 := by decide

theorem witness_SnormGridRoundTrip :
    ¬ (LaneBits.b8 = .b32 ∧ LaneFloat.f32 = .f32) ∧ (lane 8 (busOfList [0x81]) 0).toInt ≠ -2 ^ 7 ∧
      (lane 8 (busOfList [0x80]) 0).toInt = -2 ^ 7 ∧ (lane 32 (busOfList [0x80000000]) 0).toInt = -2 ^ 31 := by decide

theorem witness_UnormErrorBound :
    decodeF .binary32 (lane 32 (busOfList [0x80000000]) 0) = .finite 0 ∧
      decodeF .binary64 (lane 64 (busOfList [0x3FF0000000000000]) 0) = .finite 1 ∧
      decodeF .binary32 (lane 32 (busOfList [0x3E800000]) 0) = .finite (1 / 4) := by decide +kernel

theorem witness_SignedPacksPlaceLanes :
    exec .packInt2x8 (presented 0x0008 [1, -128]) =
      .next ((presented 0x0008 [1, -128]).settle (busOfList [0x8001])) := rfl

theorem witness_NarrowerViewsSeeLowerLanes :
    (⟨.packInt4x16, .x4, 16⟩ : UniformPack) ∈ uniformPacks ∧ 4 ≤ (⟨.packInt4x16, .x4, 16⟩ : UniformPack).lanes.count := by
  decide

theorem witness_LanePackingRoundTrips :
    (∀ k : Fin 4, k.val < 3 →
      -512 ≤ (lane 32 (busOfList [511, -512, 511, 1]) k).toInt ∧ (lane 32 (busOfList [511, -512, 511, 1]) k).toInt ≤ 511) ∧
      -2 ≤ (lane 32 (busOfList [511, -512, 511, 1]) 3).toInt ∧ (lane 32 (busOfList [511, -512, 511, 1]) 3).toInt ≤ 1 := by
  decide

theorem witness_HalfVectorRoundTrips :
    isNaN .binary32 (lane 32 (busOfList [0x3DCCCCCD, 0x3F000000]) 1) = false ∧
      decodeF .binary16 0x3800#16 = decodeF .binary32 (lane 32 (busOfList [0x3DCCCCCD, 0x3F000000]) 1) := by decide

theorem witness_PortsAfterEvaluation : WellFormed.reserved 0x00C4 = true ∧ WellFormed.reserved 0x0104 = false := by decide

end Sys2Proof.Tests
end

section
/-! PROOFS for 00_scope.md, commands and ports: the slots of a bus, the decoder against the legality check, and the one form of
every vector result. -/

namespace Sys2Proof.Machine

/-! ## Slots of a bus as numbers (R14) -/

theorem toNat_slot (b : Bus) (i : Fin 4) : (slot b i).toNat = b.toNat / 2 ^ (64 * i.val) % 2 ^ 64 := by
  rw [slot, BitVec.extractLsb'_toNat, Nat.shiftRight_eq_div_pow]

theorem toNat_busOfSlots (f : Fin 4 → Slot) : (busOfSlots f).toNat = ∑ i : Fin 4, (f i).toNat * 2 ^ (64 * i.val) := by
  simp only [busOfSlots, toNat_append_add, Fin.sum_univ_four, Fin.val_zero, Fin.val_one, Fin.val_two,
    show (3 : Fin 4).val = 3 from rfl]
  ring

/-! ## `step` at a word that decodes and at one that does not (R10, R11) -/

theorem step_of_ok {s : State} {i : Instr} (h : decode s.cmd = .ok i) : step s = exec i s := by
  rw [step, h]

theorem step_of_error {s : State} {e : DecodeError} (h : decode s.cmd = .error e) : step s = refuseIllegal := by
  rw [step, h]

theorem illOutput_of_ok {c : CmdWord} {i : Instr} (h : decode c = .ok i) : illOutput c = false := by
  rw [illOutput, h]

theorem illOutput_of_error {c : CmdWord} {e : DecodeError} (h : decode c = .error e) : illOutput c = true := by
  rw [illOutput, h]

/-! ## Vector results (R12) -/

/-- A class-V or class-H instruction has one function of a lane, applied to each lane at the width read. -/
theorem exec_vector {i : Instr} (h : WellFormed.isClassV (encode i) = true ∨ WellFormed.isClassH (encode i) = true) :
    ∃ (n : LaneCount) (w : Nat) (g : BitVec (Safety.widthRead i) → BitVec w),
      ∀ s, exec i s = deliver s (busOfLanes n fun k => g (lane (Safety.widthRead i) s.a k)) := by
  cases i with
  | packUnorm b n f => exact ⟨n, b.bits, fun x => BitVec.ofInt b.bits (packUnormLane b f x), fun _ => rfl⟩
  | unpackUnorm b n f => exact ⟨n, _, unpackUnormLane b f, fun _ => rfl⟩
  | packSnorm b n f => exact ⟨n, b.bits, fun x => BitVec.ofInt b.bits (packSnormLane b f x), fun _ => rfl⟩
  | unpackSnorm b n f => exact ⟨n, _, unpackSnormLane b f, fun _ => rfl⟩
  | packHalf n => exact ⟨n, _, narrowFloat, fun _ => rfl⟩
  | unpackHalf n => exact ⟨n, _, widenHalf, fun _ => rfl⟩
  | _ => exact absurd h (by decide)

end Sys2Proof.Machine

namespace Sys2Proof

/-! ## The decoder accepts exactly the legal words (R65, R66) -/

theorem toNat_opField (c : CmdWord) : (opField c).toNat = WellFormed.opNumber c := by
  simp [opField, WellFormed.opNumber]

theorem toNat_bwField (c : CmdWord) : (bwField c).toNat = WellFormed.bwField c := by
  simp [bwField, WellFormed.bwField, Nat.shiftRight_eq_div_pow]

theorem toNat_lnField (c : CmdWord) : (lnField c).toNat = WellFormed.lnField c := by
  simp [lnField, WellFormed.lnField, Nat.shiftRight_eq_div_pow]

theorem toNat_ftField (c : CmdWord) : (ftField c).toNat = WellFormed.ftField c := by
  simp [ftField, WellFormed.ftField, Nat.shiftRight_eq_div_pow]

theorem toNat_rsvField (c : CmdWord) : (rsvField c).toNat = WellFormed.rsvField c := by
  simp only [rsvField, WellFormed.rsvField, BitVec.extractLsb'_toNat, Nat.shiftRight_eq_div_pow]
  omega

theorem decodeS_isOk (c : CmdWord) (i : Instr) :
    (decodeS c i).isOk =
      decide (WellFormed.bwField c = 0 ∧ WellFormed.lnField c = 0 ∧ WellFormed.ftField c = 0) := by
  simp only [decodeS, BitVec.toNat_eq, toNat_bwField, toNat_lnField, toNat_ftField]
  split <;> simp_all [Except.isOk, Except.toBool]

theorem decodeH_isOk (c : CmdWord) (mk : LaneCount → Instr) :
    (decodeH c mk).isOk = decide (WellFormed.bwField c = 0 ∧ WellFormed.ftField c = 0) := by
  simp only [decodeH, BitVec.toNat_eq, toNat_bwField, toNat_ftField]
  split <;> simp_all [Except.isOk, Except.toBool]

/-- BW = 3 is the one value that gives no width (R62). -/
theorem laneBitsOfField_isSome (v : BitVec 2) : (laneBitsOfField v).isSome = decide (v.toNat ≠ 3) := by
  revert v
  decide

theorem decodeV_isOk (c : CmdWord) (mk : LaneBits → LaneCount → LaneFloat → Instr) :
    (decodeV c mk).isOk = decide (WellFormed.bwField c ≠ 3) := by
  rw [← toNat_bwField, ← laneBitsOfField_isSome, decodeV]
  cases laneBitsOfField (bwField c) <;> rfl

/-- The decoder accepts a word exactly when it passes the legality check of R66. -/
theorem decode_isOk (c : CmdWord) : (decode c).isOk = WellFormed.legal c := by
  unfold decode WellFormed.legal
  simp only [ne_eq, BitVec.toNat_eq, toNat_rsvField, toNat_opField]
  split
  · next h => simp_all [Except.isOk, Except.toBool]
  · next h =>
    split
    case h_35 =>
      simp only [imp_false] at *
      have hop : 34 ≤ WellFormed.opNumber c := by omega
      simp_all [Except.isOk, Except.toBool]
    all_goals simp_all [decodeS_isOk, decodeV_isOk, decodeH_isOk]

/-- A legal word decodes to an instruction. -/
theorem decode_of_legal {c : CmdWord} (h : WellFormed.legal c = true) : ∃ i, decode c = .ok i := by
  rw [← decode_isOk] at h
  cases hd : decode c with
  | ok i => exact ⟨i, rfl⟩
  | error e => simp [hd, Except.isOk, Except.toBool] at h

/-- A word that is not legal does not decode. -/
theorem decode_of_not_legal {c : CmdWord} (h : WellFormed.legal c = false) : ∃ e, decode c = .error e := by
  rw [← decode_isOk] at h
  cases hd : decode c with
  | ok i => simp [hd, Except.isOk, Except.toBool] at h
  | error e => exact ⟨e, rfl⟩

end Sys2Proof

namespace Sys2Proof.Proofs

open Sys2Proof.Machine

/-- Settles O5: a slot is a shift and a mask of the bus, and the bus is its slots concatenated. -/
theorem slotsAreTheBusQuarters : Obligations.SlotsAreTheBusQuarters := ⟨toNat_slot, toNat_busOfSlots⟩

/-- Settles O12, by the decoded case of `step`. -/
theorem stepRunsDecodedInstruction : Obligations.StepRunsDecodedInstruction := fun _ _ h => step_of_ok h

/-- Settles O13: the decoder accepts exactly the legal words, every instruction delivers a result, and a word that does not
decode is refused. -/
theorem twoOutcomes : Obligations.TwoOutcomes := by
  intro s
  constructor
  · intro h
    obtain ⟨i, hi⟩ := decode_of_legal h
    have hx : exec i s = .next (s.settle (resultBus i s.a)) := exec_eq_deliver i s
    exact ⟨illOutput_of_ok hi, i, _, hi, hx, (step_of_ok hi).trans hx, State.settle_ill _ _⟩
  · intro h
    obtain ⟨e, he⟩ := decode_of_not_legal h
    exact ⟨illOutput_of_error he, step_of_error he⟩

/-- Settles O15: slot k of a vector result is one function of lane k of the operand, at the width read. -/
theorem vectorLanesAreIndependent : Obligations.VectorLanesAreIndependent := by
  intro i hi s s' k hk
  obtain ⟨n, w, g, hg⟩ := exec_vector hi
  refine ⟨_, _, hg s, hg s', ?_⟩
  simp only [State.settle_y, slot_busOfLanes, hk]

end Sys2Proof.Proofs
end

section
/-! PROOFS for 00_scope.md, formats and arithmetic: the primitives of R18 and the clamp of R19. -/

namespace Sys2Proof.Machine

/-! ## The primitives on finite operands (R18) -/

theorem finiteValue_of_finite {F : FloatFmt} {b : BitVec F.width} {x : Rat} (h : decodeF F b = .finite x) :
    finiteValue F b = x := by
  rw [finiteValue, h]

theorem isNaN_iff {F : FloatFmt} {b : BitVec F.width} : isNaN F b = true ↔ decodeF F b = .nan := by
  rw [isNaN, decide_eq_true_iff]

theorem mulF_of_finite {F : FloatFmt} {a b : BitVec F.width} {x y : Rat} (ha : decodeF F a = .finite x)
    (hb : decodeF F b = .finite y) : mulF F a b = rne F (x * y) (signBit F a ^^^ signBit F b) := by
  rw [mulF, finiteValue_of_finite ha, finiteValue_of_finite hb, mulExact_eq]

theorem divF_of_finite {F : FloatFmt} {a b : BitVec F.width} {x y : Rat} (ha : decodeF F a = .finite x)
    (hb : decodeF F b = .finite y) : divF F a b = rne F (x / y) (signBit F a ^^^ signBit F b) := by
  rw [divF, finiteValue_of_finite ha, finiteValue_of_finite hb, divExact_eq]

/-- `roundAway` with the sign as a case split: at 0 the floor is 0, whichever sign stands before it. -/
theorem roundAway_eq_ite (r : Rat) : roundAway r = (if r < 0 then -1 else 1) * ⌊|r| + 1 / 2⌋ := by
  rw [roundAway_eq]
  rcases lt_trichotomy r 0 with hr | rfl | hr
  · rw [if_pos hr, Int.sign_eq_neg_one_of_neg (Rat.num_neg.mpr hr)]
  · norm_num
  · rw [if_neg hr.not_gt, Int.sign_eq_one_of_pos (Rat.num_pos.mpr hr)]

/-! ## The clamp (R19) -/

section Clamp

variable {F : FloatFmt} {b : BitVec F.width} {lo hi x : Rat}

theorem clampF_of_neg_inf (h : decodeF F b = .inf true) : clampF F b lo hi = rne F lo 0 := by
  rw [clampF, h]

theorem clampF_of_pos_inf (h : decodeF F b = .inf false) : clampF F b lo hi = rne F hi 0 := by
  rw [clampF, h]

theorem clampF_of_finite (h : decodeF F b = .finite x) :
    clampF F b lo hi = if x < lo then rne F lo 0 else if hi < x then rne F hi 0 else b := by
  rw [clampF, h]

end Clamp

end Sys2Proof.Machine

namespace Sys2Proof.Proofs

open Sys2Proof.Machine

/-- Settles O3: on finite operands the exact operations are the field operations, and each primitive rounds once. -/
theorem primitivesRoundOnce : Obligations.PrimitivesRoundOnce :=
  ⟨fun _ _ _ _ _ ha hb => ⟨mulF_of_finite ha hb, fun _ => divF_of_finite ha hb⟩, fun _ _ => rfl, roundAway_eq_ite,
    fun _ _ => isNaN_iff⟩

/-- Settles O4: the bounds are in order, so a value above the upper one is not below the lower one. -/
theorem clampIsNumeric : Obligations.ClampIsNumeric := by
  intro F b lo hi hle
  refine ⟨clampF_of_neg_inf, clampF_of_pos_inf, fun x hx => ?_⟩
  rw [clampF_of_finite hx]
  refine ⟨fun h => if_pos h, fun h => ?_, fun h1 h2 => ?_⟩
  · rw [if_neg (hle.trans h.le).not_gt, if_pos h]
  · rw [if_neg h1.not_gt, if_neg h2.not_gt]

end Sys2Proof.Proofs
end

section
/-! PROOFS for 00_scope.md, R15 and R16: a pattern is its three fields, and a finite one is its sign, significand and exponent. -/

namespace Sys2Proof.Machine

/-! ## The fields of a pattern as numbers (R15) -/

section Fields

variable (F : FloatFmt) (b : BitVec F.width)

theorem toNat_signBit : (signBit F b).toNat = b.toNat / 2 ^ (F.width - 1) := by
  have hlt : b.toNat / 2 ^ (F.width - 1) < 2 ^ 1 :=
    Nat.div_lt_of_lt_mul (b.isLt.trans_le (by cases F <;> decide))
  rw [signBit, BitVec.extractLsb'_toNat, Nat.shiftRight_eq_div_pow, Nat.mod_eq_of_lt hlt]

theorem toNat_expField : (expField F b).toNat = b.toNat / 2 ^ F.fracBits % 2 ^ F.expBits := by
  rw [expField, BitVec.extractLsb'_toNat, Nat.shiftRight_eq_div_pow]

theorem toNat_fracField : (fracField F b).toNat = b.toNat % 2 ^ F.fracBits := by
  rw [fracField, BitVec.extractLsb'_toNat, Nat.shiftRight_zero]

end Fields

section Patterns

variable {F : FloatFmt} {b c : BitVec F.width}

/-- A pattern is its three fields. -/
theorem pattern_ext (hs : signBit F b = signBit F c) (he : (expField F b).toNat = (expField F c).toNat)
    (ht : (fracField F b).toNat = (fracField F c).toNat) : b = c := by
  have hs := congrArg BitVec.toNat hs
  rw [toNat_signBit, toNat_signBit] at hs
  rw [toNat_expField, toNat_expField] at he
  rw [toNat_fracField, toNat_fracField] at ht
  have hb := b.isLt
  have hc := c.isLt
  apply BitVec.eq_of_toNat_eq
  cases F <;>
  · simp only [FloatFmt.width, FloatFmt.fracBits, FloatFmt.expBits] at hs he ht hb hc
    omega

/-! ## Sign, significand and exponent of a finite pattern (R16) -/

/-- The factor a sign bit stands for. -/
def signFactor (s : BitVec 1) : Rat := if s.toNat = 1 then -1 else 1

theorem abs_signFactor (s : BitVec 1) : |signFactor s| = 1 := by
  unfold signFactor
  split <;> simp

theorem signFactor_eq_pow (s : BitVec 1) : signFactor s = (-1) ^ s.toNat := by
  have h : s.toNat < 2 := s.isLt
  unfold signFactor
  interval_cases s.toNat <;> norm_num

theorem signFactor_injective : Function.Injective signFactor := by
  unfold Function.Injective
  decide

/-- The significand of a pattern: the hidden bit counts unless the exponent field is 0. -/
def patSig (F : FloatFmt) (b : BitVec F.width) : Nat :=
  if (expField F b).toNat = 0 then (fracField F b).toNat else 2 ^ F.fracBits + (fracField F b).toNat

/-- The unbiased exponent of a pattern: field 0 has the exponent of field 1. -/
def patExp (F : FloatFmt) (b : BitVec F.width) : Int :=
  (if (expField F b).toNat = 0 then 1 else ((expField F b).toNat : Int)) - F.bias

/-- The magnitude of a finite pattern. -/
def patMag (F : FloatFmt) (b : BitVec F.width) : Rat := patSig F b * (2 : Rat) ^ (patExp F b - F.fracBits)

theorem decodeF_eq_inf {neg : Bool} : decodeF F b = .inf neg ↔
    (expField F b).toNat = 2 ^ F.expBits - 1 ∧ (fracField F b).toNat = 0 ∧ neg = decide ((signBit F b).toNat = 1) := by
  rw [decodeF_eq]
  split_ifs <;> simp_all [eq_comm]

theorem decodeF_eq_nan : decodeF F b = .nan ↔
    (expField F b).toNat = 2 ^ F.expBits - 1 ∧ (fracField F b).toNat ≠ 0 := by
  rw [decodeF_eq]
  split_ifs <;> simp_all

theorem decodeF_eq_finite {z : Rat} : decodeF F b = .finite z ↔
    (expField F b).toNat ≠ 2 ^ F.expBits - 1 ∧ z = signFactor (signBit F b) * patMag F b := by
  have hval : signFactor (signBit F b) * patMag F b = (if (signBit F b).toNat = 1 then -1 else 1) *
      (if (expField F b).toNat = 0 then ((fracField F b).toNat : Rat) else 2 ^ F.fracBits + (fracField F b).toNat) *
      (2 : Rat) ^ ((if (expField F b).toNat = 0 then 1 else ((expField F b).toNat : Int)) - F.bias - F.fracBits) := by
    rw [patMag, patSig, patExp, signFactor, ← mul_assoc]
    push_cast
    rfl
  rw [decodeF_eq, hval]
  by_cases h : (expField F b).toNat = 2 ^ F.expBits - 1
  · rw [if_pos h]
    split <;> simp [h]
  · rw [if_neg h, Value.finite.injEq]
    simp only [ne_eq, h, not_false_iff, true_and, eq_comm]

/-- The exponent field of a zero is not the one of the infinities and NaNs. -/
theorem zero_ne_maxExp (F : FloatFmt) : 0 ≠ 2 ^ F.expBits - 1 := by
  cases F <;> decide

theorem one_sub_bias_le_patExp : 1 - (F.bias : Int) ≤ patExp F b := by
  unfold patExp
  split <;> omega

theorem patMag_nonneg : 0 ≤ patMag F b := by
  unfold patMag
  positivity

/-- The magnitude of a finite value is that of its pattern. -/
theorem abs_of_finite {z : Rat} (h : decodeF F b = .finite z) : |z| = patMag F b := by
  rw [(decodeF_eq_finite.mp h).2, abs_mul, abs_signFactor, one_mul, abs_of_nonneg patMag_nonneg]

/-- A power of two as a scaled significand. -/
theorem two_pow_mul_zpow (T : Nat) (k : Int) : ((2 ^ T : Nat) : Rat) * (2 : Rat) ^ (k - T) = (2 : Rat) ^ k := by
  rw [Nat.cast_pow, Nat.cast_ofNat, ← zpow_natCast, ← zpow_add₀ two_ne_zero]
  congr 1
  ring

/-- The first significand that does not fit, scaled, is the next power of two. -/
theorem two_pow_succ_mul_zpow (T : Nat) (k : Int) :
    ((2 ^ (T + 1) : Nat) : Rat) * (2 : Rat) ^ (k - T) = (2 : Rat) ^ (k + 1) := by
  rw [← two_pow_mul_zpow (T + 1) (k + 1)]
  push_cast
  congr 2
  ring

theorem patMag_lt : patMag F b < (2 : Rat) ^ (patExp F b + 1) := by
  have ht := (fracField F b).isLt
  have hsig : patSig F b < 2 ^ (F.fracBits + 1) := by
    unfold patSig
    rw [pow_succ]
    split <;> omega
  calc patMag F b < ((2 ^ (F.fracBits + 1) : Nat) : Rat) * (2 : Rat) ^ (patExp F b - F.fracBits) :=
        mul_lt_mul_of_pos_right (by exact_mod_cast hsig) (by positivity)
    _ = (2 : Rat) ^ (patExp F b + 1) := two_pow_succ_mul_zpow _ _

/-- Above the least exponent the significand has its hidden bit. -/
theorem two_zpow_le_patMag (h : 1 - (F.bias : Int) < patExp F b) : (2 : Rat) ^ patExp F b ≤ patMag F b := by
  have hsig : 2 ^ F.fracBits ≤ patSig F b := by
    unfold patExp at h
    unfold patSig
    split_ifs at h ⊢ <;> omega
  rw [← two_pow_mul_zpow F.fracBits]
  exact mul_le_mul_of_nonneg_right (by exact_mod_cast hsig) (by positivity)

/-- A pattern of a smaller exponent has a smaller magnitude. -/
theorem patMag_lt_of_patExp_lt (h : patExp F b < patExp F c) : patMag F b < patMag F c :=
  calc patMag F b < (2 : Rat) ^ (patExp F b + 1) := patMag_lt
    _ ≤ (2 : Rat) ^ patExp F c := zpow_le_zpow_right₀ (by norm_num) h
    _ ≤ patMag F c := two_zpow_le_patMag (one_sub_bias_le_patExp.trans_lt h)

/-- The magnitude of a pattern decides its exponent and fraction fields. -/
theorem fields_eq_of_patMag_eq (h : patMag F b = patMag F c) :
    (expField F b).toNat = (expField F c).toNat ∧ (fracField F b).toNat = (fracField F c).toNat := by
  have hexp : patExp F b = patExp F c := by
    rcases lt_trichotomy (patExp F b) (patExp F c) with hlt | heq | hgt
    · exact absurd h (patMag_lt_of_patExp_lt hlt).ne
    · exact heq
    · exact absurd h (patMag_lt_of_patExp_lt hgt).ne'
  have hsig : patSig F b = patSig F c := by
    unfold patMag at h
    rw [hexp] at h
    exact_mod_cast mul_right_cancel₀ (zpow_ne_zero _ two_ne_zero) h
  have hb := (fracField F b).isLt
  have hc := (fracField F c).isLt
  unfold patExp at hexp
  unfold patSig at hsig
  split_ifs at hexp hsig <;> omega

/-- Two patterns of one value that is neither NaN nor 0 are the same pattern (R16). -/
theorem decodeF_injective (hnan : decodeF F b ≠ .nan) (h : decodeF F c = decodeF F b) (hzero : decodeF F b ≠ .finite 0) :
    c = b := by
  cases hb : decodeF F b with
  | nan => exact absurd hb hnan
  | inf neg =>
    obtain ⟨heb, htb, hsb⟩ := decodeF_eq_inf.mp hb
    obtain ⟨hec, htc, hsc⟩ := decodeF_eq_inf.mp (h.trans hb)
    refine pattern_ext (signFactor_injective ?_) (hec.trans heb.symm) (htc.trans htb.symm)
    have hsign : (signBit F c).toNat = 1 ↔ (signBit F b).toNat = 1 := decide_eq_decide.mp (hsc.symm.trans hsb)
    simp only [signFactor, hsign]
  | finite z =>
    have hc := h.trans hb
    have hmag : patMag F c = patMag F b := (abs_of_finite hc).symm.trans (abs_of_finite hb)
    have hz : z ≠ 0 := fun hz => hzero (hz ▸ hb)
    have hne : patMag F b ≠ 0 := abs_of_finite hb ▸ abs_ne_zero.mpr hz
    have hprod := (decodeF_eq_finite.mp hc).2.symm.trans (decodeF_eq_finite.mp hb).2
    rw [hmag] at hprod
    obtain ⟨he, ht⟩ := fields_eq_of_patMag_eq hmag
    exact pattern_ext (signFactor_injective (mul_right_cancel₀ hne hprod)) he ht

end Patterns

end Sys2Proof.Machine

namespace Sys2Proof.Proofs

open Sys2Proof.Machine

/-- Settles O1: the three numbers are the pattern's fields, and a pattern's magnitude decides its exponent and fraction. -/
theorem decodingFollowsTheFormat : Obligations.DecodingFollowsTheFormat := by
  intro F b
  simp only [← toNat_signBit, ← toNat_expField, ← toNat_fracField]
  refine ⟨fun he ht => decodeF_eq_inf.mpr ⟨he, ht, rfl⟩, fun he ht => decodeF_eq_nan.mpr ⟨he, ht⟩, fun he => ?_,
    fun h0 he => ?_, fun c => decodeF_injective⟩
  · refine decodeF_eq_finite.mpr ⟨he ▸ zero_ne_maxExp F, ?_⟩
    rw [signFactor_eq_pow, patMag, patSig, patExp, if_pos he, if_pos he, mul_assoc]
  · refine decodeF_eq_finite.mpr ⟨he.ne, ?_⟩
    rw [signFactor_eq_pow, patMag, patSig, patExp, if_neg h0.ne', if_neg h0.ne', mul_assoc]
    push_cast
    rfl

end Sys2Proof.Proofs
end

section
/-! PROOFS for 00_scope.md, R17: the rounding algorithm finds a nearest value of the format, the even one of two, and overflows
from the midpoint above the largest finite value. -/

namespace Sys2Proof.Machine

/-! ## Nearest integers -/

/-- No integer is nearer to q than the rounded one, and a rounded one with a rival as near is even. -/
theorem roundHalfEven_nearest {q : Rat} (hq : 0 ≤ q) (k : Int) :
    |(roundHalfEven q : Rat) - q| ≤ |(k : Rat) - q| ∧
      (|(k : Rat) - q| = |(roundHalfEven q : Rat) - q| → (k : Rat) ≠ roundHalfEven q → roundHalfEven q % 2 = 0) := by
  obtain ⟨hhalf, heven⟩ := roundHalfEven_spec hq
  by_cases hk : k = roundHalfEven q
  · subst hk
    exact ⟨le_rfl, fun _ hne => absurd rfl hne⟩
  · -- a rival is at least 1 away from the rounded integer, so at least 1/2 from q
    have hone : (1 : Rat) ≤ |(k : Rat) - roundHalfEven q| := by
      exact_mod_cast Int.one_le_abs (sub_ne_zero.mpr hk)
    have htri := abs_sub_le (k : Rat) q (roundHalfEven q)
    rw [abs_sub_comm q] at htri
    exact ⟨by linarith, fun heq _ => heven (by linarith)⟩

/-! ## What the last steps assemble -/

section Assemble

variable {F : FloatFmt} {s : BitVec 1} {n : Nat} {ex : Int}

@[simp] theorem signBit_assembleFloat : signBit F (assembleFloat F s n ex) = s := by
  unfold assembleFloat
  split_ifs <;> exact signBit_packFields _ _ _ _

theorem decodeF_assembleFloat_overflow (neg : Bool) (h : (F.bias : Int) < ex) :
    decodeF F (assembleFloat F (BitVec.ofBool neg) n ex) = .inf neg := by
  rw [assembleFloat, if_pos h, decodeF_eq_inf]
  cases neg <;> simp

/-- The last fraction bit is the last bit of the significand: the hidden bit is an even weight. -/
theorem fracField_assembleFloat_parity (hex : ex ≤ F.bias) (hn : n < 2 ^ (F.fracBits + 1)) :
    (fracField F (assembleFloat F s n ex)).toNat % 2 = n % 2 := by
  have heven : 2 ^ F.fracBits % 2 = 0 := by cases F <;> rfl
  rw [pow_succ] at hn
  rw [assembleFloat, if_neg hex.not_gt]
  split
  · next h => rw [fracField_packFields, BitVec.toNat_ofNat, Nat.mod_eq_of_lt h]
  · next h =>
    have hlt : n - 2 ^ F.fracBits < 2 ^ F.fracBits := by omega
    rw [fracField_packFields, BitVec.toNat_ofNat, Nat.mod_eq_of_lt hlt]
    omega

/-- A power of two as significand leaves fraction 0, whether the exponent is in range or not. -/
theorem fracField_assembleFloat_two_pow : (fracField F (assembleFloat F s (2 ^ F.fracBits) ex)).toNat = 0 := by
  unfold assembleFloat
  split_ifs <;> simp_all

end Assemble

/-! ## The rounded pattern -/

section Rounded

variable {F : FloatFmt} {r : Rat}

/-- The rounded pattern of r ≠ 0, by its significand and exponent. -/
theorem rne_of_ne_zero (hr : r ≠ 0) (s0 : BitVec 1) :
    rne F r s0 =
      if rneSig F r = 2 ^ (F.fracBits + 1) then
        assembleFloat F (BitVec.ofBool (decide (r < 0))) (2 ^ F.fracBits) (rneExp F r + 1)
      else assembleFloat F (BitVec.ofBool (decide (r < 0))) (rneSig F r) (rneExp F r) := by
  simp only [rne, Rat.num_eq_zero, if_neg hr, absExact_eq, mulPow2_eq, Rat.num_neg]
  rfl

theorem rne_zero (s0 : BitVec 1) : rne F 0 s0 = packFields F s0 0 0 := by
  simp [rne]

theorem signBit_rne (s0 : BitVec 1) :
    signBit F (rne F r s0) = if r = 0 then s0 else BitVec.ofBool (decide (r < 0)) := by
  split
  · next h => rw [h, rne_zero, signBit_packFields]
  · next h =>
    rw [rne_of_ne_zero h]
    split <;> exact signBit_assembleFloat

theorem fracField_rne_parity (hr : r ≠ 0) (s0 : BitVec 1) (hex : rneExp F r ≤ F.bias) :
    (fracField F (rne F r s0)).toNat % 2 = rneSig F r % 2 := by
  rw [rne_of_ne_zero hr]
  split
  · next h => rw [fracField_assembleFloat_two_pow, h, pow_succ, Nat.mul_mod_left]
  · next h => exact fracField_assembleFloat_parity hex (lt_of_le_of_ne (rneSig_bounds F hr).1 h)

/-- Zero rounds to the zero of the given sign. -/
theorem decodeF_rne_zero (s0 : BitVec 1) : decodeF F (rne F 0 s0) = .finite 0 := by
  rw [rne_zero, decodeF_eq_finite]
  simp [zero_ne_maxExp, patMag, patSig]

/-! ## Nearest values of the format -/

/-- A value of the format lies on the grid of a working exponent ex, or below 2^ex where ex is not the least exponent. -/
theorem grid_or_below {c : BitVec F.width} {z : Rat} (hz : |z| = patMag F c) (ex : Int) :
    (∃ k : Int, z = k * (2 : Rat) ^ (ex - F.fracBits)) ∨ (1 - (F.bias : Int) < ex ∧ |z| < (2 : Rat) ^ ex) := by
  rcases le_or_gt ex (patExp F c) with hle | hlt
  · left
    obtain ⟨j, hj⟩ : ∃ j : Nat, patExp F c = ex + j := ⟨(patExp F c - ex).toNat, by omega⟩
    have hmag : patMag F c = ((patSig F c * 2 ^ j : Int) : Rat) * (2 : Rat) ^ (ex - F.fracBits) := by
      rw [patMag, hj, show ex + j - (F.fracBits : Int) = j + (ex - F.fracBits) by ring, zpow_add₀ two_ne_zero, zpow_natCast]
      push_cast
      ring
    rcases abs_eq_abs.mp (hz.trans (abs_of_nonneg patMag_nonneg).symm) with h | h
    · exact ⟨_, h.trans hmag⟩
    · exact ⟨-(patSig F c * 2 ^ j : Int), by rw [h, hmag, Int.cast_neg, neg_mul]⟩
  · right
    refine ⟨one_sub_bias_le_patExp.trans_lt hlt, hz ▸ patMag_lt.trans_le ?_⟩
    exact zpow_le_zpow_right₀ (by norm_num) hlt

/-- The magnitude in units of the last place at the working exponent. -/
def scaledMag (F : FloatFmt) (r : Rat) : Rat := |r| * (2 : Rat) ^ ((F.fracBits : Int) - rneExp F r)

theorem scaledMag_nonneg (F : FloatFmt) (r : Rat) : 0 ≤ scaledMag F r := by
  unfold scaledMag
  positivity

/-- The significand is an integer nearest to the scaled magnitude, and the even one at a midpoint. -/
theorem rneSig_spec (F : FloatFmt) (r : Rat) :
    |(rneSig F r : Rat) - scaledMag F r| ≤ 1 / 2 ∧ (|(rneSig F r : Rat) - scaledMag F r| = 1 / 2 → rneSig F r % 2 = 0) :=
  roundHalfEven_spec (scaledMag_nonneg F r)

theorem scaledMag_mul_unit (F : FloatFmt) (r : Rat) :
    scaledMag F r * (2 : Rat) ^ (rneExp F r - F.fracBits) = |r| := by
  rw [scaledMag, mul_assoc, ← zpow_add₀ two_ne_zero, sub_add_sub_cancel, sub_self, zpow_zero, mul_one]

/-- On the working grid, the rounded magnitude is nearest to |r|, and its significand is even where a rival is as near. -/
theorem rneSig_nearest_on_grid (F : FloatFmt) (r : Rat) (k : Int) :
    let u := (2 : Rat) ^ (rneExp F r - F.fracBits)
    |rneSig F r * u - (|r|)| ≤ |k * u - (|r|)| ∧
      (|k * u - (|r|)| = |rneSig F r * u - (|r|)| → k * u ≠ rneSig F r * u → rneSig F r % 2 = 0) := by
  intro u
  have hu : 0 < u := by positivity
  have hscale : ∀ a : Rat, |a * u - (|r|)| = |a - scaledMag F r| * u := by
    intro a
    conv_lhs => rw [← scaledMag_mul_unit F r, ← sub_mul, abs_mul, abs_of_pos hu]
  obtain ⟨hle, heven⟩ := roundHalfEven_nearest (scaledMag_nonneg F r) k
  rw [hscale, hscale]
  refine ⟨mul_le_mul_of_nonneg_right hle hu.le, fun heq hne => ?_⟩
  exact heven (mul_right_cancel₀ hu.ne' heq) fun h => hne (by rw [h]; rfl)

/-- The rounded magnitude is nearest to |r| among all values of the format. -/
theorem rneSig_nearest (hr : r ≠ 0) {c : BitVec F.width} {z : Rat} (hz : |z| = patMag F c) :
    let u := (2 : Rat) ^ (rneExp F r - F.fracBits)
    |rneSig F r * u - (|r|)| ≤ |z - (|r|)| ∧
      (|z - (|r|)| = |rneSig F r * u - (|r|)| → z ≠ rneSig F r * u → rneSig F r % 2 = 0) := by
  intro u
  rcases grid_or_below hz (rneExp F r) with ⟨k, rfl⟩ | ⟨hex, hlt⟩
  · exact rneSig_nearest_on_grid F r k
  · -- z lies below 2^ex, a grid point between it and |r|
    have hlog : rneExp F r = floorLog2 |r| := by
      unfold rneExp at hex ⊢
      omega
    have hpow : (2 : Rat) ^ rneExp F r ≤ |r| := hlog ▸ (floorLog2_spec (abs_pos.mpr hr)).1
    have hgrid := (rneSig_nearest_on_grid F r ((2 ^ F.fracBits : Nat) : Int)).1
    rw [Int.cast_natCast, two_pow_mul_zpow, abs_of_nonpos (sub_nonpos.mpr hpow)] at hgrid
    have hzr := (le_abs_self z).trans_lt hlt
    have hfar : |rneSig F r * u - (|r|)| < |z - (|r|)| := by
      rw [abs_of_neg (sub_neg.mpr (hzr.trans_le hpow))]
      exact hgrid.trans_lt (by linarith)
    exact ⟨hfar.le, fun heq => absurd heq hfar.ne'⟩

/-! ## Overflow -/

theorem overflowBound_lt : Safety.overflowBound F < (2 : Rat) ^ (F.bias + 1) :=
  sub_lt_self _ (by positivity)

theorem two_pow_bias_le_overflowBound : (2 : Rat) ^ F.bias ≤ Safety.overflowBound F := by
  have h : (2 : Rat) ^ ((F.bias : Int) - F.fracBits - 1) ≤ (2 : Rat) ^ F.bias := by
    rw [← zpow_natCast]
    exact zpow_le_zpow_right₀ (by norm_num) (by omega)
  rw [Safety.overflowBound, pow_succ]
  linarith

/-- At the largest exponent, the overflow bound is half a unit below the least significand that does not fit. -/
theorem overflowBound_scaled :
    Safety.overflowBound F * (2 : Rat) ^ ((F.fracBits : Int) - F.bias) = ((2 ^ (F.fracBits + 1) : Nat) : Rat) - 1 / 2 := by
  rw [Safety.overflowBound, ← zpow_natCast, sub_mul, ← zpow_add₀ two_ne_zero, ← zpow_add₀ two_ne_zero]
  congr 1
  · rw [show ((F.bias + 1 : Nat) : Int) + (F.fracBits - F.bias) = ((F.fracBits + 1 : Nat) : Int) by push_cast; ring,
      zpow_natCast]
    push_cast
    rfl
  · rw [show (F.bias : Int) - F.fracBits - 1 + (F.fracBits - F.bias) = -1 by ring]
    norm_num

/-- Below 2^(B+1) the working exponent is in range. -/
theorem rneExp_le_bias (hr : r ≠ 0) (h : |r| < (2 : Rat) ^ (F.bias + 1)) : rneExp F r ≤ F.bias := by
  have hb : 1 ≤ F.bias := by cases F <;> decide
  have hlog := (floorLog2_spec (abs_pos.mpr hr)).1.trans_lt h
  rw [← zpow_natCast, zpow_lt_zpow_iff_right₀ (by norm_num)] at hlog
  unfold rneExp
  omega

/-- Below the overflow bound the rounded magnitude is below 2^(B+1). -/
theorem rneSig_lt_of_lt_overflowBound (hr : r ≠ 0) (h : |r| < Safety.overflowBound F) :
    (rneSig F r : Rat) * (2 : Rat) ^ (rneExp F r - F.fracBits) < (2 : Rat) ^ (F.bias + 1) := by
  have hle : (rneSig F r : Rat) ≤ ((2 ^ (F.fracBits + 1) : Nat) : Rat) := by exact_mod_cast (rneSig_bounds F hr).1
  rw [← zpow_natCast, Nat.cast_succ, ← two_pow_succ_mul_zpow F.fracBits]
  rcases (rneExp_le_bias hr (h.trans overflowBound_lt)).lt_or_eq with hex | hex
  · exact mul_lt_mul' hle (zpow_lt_zpow_right₀ (by norm_num) (by omega)) (by positivity) (by positivity)
  · -- at the largest exponent the scaled magnitude is less than 2^(T+1) - 1/2
    have hq : scaledMag F r < ((2 ^ (F.fracBits + 1) : Nat) : Rat) - 1 / 2 := by
      rw [scaledMag, hex, ← overflowBound_scaled]
      exact mul_lt_mul_of_pos_right h (by positivity)
    have hn := (abs_le.mp (rneSig_spec F r).1).2
    rw [hex]
    exact mul_lt_mul_of_pos_right (by linarith) (by positivity)

/-- From the overflow bound up, the exponent is out of range or the significand carries past the largest one. -/
theorem rne_overflows_of_overflowBound_le (h : Safety.overflowBound F ≤ |r|) :
    (F.bias : Int) < rneExp F r ∨ (rneExp F r = F.bias ∧ rneSig F r = 2 ^ (F.fracBits + 1)) := by
  have hpos : 0 < |r| := lt_of_lt_of_le (by positivity) (two_pow_bias_le_overflowBound.trans h)
  have hr := abs_pos.mp hpos
  rcases lt_or_ge (F.bias : Int) (rneExp F r) with hgt | hle
  · exact .inl hgt
  · have hlog := (two_pow_bias_le_overflowBound.trans h).trans_lt (floorLog2_spec hpos).2
    rw [← zpow_natCast, zpow_lt_zpow_iff_right₀ (by norm_num)] at hlog
    have hex : rneExp F r = F.bias := by
      unfold rneExp at hle ⊢
      omega
    refine .inr ⟨hex, le_antisymm (rneSig_bounds F hr).1 ?_⟩
    have hq : ((2 ^ (F.fracBits + 1) : Nat) : Rat) - 1 / 2 ≤ scaledMag F r := by
      rw [scaledMag, hex, ← overflowBound_scaled]
      exact mul_le_mul_of_nonneg_right h (by positivity)
    obtain ⟨hhalf, heven⟩ := rneSig_spec F r
    -- the odd significand 2^(T+1) - 1 could only be chosen at the midpoint, where the even one is
    by_contra hlt
    have hsig : (rneSig F r : Rat) + 1 ≤ ((2 ^ (F.fracBits + 1) : Nat) : Rat) := by
      exact_mod_cast not_le.mp hlt
    have hlow := (abs_le.mp hhalf).1
    have hodd : rneSig F r + 1 = 2 ^ (F.fracBits + 1) := by
      have hcast : (rneSig F r : Rat) + 1 = ((2 ^ (F.fracBits + 1) : Nat) : Rat) := by linarith
      exact_mod_cast hcast
    have hmid : |(rneSig F r : Rat) - scaledMag F r| = 1 / 2 := by
      rw [abs_of_nonpos (by linarith)]
      linarith
    have hsigEven := heven hmid
    rw [pow_succ] at hodd
    omega

/-- From the overflow bound up, a rational rounds to the infinity of its sign. -/
theorem decodeF_rne_of_overflowBound_le (s0 : BitVec 1) (h : Safety.overflowBound F ≤ |r|) :
    decodeF F (rne F r s0) = .inf (decide (r < 0)) := by
  have hr : r ≠ 0 := abs_pos.mp (lt_of_lt_of_le (by positivity) (two_pow_bias_le_overflowBound.trans h))
  rw [rne_of_ne_zero hr]
  rcases rne_overflows_of_overflowBound_le h with hex | ⟨hex, hsig⟩
  · split <;> exact decodeF_assembleFloat_overflow _ (by omega)
  · rw [if_pos hsig]
    exact decodeF_assembleFloat_overflow _ (by omega)

/-- Below the overflow bound, a rational rounds to a nearest value, one with an even last fraction bit where two are as near. -/
theorem decodeF_rne_of_lt_overflowBound (s0 : BitVec 1) (h : |r| < Safety.overflowBound F) :
    ∃ y, decodeF F (rne F r s0) = .finite y ∧
      ∀ c z, decodeF F c = .finite z → |y - r| ≤ |z - r| ∧
        (|z - r| = |y - r| → z ≠ y → (fracField F (rne F r s0)).toNat % 2 = 0) := by
  rcases eq_or_ne r 0 with rfl | hr
  · refine ⟨0, decodeF_rne_zero s0, fun c z _ => ⟨?_, fun heq hne => ?_⟩⟩
    · simp
    · exact absurd (by simpa using heq) hne
  · refine ⟨_, decodeF_rne s0 hr (rneSig_lt_of_lt_overflowBound hr h), fun c z hz => ?_⟩
    rw [fracField_rne_parity hr s0 (rneExp_le_bias hr (h.trans overflowBound_lt))]
    have hmag := abs_of_finite hz
    rcases hr.lt_or_gt with hneg | hpos
    · obtain ⟨hle, heven⟩ := rneSig_nearest hr (z := -z) (abs_neg z ▸ hmag)
      have hflip : ∀ a : Rat, |a - r| = |-a - (|r|)| := by
        intro a
        rw [abs_of_neg hneg, ← abs_neg]
        congr 1
        ring
      rw [if_pos hneg, neg_one_mul, neg_mul, hflip, hflip z, neg_neg]
      exact ⟨hle, fun heq hne => heven heq fun h => hne (neg_eq_iff_eq_neg.mp h)⟩
    · obtain ⟨hle, heven⟩ := rneSig_nearest hr hmag
      rw [abs_of_pos hpos] at hle heven
      rw [if_neg hpos.not_gt, one_mul]
      exact ⟨hle, heven⟩

end Rounded

end Sys2Proof.Machine

namespace Sys2Proof.Proofs

open Sys2Proof.Machine

/-- Settles O2: the sign is copied, the overflow bound is the carry out of the largest significand, and below it the significand is
the nearest integer on a grid that holds every rival from the working exponent up. -/
theorem roundingIsNearestEven : Obligations.RoundingIsNearestEven := fun _ _ s0 =>
  ⟨signBit_rne s0, decodeF_rne_of_overflowBound_le s0, decodeF_rne_of_lt_overflowBound s0⟩

end Sys2Proof.Proofs
end

section
/-! PROOFS for 10_state.md: which input bits reach a result and which output bits it leaves 0, and the ports after an evaluation as
a function of the inputs alone. -/

namespace Sys2Proof.Machine

open Sys2Proof.Safety

/-! ## A result is one function of the lanes its instruction names, in the bits it writes (R28, R29) -/

/-- The lanes an instruction reads, at the width it reads, and 0 in place of a lane it does not name (R27, R28). -/
def namedLanes (i : Instr) (a : Bus) (k : Fin 4) : BitVec (widthRead i) :=
  if k.val < lanesRead i then lane (widthRead i) a k else 0

theorem namedLanes_of_lt {i : Instr} {k : Fin 4} (hk : k.val < lanesRead i) (a : Bus) :
    namedLanes i a k = lane (widthRead i) a k := if_pos hk

theorem namedLanes_of_four {i : Instr} (h : lanesRead i = 4) (a : Bus) : namedLanes i a = lane (widthRead i) a :=
  funext fun k => namedLanes_of_lt (h.symm ▸ k.isLt) a

theorem namedLanes_congr {i : Instr} {a b : Bus}
    (h : ∀ k : Fin 4, k.val < lanesRead i → lane (widthRead i) a k = lane (widthRead i) b k) :
    namedLanes i a = namedLanes i b := by
  funext k
  unfold namedLanes
  split
  · next hk => exact h k hk
  · rfl

/-- The result holds `g` of the named lanes in the slots and at the width the instruction writes, and 0 elsewhere. -/
def WritesFromNamedLanes (i : Instr) (g : (Fin 4 → BitVec (widthRead i)) → Fin 4 → BitVec (widthWritten i)) : Prop :=
  ∀ (a : Bus) (k : Fin 4),
    slot (resultBus i a) k = if k.val < lanesWritten i then (g (namedLanes i a) k).setWidth 64 else 0

/-- What an instruction delivers on every state is its result bus. -/
theorem resultBus_of_exec {i : Instr} {f : Bus → Bus} (h : ∀ s, exec i s = deliver s (f s.a)) (a : Bus) :
    resultBus i a = f a := by
  rw [resultBus, h]
  rfl

/-- One integer in slot 0, made from the named lanes. -/
theorem exists_writes_of_scalar {i : Instr} (g : (Fin 4 → BitVec (widthRead i)) → BitVec (widthWritten i))
    (hn : lanesWritten i = 1) (h : ∀ s, exec i s = deliver s (busOfScalar ((g (namedLanes i s.a)).setWidth 64))) :
    ∃ g', WritesFromNamedLanes i g' := by
  refine ⟨fun v _ => g v, fun a k => ?_⟩
  rw [resultBus_of_exec (f := fun a => busOfScalar ((g (namedLanes i a)).setWidth 64)) h, slot_busOfScalar, hn]
  simp only [Nat.lt_one_iff]

/-- One lane in each slot written, each made from all the named lanes. -/
theorem exists_writes_of_lanes {i : Instr} (n : LaneCount)
    (g : (Fin 4 → BitVec (widthRead i)) → Fin 4 → BitVec (widthWritten i)) (hn : lanesWritten i = n.count)
    (h : ∀ s, exec i s = deliver s (busOfLanes n (g (namedLanes i s.a)))) :
    ∃ g', WritesFromNamedLanes i g' := by
  refine ⟨g, fun a k => ?_⟩
  rw [resultBus_of_exec (f := fun a => busOfLanes n (g (namedLanes i a))) h, slot_busOfLanes, hn]

/-- One lane in each slot written, each made from the lane of the same slot. -/
theorem exists_writes_of_lanewise {i : Instr} (n : LaneCount)
    (g : BitVec (widthRead i) → BitVec (widthWritten i)) (hr : lanesRead i = n.count) (hn : lanesWritten i = n.count)
    (h : ∀ s, exec i s = deliver s (busOfLanes n fun k => g (lane _ s.a k))) :
    ∃ g', WritesFromNamedLanes i g' := by
  refine ⟨fun v k => g (v k), fun a k => ?_⟩
  rw [resultBus_of_exec (f := fun a => busOfLanes n fun k => g (lane _ a k)) h, slot_busOfLanes, hn]
  split
  · next hk =>
    beta_reduce
    rw [namedLanes_of_lt (hr ▸ hk)]
  · rfl

/-- Every instruction has such a function: the one its rule states. -/
theorem exists_writesFromNamedLanes (i : Instr) : ∃ g, WritesFromNamedLanes i g := by
  cases i with
  | floatToBits | bitsToFloat => exact exists_writes_of_scalar (fun v => v 0) rfl fun _ => rfl
  | halfBitsToFloat => exact exists_writes_of_scalar (fun v => widenHalf (v 0)) rfl fun _ => rfl
  | floatToHalfBits => exact exists_writes_of_scalar (fun v => narrowFloat (v 0)) rfl fun _ => rfl
  | packUnorm b n f =>
    exact exists_writes_of_lanewise n (fun x => BitVec.ofInt b.bits (packUnormLane b f x)) rfl rfl fun _ => rfl
  | unpackUnorm b n f => exact exists_writes_of_lanewise n (unpackUnormLane b f) rfl rfl fun _ => rfl
  | packSnorm b n f =>
    exact exists_writes_of_lanewise n (fun x => BitVec.ofInt b.bits (packSnormLane b f x)) rfl rfl fun _ => rfl
  | unpackSnorm b n f => exact exists_writes_of_lanewise n (unpackSnormLane b f) rfl rfl fun _ => rfl
  | packHalf n => exact exists_writes_of_lanewise n narrowFloat rfl rfl fun _ => rfl
  | unpackHalf n => exact exists_writes_of_lanewise n widenHalf rfl rfl fun _ => rfl
  | packInt2x8 | packUint2x8 | packInt2x16 | packUint2x16 | packInt2x32 | packUint2x32 =>
    exact exists_writes_of_scalar (fun v => v 1 ++ v 0) rfl fun _ => rfl
  | packInt4x8 | packUint4x8 | packInt4x16 | packUint4x16 =>
    exact exists_writes_of_scalar (fun v => v 3 ++ v 2 ++ v 1 ++ v 0) rfl fun _ => rfl
  | unpackInt2x8 | unpackUint2x8 =>
    exact exists_writes_of_lanes .x2 (fun v k => (v 0).extractLsb' (8 * k.val) 8) rfl fun _ => rfl
  | unpackInt4x8 | unpackUint4x8 =>
    exact exists_writes_of_lanes .x4 (fun v k => (v 0).extractLsb' (8 * k.val) 8) rfl fun _ => rfl
  | unpackInt2x16 | unpackUint2x16 =>
    exact exists_writes_of_lanes .x2 (fun v k => (v 0).extractLsb' (16 * k.val) 16) rfl fun _ => rfl
  | unpackInt4x16 | unpackUint4x16 =>
    exact exists_writes_of_lanes .x4 (fun v k => (v 0).extractLsb' (16 * k.val) 16) rfl fun _ => rfl
  | unpackInt2x32 | unpackUint2x32 =>
    exact exists_writes_of_lanes .x2 (fun v k => (v 0).extractLsb' (32 * k.val) 32) rfl fun _ => rfl
  | packI3x10_1x2 =>
    refine exists_writes_of_scalar (fun v => packFields1010102 fun k => BitVec.ofInt (fieldWidth k)
      (clampInt (-2 ^ (fieldWidth k - 1)) (2 ^ (fieldWidth k - 1) - 1) (v k).toInt)) rfl fun _ => ?_
    rw [namedLanes_of_four rfl]
    rfl
  | packU3x10_1x2 =>
    refine exists_writes_of_scalar (fun v => packFields1010102 fun k => (v k).setWidth (fieldWidth k)) rfl
      fun _ => ?_
    rw [namedLanes_of_four rfl]
    rfl
  | unpackI3x10_1x2 =>
    exact exists_writes_of_lanes .x4 (fun v k => (packedField (v 0) k).signExtend 32) rfl fun _ => rfl
  | unpackU3x10_1x2 =>
    exact exists_writes_of_lanes .x4 (fun v k => (packedField (v 0) k).setWidth 32) rfl fun _ => rfl

/-- Two operand buses that agree on the named bits give the same result bus. -/
theorem resultBus_congr {i : Instr} {a b : Bus}
    (h : ∀ k : Fin 4, k.val < lanesRead i → lane (widthRead i) a k = lane (widthRead i) b k) :
    resultBus i a = resultBus i b := by
  obtain ⟨g, hg⟩ := exists_writesFromNamedLanes i
  refine bus_ext fun k => ?_
  rw [hg, hg, namedLanes_congr h]

/-- The slots above the lane count of a result are 0. -/
theorem zeroFrom_resultBus (i : Instr) (a : Bus) : ZeroFrom (resultBus i a) (lanesWritten i) := by
  obtain ⟨g, hg⟩ := exists_writesFromNamedLanes i
  intro k hk
  rw [hg, if_neg hk.not_gt]

/-- The bits of a slot above the width of a result are 0. -/
theorem slot_resultBus_lt (i : Instr) (a : Bus) (k : Fin 4) : (slot (resultBus i a) k).toNat < 2 ^ widthWritten i := by
  obtain ⟨g, hg⟩ := exists_writesFromNamedLanes i
  rw [hg]
  split
  · rw [BitVec.toNat_setWidth]
    exact (Nat.mod_le _ _).trans_lt (g (namedLanes i a) k).isLt
  · exact Nat.two_pow_pos _

/-! ## The inputs alone decide an evaluation (R31) -/

/-- CMD and A decide a step: what stands on Y and ILL before it does not. -/
theorem step_congr {s s' : State} (hc : s.cmd = s'.cmd) (ha : s.a = s'.a) : step s = step s' := by
  cases h : decode s.cmd with
  | ok i =>
    rw [step_of_ok h, step_of_ok (hc ▸ h), exec_eq_deliver, exec_eq_deliver, ha]
    exact congrArg _ (State.settle_congr hc ha _)
  | error e => rw [step_of_error h, step_of_error (hc ▸ h)]

/-- The ports and the result after an evaluation do not depend on the state the inputs are presented to. -/
theorem evaluate_congr (s s' : State) (c : CmdWord) (a : Bus) : evaluate s c a = evaluate s' c a := by
  have h : (s.present c a).evaluated = (s'.present c a).evaluated := State.evaluated_congr rfl rfl
  rw [evaluate, evaluate, h]

/-- Each result of a sequence of evaluations is that of its command evaluated alone, from whatever state. -/
theorem evaluateAll_eq_map (s' s : State) (l : List (CmdWord × Bus)) :
    evaluateAll s l = l.map fun p => (evaluate s' p.1 p.2).2 := by
  induction l generalizing s with
  | nil => rfl
  | cons p rest ih => rw [evaluateAll, List.map_cons, ih, evaluate_congr s s']

/-! ## The ports after an evaluation (R26, R30) -/

/-- A second evaluation of the inputs that stand changes nothing. -/
theorem State.evaluated_evaluated (s : State) : s.evaluated.evaluated = s.evaluated :=
  State.evaluated_congr (State.evaluated_cmd s) (State.evaluated_a s)

/-- The five reserved conditions of R65 are the complement of the legality check of R66. -/
theorem reserved_eq_not_legal (c : CmdWord) : WellFormed.reserved c = !WellFormed.legal c := by
  unfold WellFormed.legal
  simp only [WellFormed.reserved, WellFormed.reservedOp, WellFormed.reservedBitsSet, WellFormed.reservedWidth,
    WellFormed.unusedFieldS, WellFormed.unusedFieldH, WellFormed.isClassS, WellFormed.isClassV, WellFormed.isClassH]
  split_ifs <;> grind

/-- ILL is 1 exactly on a reserved word. -/
theorem illOutput_eq_reserved (c : CmdWord) : illOutput c = WellFormed.reserved c := by
  rw [reserved_eq_not_legal]
  cases h : WellFormed.legal c with
  | true =>
    obtain ⟨i, hi⟩ := decode_of_legal h
    exact illOutput_of_ok hi
  | false =>
    obtain ⟨e, he⟩ := decode_of_not_legal h
    exact illOutput_of_error he

/-- The result the host takes is Y, unless the word is reserved. -/
theorem evaluate_snd (s : State) (c : CmdWord) (a : Bus) :
    (evaluate s c a).2 = if WellFormed.reserved c then none else some (evaluate s c a).1.y := by
  rw [evaluate, State.evaluated_ill, State.present_cmd, illOutput_eq_reserved]

end Sys2Proof.Machine

namespace Sys2Proof.Proofs

open Sys2Proof.Machine

/-- Settles O16: both states deliver their result bus, and that reads the named bits alone. -/
theorem unnamedInputBitsAreIgnored : Obligations.UnnamedInputBitsAreIgnored := fun i s s' h =>
  ⟨_, _, exec_eq_deliver i s, exec_eq_deliver i s', resultBus_congr h⟩

/-- Settles O17: a result bus is 0 outside the slots and the width its instruction writes. -/
theorem unwrittenOutputBitsAreZero : Obligations.UnwrittenOutputBitsAreZero := fun i s =>
  ⟨_, exec_eq_deliver i s, zeroFrom_resultBus i s.a, slot_resultBus_lt i s.a⟩

/-- Settles O18: a step is decided by its inputs, its result by the named bits among them, and so each result of a sequence is that
of its command evaluated from the start. -/
theorem outcomeDependsOnInputsAlone : Obligations.OutcomeDependsOnInputsAlone := by
  refine ⟨fun _ _ => step_congr, ?_, ?_⟩
  · intro s s' i hc hi h
    have hs : step s = .next (s.settle (resultBus i s.a)) := (step_of_ok hi).trans (exec_eq_deliver i s)
    have hs' : step s' = .next (s'.settle (resultBus i s'.a)) := (step_of_ok (hc ▸ hi)).trans (exec_eq_deliver i s')
    exact ⟨_, _, hs, hs', resultBus_congr h, rfl⟩
  · intro s before cmd a
    rw [evaluateAll_eq_map State.reset, evaluateAll_eq_map State.reset, List.map_append, List.map_singleton]

/-- Settles O54: the inputs alone decide the ports after an evaluation, ILL is 1 exactly on a reserved word, and the host reads Y
beside ILL = 0. -/
theorem portsAfterEvaluation : Obligations.PortsAfterEvaluation := by
  intro s s' c a t
  have hill : t.ill = WellFormed.reserved c := (State.evaluated_ill _).trans (illOutput_eq_reserved c)
  refine ⟨State.evaluated_cmd _, State.evaluated_a _, by rw [hill], ?_, ?_, State.evaluated_evaluated _, ?_⟩
  · intro h
    rw [evaluate_snd, if_pos h]
  · intro h
    rw [evaluate_snd, h]
    rfl
  · rw [evaluate_congr s' s]

/-- Settles O22: command 0 decodes to `floatToBits`, whose result on the zero bus is the zero bus. -/
theorem resetIsSettled : Obligations.ResetIsSettled := by
  have hdec : decode State.reset.cmd = .ok .floatToBits := by decide
  have hstep : step State.reset = .next State.reset := (step_of_ok hdec).trans rfl
  exact ⟨⟨(illOutput_of_ok hdec).symm, hstep⟩, rfl⟩

end Sys2Proof.Proofs
end

section
/-! PROOFS for 20_memory.md: a packed integer is the number whose digits, in base 2^w, are its lanes, and the order of evaluations
changes no result. -/

namespace Sys2Proof.Machine

open Sys2Proof.Safety

/-! ## A packed integer as the number its lanes are the digits of (R41, R150) -/

/-- The four lanes of a bus at width w as digits in base 2^w, lane 0 first. -/
def laneDigits (w : Nat) (a : Bus) : List Nat := List.ofFn fun k => (lane w a k).toNat

theorem laneDigits_eq (w : Nat) (a : Bus) :
    laneDigits w a = [(lane w a 0).toNat, (lane w a 1).toNat, (lane w a 2).toNat, (lane w a 3).toNat] := rfl

theorem lt_of_mem_laneDigits {w : Nat} {a : Bus} {d : Nat} (h : d ∈ laneDigits w a) : d < 2 ^ w := by
  obtain ⟨k, rfl⟩ := List.mem_ofFn.mp h
  exact (lane w a k).isLt

/-- The first k digits are the first k lanes, lane j weighted by 2^(w·j). -/
theorem ofDigits_take_laneDigits (w : Nat) (a : Bus) {k : Nat} (hk : k ≤ 4) :
    Nat.ofDigits (2 ^ w) ((laneDigits w a).take k) =
      ∑ j : Fin 4, if j.val < k then (lane w a j).toNat * 2 ^ (w * j.val) else 0 := by
  rw [laneDigits_eq, Fin.sum_univ_four]
  interval_cases k <;> simp [Nat.ofDigits_cons, pow_mul] <;> ring

theorem laneCount_le_four (n : LaneCount) : n.count ≤ 4 := by
  cases n <;> decide

/-- A packed integer has its n lanes as digits. -/
theorem toNat_packUniform {n : LaneCount} {w : Nat} (hw : n.count * w ≤ 64) (a : Bus) :
    (slot (packUniform n w a) 0).toNat = Nat.ofDigits (2 ^ w) ((laneDigits w a).take n.count) := by
  rw [ofDigits_take_laneDigits w a (laneCount_le_four n), Fin.sum_univ_four]
  cases n with
  | x2 =>
    rw [toNat_packUniform_x2 (by simpa [two_mul] using hw)]
    simp
  | x4 =>
    rw [toNat_packUniform_x4 (by simp only [LaneCount.count] at hw; omega)]
    simp [LaneCount.count, mul_comm w]

/-! ## The low and the high part of a packed integer (R43) -/

/-- The low k·w bits of a packed integer are its first k lanes. -/
theorem toNat_packUniform_mod {n : LaneCount} {w k : Nat} (hw : n.count * w ≤ 64) (hk : k ≤ n.count) (a : Bus) :
    (slot (packUniform n w a) 0).toNat % 2 ^ (w * k) = Nat.ofDigits (2 ^ w) ((laneDigits w a).take k) := by
  rw [toNat_packUniform hw, pow_mul, Nat.ofDigits_mod_pow_eq_ofDigits_take k (Nat.two_pow_pos w) _
    fun _ h => lt_of_mem_laneDigits (List.mem_of_mem_take h), List.take_take, min_eq_left hk]

/-- The low half of a pack of four lanes is the pack of lanes 0 and 1. -/
theorem packUniform_x4_low_half {w : Nat} (hw : 4 * w ≤ 64) (a : Bus) :
    (slot (packUniform .x4 w a) 0).toNat % 2 ^ (w * 2) = (slot (packUniform .x2 w a) 0).toNat := by
  rw [toNat_packUniform_mod (n := .x4) hw (by decide), toNat_packUniform (n := .x2) (by simp only [LaneCount.count]; omega)]

/-- The high half of a pack of four lanes is the pack of lanes 2 and 3. -/
theorem packUniform_x4_high_half {w : Nat} (hw : 4 * w ≤ 64) (a : Bus) :
    (slot (packUniform .x4 w a) 0).toNat / 2 ^ (w * 2) =
      (slot (packUniform .x2 w (busOfList [slot a 2, slot a 3])) 0).toNat := by
  have hdigits : (laneDigits w a).drop 2 = (laneDigits w (busOfList [slot a 2, slot a 3])).take 2 := by
    simp [laneDigits_eq, lane]
  rw [toNat_packUniform (n := .x4) hw, toNat_packUniform (n := .x2) (by simp only [LaneCount.count]; omega), pow_mul,
    List.take_of_length_le (by simp [laneDigits_eq]),
    Nat.ofDigits_div_pow_eq_ofDigits_drop 2 (Nat.two_pow_pos w) _ fun _ => lt_of_mem_laneDigits, hdigits]

/-! ## The ten uniform packs (R150) -/

theorem exec_uniformPack {p : UniformPack} (hp : p ∈ uniformPacks) (s : State) :
    exec p.instr s = deliver s (packUniform p.lanes p.width s.a) := by
  fin_cases hp <;> rfl

/-- The lanes of a uniform pack fit in one slot. -/
theorem uniformPack_fits : ∀ p ∈ uniformPacks, p.lanes.count * p.width ≤ 64 := by
  decide

end Sys2Proof.Machine

namespace Sys2Proof.Proofs

open Sys2Proof.Machine

/-- Settles O19: each result of a sequence is that of its command evaluated from the start, from whatever state, so results are a
map over the sequence, and a map keeps permutations. -/
theorem evaluationOrderIsImmaterial : Obligations.EvaluationOrderIsImmaterial := by
  intro s s' l l' h
  refine ⟨evaluateAll_eq_map State.reset s l, ?_⟩
  rw [evaluateAll_eq_map State.reset s, evaluateAll_eq_map State.reset s']
  exact h.map _

/-- Settles O45: the digits of a packed integer in base 2^w are its lanes, so a remainder by a power of the base keeps the first of
them and a quotient the others. -/
theorem narrowerViewsSeeLowerLanes : Obligations.NarrowerViewsSeeLowerLanes := by
  refine ⟨fun p hp s k hk => ⟨_, exec_uniformPack hp s, ?_⟩, fun s => ?_, fun s => ?_⟩
  · rw [State.settle_y, toNat_packUniform_mod (uniformPack_fits p hp) hk,
      ofDigits_take_laneDigits _ _ (hk.trans (laneCount_le_four _))]
    simp only [toNat_lane]
  · exact ⟨_, _, _, rfl, rfl, rfl, packUniform_x4_low_half (by decide) s.a, packUniform_x4_high_half (by decide) s.a⟩
  · exact ⟨_, _, rfl, rfl, packUniform_x4_low_half (by decide) s.a⟩

end Sys2Proof.Proofs
end

section
/-! PROOFS for 30_encoding.md: the decoder and the encoder as inverses, the opcode table, the 80 legal words and the assembler's
texts. -/

namespace Sys2Proof

/-! ## The fields of a command word (R61, R62) -/

/-- A command word whose RSV is 0 is put together from its other four fields. -/
theorem commandWord_fields {c : CmdWord} (hr : rsvField c = 0) :
    commandWord (ftField c ++ lnField c ++ bwField c) (opField c) = c := by
  rw [commandWord, show 0#6 = rsvField c from hr.symm]
  simp only [rsvField, ftField, lnField, bwField, opField]
  ext j hj
  simp only [BitVec.getElem_append, BitVec.getElem_extractLsb']
  grind

theorem field_of_laneBitsOfField {v : BitVec 2} {b : LaneBits} (h : laneBitsOfField v = some b) : b.field = v := by
  cases b <;> revert v <;> decide

theorem field_laneCountOfField (v : BitVec 1) : (laneCountOfField v).field = v := by
  revert v
  decide

theorem field_laneFloatOfField (v : BitVec 1) : (laneFloatOfField v).field = v := by
  revert v
  decide

/-! ## A word with RSV = 0 is the encoder's, in each of the three classes (R64) -/

section Classes
variable {c : CmdWord} {i : Instr} {k : Nat}

theorem commandWord_fields_op (hr : rsvField c = 0) (hop : (opField c).toNat = k) :
    commandWord (ftField c ++ lnField c ++ bwField c) (BitVec.ofNat 6 k) = c := by
  rw [← hop, BitVec.ofNat_toNat, BitVec.setWidth_eq, commandWord_fields hr]

theorem encode_of_decodeS {j : Instr} (hr : rsvField c = 0) (hop : (opField c).toNat = k)
    (henc : encode j = commandWord 0#4 (BitVec.ofNat 6 k)) (h : decodeS c j = .ok i) : encode i = c := by
  unfold decodeS at h
  split at h
  · next hf =>
    obtain ⟨hb, hn, hft⟩ := hf
    cases h
    have hc := commandWord_fields_op hr hop
    rw [hb, hn, hft] at hc
    exact henc.trans hc
  · cases h

theorem encode_of_decodeV {mk : LaneBits → LaneCount → LaneFloat → Instr} (hr : rsvField c = 0)
    (hop : (opField c).toNat = k)
    (henc : ∀ b n f, encode (mk b n f) = commandWord (f.field ++ n.field ++ b.field) (BitVec.ofNat 6 k))
    (h : decodeV c mk = .ok i) : encode i = c := by
  unfold decodeV at h
  split at h
  · next b hb =>
    cases h
    rw [henc, field_laneFloatOfField, field_laneCountOfField, field_of_laneBitsOfField hb, commandWord_fields_op hr hop]
  · cases h

theorem encode_of_decodeH {mk : LaneCount → Instr} (hr : rsvField c = 0) (hop : (opField c).toNat = k)
    (henc : ∀ n, encode (mk n) = commandWord (0#1 ++ n.field ++ 0#2) (BitVec.ofNat 6 k))
    (h : decodeH c mk = .ok i) : encode i = c := by
  unfold decodeH at h
  split at h
  · next hf =>
    obtain ⟨hb, hft⟩ := hf
    cases h
    have hc := commandWord_fields_op hr hop
    rw [hb, hft] at hc
    rw [henc, field_laneCountOfField]
    exact hc
  · cases h

end Classes

/-! ## Decoder and encoder are inverses (R60 to R64) -/

theorem decode_encode (i : Instr) : decode (encode i) = .ok i := by
  cases i with
  | packUnorm b n f | unpackUnorm b n f | packSnorm b n f | unpackSnorm b n f => cases b <;> cases n <;> cases f <;> rfl
  | packHalf n | unpackHalf n => cases n <;> rfl
  | _ => rfl

theorem encode_of_decode {c : CmdWord} {i : Instr} (h : decode c = .ok i) : encode i = c := by
  unfold decode at h
  split at h
  · cases h
  · next hr =>
    have hr : rsvField c = 0 := not_not.mp hr
    split at h
    case h_5 hop | h_6 hop | h_7 hop | h_8 hop => exact encode_of_decodeV hr hop (fun _ _ _ => rfl) h
    case h_33 hop | h_34 hop => exact encode_of_decodeH hr hop (fun _ => rfl) h
    case h_35 => cases h
    all_goals
      next hop => exact encode_of_decodeS hr hop rfl h

theorem encode_injective : Function.Injective encode := fun i j h => by
  have hi : decode (encode j) = .ok i := h ▸ decode_encode i
  exact Except.ok.inj (hi.symm.trans (decode_encode j))

theorem exists_decode_iff_legal (c : CmdWord) : (∃ i, decode c = .ok i) ↔ WellFormed.legal c = true := by
  refine ⟨?_, decode_of_legal⟩
  rintro ⟨i, hi⟩
  rw [← decode_isOk, hi]
  rfl

theorem legal_encode (i : Instr) : WellFormed.legal (encode i) = true :=
  (exists_decode_iff_legal _).mp ⟨i, decode_encode i⟩

theorem legal_iff_exists_encode (c : CmdWord) : WellFormed.legal c = true ↔ ∃ i, encode i = c := by
  refine ⟨fun h => ?_, ?_⟩
  · obtain ⟨i, hi⟩ := decode_of_legal h
    exact ⟨i, encode_of_decode hi⟩
  · rintro ⟨i, rfl⟩
    exact legal_encode i

/-! ## The legality check by class (R66) -/

section Legal
variable {c : CmdWord}

theorem opNumber_lt_of_legal (h : WellFormed.legal c = true) : WellFormed.opNumber c < 0x22 := by
  unfold WellFormed.legal at h
  grind

theorem legal_of_classV (hr : WellFormed.rsvField c = 0) (hop : 0x04 ≤ WellFormed.opNumber c ∧ WellFormed.opNumber c ≤ 0x07)
    (hb : WellFormed.bwField c ≠ 3) : WellFormed.legal c = true := by
  unfold WellFormed.legal
  grind

theorem legal_of_classH (hr : WellFormed.rsvField c = 0) (hop : 0x20 ≤ WellFormed.opNumber c ∧ WellFormed.opNumber c ≤ 0x21)
    (hb : WellFormed.bwField c = 0) (hf : WellFormed.ftField c = 0) : WellFormed.legal c = true := by
  unfold WellFormed.legal
  grind

end Legal

end Sys2Proof

namespace Sys2Proof.Safety

open Sys2Proof.Machine

/-! ## The opcode table (R63) -/

/-- The mask of an instruction's row: every bit but those of the fields that its class leaves free (R64). -/
def rowMask : Instr → CmdWord
  | .packUnorm _ _ _ | .unpackUnorm _ _ _ | .packSnorm _ _ _ | .unpackSnorm _ _ _ => 0xFC3F
  | .packHalf _ | .unpackHalf _ => 0xFEFF
  | _ => 0xFFFF

/-- The row that the encoder's word of an instruction has. -/
def rowOf (i : Instr) : OpcodeRow := ⟨mnemonic i, rowMask i, encode i &&& rowMask i⟩

/-- The table lists its rows by operation number. -/
theorem opcodeTable_opNumber (i : Instr) : opcodeTable[WellFormed.opNumber (encode i)]? = some (rowOf i) := by
  cases i with
  | packUnorm b n f | unpackUnorm b n f | packSnorm b n f | unpackSnorm b n f => cases b <;> cases n <;> cases f <;> rfl
  | packHalf n | unpackHalf n => cases n <;> rfl
  | _ => rfl

theorem rowOf_mem_opcodeTable (i : Instr) : rowOf i ∈ opcodeTable := List.mem_of_getElem? (opcodeTable_opNumber i)

theorem rowOf_has_encode (i : Instr) : (rowOf i).has (encode i) := rfl

theorem bwField_encode_ne_three {i : Instr} (h : rowMask i = 0xFC3F) : WellFormed.bwField (encode i) ≠ 3 := by
  cases i with
  | packUnorm b n f | unpackUnorm b n f | packSnorm b n f | unpackSnorm b n f =>
    cases b <;> cases n <;> cases f <;> decide
  | packHalf n | unpackHalf n => exact absurd h (show (0xFEFF : CmdWord) ≠ 0xFC3F by decide)
  | _ => exact absurd h (by decide)

/-- Where a row's mask covers a field, a word of the row has the pattern's field. -/
theorem OpcodeRow.has.extract_eq {r : OpcodeRow} {c : CmdWord} (h : r.has c) {start len : Nat}
    (hm : r.mask.extractLsb' start len = BitVec.allOnes len) :
    c.extractLsb' start len = r.pattern.extractLsb' start len := by
  rw [← show c &&& r.mask = r.pattern from h, BitVec.extractLsb'_and, hm, BitVec.and_allOnes]

/-- Every row fixes OP and RSV. -/
theorem opcodeTable_masks : ∀ r ∈ opcodeTable, opField r.mask = BitVec.allOnes 6 ∧ rsvField r.mask = BitVec.allOnes 6 ∧
    rsvField r.pattern = 0 := by
  decide

/-- The three masks, one for each class, and what stands beside each in the match column (R64). -/
theorem opcodeTable_classes : ∀ r ∈ opcodeTable,
    (r.mask = 0xFFFF ∧ WellFormed.legal r.pattern = true) ∨
    (r.mask = 0xFC3F ∧ 0x04 ≤ WellFormed.opNumber r.pattern ∧ WellFormed.opNumber r.pattern ≤ 0x07) ∨
    (r.mask = 0xFEFF ∧ (0x20 ≤ WellFormed.opNumber r.pattern ∧ WellFormed.opNumber r.pattern ≤ 0x21) ∧
      bwField r.pattern = 0 ∧ ftField r.pattern = 0) := by
  decide

theorem nodup_map_opcodeTable_op : (opcodeTable.map fun r => opField r.pattern).Nodup := by
  decide

section Rows
variable {r q : OpcodeRow} {c : CmdWord}

theorem opField_of_has (hr : r ∈ opcodeTable) (h : r.has c) : opField c = opField r.pattern :=
  h.extract_eq (opcodeTable_masks r hr).1

/-- No word has two rows' patterns, since the rows differ in OP. -/
theorem eq_of_has (hr : r ∈ opcodeTable) (hq : q ∈ opcodeTable) (h : r.has c) (h' : q.has c) : r = q :=
  List.inj_on_of_nodup_map nodup_map_opcodeTable_op hr hq ((opField_of_has hr h).symm.trans (opField_of_has hq h'))

/-- A word of a row is legal, unless it is of class V with BW = 3. -/
theorem legal_of_has (hr : r ∈ opcodeTable) (h : r.has c) (hV : ¬ (r.mask = 0xFC3F ∧ WellFormed.bwField c = 3)) :
    WellFormed.legal c = true := by
  obtain ⟨-, hmask, hpat⟩ := opcodeTable_masks r hr
  have hrsv : WellFormed.rsvField c = 0 := by
    rw [← toNat_rsvField, show rsvField c = _ from h.extract_eq hmask, show r.pattern.extractLsb' 10 6 = 0 from hpat]
    rfl
  have hop : WellFormed.opNumber c = WellFormed.opNumber r.pattern := by
    rw [← toNat_opField, ← toNat_opField, opField_of_has hr h]
  obtain ⟨hm, hlegal⟩ | ⟨hm, hclass⟩ | ⟨hm, hclass, hbw, hft⟩ := opcodeTable_classes r hr
  · have hc : c &&& 0xFFFF = r.pattern := hm ▸ h
    rwa [← hc, show (0xFFFF : CmdWord) = BitVec.allOnes 16 from rfl, BitVec.and_allOnes] at hlegal
  · exact legal_of_classV hrsv (hop ▸ hclass) fun hb => hV ⟨hm, hb⟩
  · have hb : bwField c = 0 := (h.extract_eq (by rw [hm]; rfl)).trans hbw
    have hf : ftField c = 0 := (h.extract_eq (by rw [hm]; rfl)).trans hft
    exact legal_of_classH hrsv (hop ▸ hclass) (by rw [← toNat_bwField, hb]; rfl) (by rw [← toNat_ftField, hf]; rfl)

end Rows

end Sys2Proof.Safety

namespace Sys2Proof.Machine

/-! ## The 80 instructions and their texts (R66, R68) -/

theorem mem_allInstrs (i : Instr) : i ∈ allInstrs := by
  cases i with
  | packUnorm b n f | unpackUnorm b n f | packSnorm b n f | unpackSnorm b n f =>
    cases b <;> cases n <;> cases f <;> decide
  | packHalf n | unpackHalf n => cases n <;> decide
  | _ => decide

theorem nodup_allInstrs : allInstrs.Nodup := by
  decide

/-- The 80 texts differ. -/
theorem nodup_map_asm : (allInstrs.map asm).Nodup := by
  decide +kernel

theorem asm_injective : Function.Injective asm := fun i j =>
  List.inj_on_of_nodup_map nodup_map_asm (mem_allInstrs i) (mem_allInstrs j)

theorem find?_asm (i : Instr) : allInstrs.find? (fun j => asm j = asm i) = some i := by
  cases h : allInstrs.find? (fun j => asm j = asm i) with
  | none => simpa using List.find?_eq_none.mp h i (mem_allInstrs i)
  | some j =>
    have hj : asm j = asm i := by simpa using List.find?_some h
    rw [asm_injective hj]

end Sys2Proof.Machine

namespace Sys2Proof.Proofs

open Sys2Proof.Machine
open Sys2Proof.Safety

/-- Settles O7: the decoder reads each field that the encoder writes, and a word it accepts is put together from the fields it
read. -/
theorem decodeEncodeAgree : Obligations.DecodeEncodeAgree := ⟨decode_encode, fun _ _ => encode_of_decode⟩

/-- Settles O6: a word that decodes is its instruction's, which has that instruction's row, and a word of a row is legal unless it
has the reserved width; the rows differ in OP. -/
theorem operationMapIsTheTable : Obligations.OperationMapIsTheTable := by
  refine ⟨?_, ?_, ?_, ?_⟩
  · intro c i h
    obtain rfl := encode_of_decode h
    exact ⟨rowOf i, rowOf_mem_opcodeTable i, rfl, rowOf_has_encode i, bwField_encode_ne_three⟩
  · intro r hr c h
    by_cases hV : r.mask = 0xFC3F ∧ WellFormed.bwField c = 3
    · exact .inr hV
    · obtain ⟨i, hi⟩ := decode_of_legal (legal_of_has hr h hV)
      have hrow : (rowOf i).has c := encode_of_decode hi ▸ rowOf_has_encode i
      rw [eq_of_has hr (rowOf_mem_opcodeTable i) h hrow]
      exact .inl ⟨i, hi, rfl⟩
  · refine (List.pairwise_map.mp nodup_map_opcodeTable_op).imp_of_mem fun hr hq hne c h => ?_
    exact hne ((opField_of_has hr h.1).symm.trans (opField_of_has hq h.2))
  · intro c hop i hi
    exact absurd (opNumber_lt_of_legal ((exists_decode_iff_legal c).mp ⟨i, hi⟩)) (Nat.not_lt.mpr hop)

/-- Settles O8: the five conditions are `WellFormed.reserved`, the complement of the legality check, and O13 gives the outcome on
either side of that. -/
theorem reservedWordsAreRefused : Obligations.ReservedWordsAreRefused := by
  intro s c condition
  have hcond : condition ↔ WellFormed.legal c = false := by
    rw [← Bool.not_eq_true', ← reserved_eq_not_legal]
    simp [condition, WellFormed.reserved, WellFormed.reservedOp, WellFormed.reservedBitsSet, WellFormed.reservedWidth,
      WellFormed.unusedFieldS, WellFormed.unusedFieldH, or_assoc]
  obtain ⟨hlegal, hreserved⟩ := twoOutcomes s
  constructor
  · intro h
    exact (hreserved (hcond.mp h)).symm
  · intro h
    obtain ⟨hill, -, t, -, -, ht, -⟩ := hlegal (Bool.not_eq_false _ ▸ mt hcond.mpr h)
    exact ⟨⟨t, ht⟩, hill⟩

/-- Settles O9: the legal words are the encoder's, the encoder is injective, and the 80 instructions are all there are. -/
theorem eightyLegalWords : Obligations.EightyLegalWords := by
  refine ⟨exists_decode_iff_legal, fun c => ?_, nodup_allInstrs.map encode_injective, rfl, rfl, by decide, rfl, by decide, rfl,
    by decide⟩
  simp only [legal_iff_exists_encode, List.mem_map, mem_allInstrs, true_and]

/-- Settles O10: the 80 texts differ, so the search for a text finds the command it was written for. -/
theorem commandTextNamesOneWord : Obligations.CommandTextNamesOneWord := by
  refine ⟨fun i => ?_, fun _ _ h => asm_injective h⟩
  rw [assemble, find?_asm, Option.map_some]

/-- Settles O11: the ten legal words are the encoder's of the instructions beside them, and the decoder refuses the other four. -/
theorem exampleWordsDecode : Obligations.ExampleWordsDecode :=
  ⟨decode_encode .floatToBits, decode_encode .floatToHalfBits, decode_encode (.packUnorm .b8 .x4 .f32),
    decode_encode (.unpackUnorm .b16 .x2 .f32), decode_encode (.packSnorm .b16 .x2 .f64),
    decode_encode (.unpackSnorm .b32 .x4 .f64), decode_encode .packUint4x8, decode_encode .packI3x10_1x2,
    decode_encode (.packHalf .x4), decode_encode (.unpackHalf .x2), rfl, rfl, rfl, rfl⟩

end Sys2Proof.Proofs
end

section
/-! PROOFS for 40_bitcast_half_scalar.md, results: the result of a scalar operation as slot and lane 0, a result carried to the next
command, and the two bitcasts. -/

namespace Sys2Proof.Machine

open Sys2Proof.Safety

/-! ## A result in slot 0 (R27, R29), carried to the next command (R254) -/

theorem frame_settle (s : State) (y : Bus) : Frame s (s.settle y) := ⟨rfl, rfl, rfl⟩

theorem zeroFrom_busOfScalar (v : Slot) : ZeroFrom (busOfScalar v) 1 := by
  intro i hi
  rw [slot_busOfScalar, if_neg (by omega)]

theorem slot_busOfScalar_zero (v : Slot) : slot (busOfScalar v) 0 = v := slot_busOfScalar v 0

theorem lane_busOfScalar {w : Nat} (v : BitVec w) (hw : w ≤ 64) : lane w (busOfScalar (v.setWidth 64)) 0 = v := by
  rw [lane, slot_busOfScalar_zero, BitVec.setWidth_setWidth_of_le v hw, BitVec.setWidth_eq]

theorem toNat_slot_busOfScalar_lt {w : Nat} (v : BitVec w) : (slot (busOfScalar (v.setWidth 64)) 0).toNat < 2 ^ w := by
  rw [slot_busOfScalar_zero, BitVec.toNat_setWidth]
  exact (Nat.mod_le _ _).trans_lt v.isLt

theorem toNat_slot_busOfScalar_lane {w : Nat} (a : Bus) (k : Fin 4) (hw : w ≤ 64) :
    (slot (busOfScalar ((lane w a k).setWidth 64)) 0).toNat = (slot a k).toNat % 2 ^ w := by
  rw [slot_busOfScalar_zero, BitVec.toNat_setWidth_of_le hw, toNat_lane]

/-- The second of two piped commands reads the result bus of the first. -/
theorem pipe_eq (i j : Instr) (s : State) : pipe i j s = some (resultBus j (resultBus i s.a)) := by
  simp only [pipe, exec_eq_deliver, deliver, State.present_a, State.settle_y]

/-- A worked example is one result bus. -/
theorem gives_of_resultBus {i : Instr} {operands results : List Slot}
    (h : resultBus i (busOfList operands) = busOfList results) : Gives i operands results :=
  fun s hs => ⟨_, exec_eq_deliver i s, (congrArg (resultBus i) hs).trans h⟩

end Sys2Proof.Machine

namespace Sys2Proof.Proofs

open Sys2Proof.Machine

/-- Settles O24: the result is lane 0 of the operand bus, zero-extended. -/
theorem floatToBitsPassesEveryPattern : Obligations.FloatToBitsPassesEveryPattern :=
  ⟨decode_encode .floatToBits,
    fun s => ⟨_, rfl, frame_settle _ _, zeroFrom_busOfScalar _, toNat_slot_busOfScalar_lane s.a 0 (by decide)⟩,
    gives_of_resultBus (by decide)⟩

/-- Settles O25: both bitcasts pass lane 0, so one after the other passes it twice. -/
theorem bitsToFloatInvertsFloatToBits : Obligations.BitsToFloatInvertsFloatToBits := by
  have hlane : ∀ a : Bus, lane 32 (busOfScalar ((lane 32 a 0).setWidth 64)) 0 = lane 32 a 0 := fun a =>
    lane_busOfScalar _ (by decide)
  refine ⟨decode_encode .bitsToFloat,
    fun s => ⟨_, rfl, frame_settle _ _, zeroFrom_busOfScalar _, toNat_slot_busOfScalar_lane s.a 0 (by decide)⟩,
    fun s => ⟨_, _, pipe_eq _ _ s, pipe_eq _ _ s, ?_, ?_⟩, gives_of_resultBus (by decide)⟩
  · exact (hlane _).trans (hlane s.a)
  · exact (hlane _).trans (hlane s.a)

end Sys2Proof.Proofs
end

section
/-! PROOFS for 40_bitcast_half_scalar.md, formats: a pattern is its sign and value, a value of a format rounds to itself, and how far
rounding moves a rational (R16, R17). -/

namespace Sys2Proof.Machine

section

variable {F : FloatFmt} {b c : BitVec F.width} {r z : Rat}

/-! ## A pattern is its sign and its value (R16) -/

/-- Two patterns of one sign and one value are equal, the zeros among them. -/
theorem eq_of_decodeF_eq (hs : signBit F b = signBit F c) (hnan : decodeF F c ≠ .nan) (h : decodeF F b = decodeF F c) :
    b = c := by
  cases hc : decodeF F c with
  | nan => exact absurd hc hnan
  | inf neg =>
    obtain ⟨heb, htb, -⟩ := decodeF_eq_inf.mp (h.trans hc)
    obtain ⟨hec, htc, -⟩ := decodeF_eq_inf.mp hc
    exact pattern_ext hs (heb.trans hec.symm) (htb.trans htc.symm)
  | finite z =>
    obtain ⟨he, ht⟩ := fields_eq_of_patMag_eq ((abs_of_finite (h.trans hc)).symm.trans (abs_of_finite hc))
    exact pattern_ext hs he ht

/-- The sign of a value is its pattern's sign bit, except at 0, where only the pattern has one. -/
theorem signBit_of_finite (h : decodeF F b = .finite z) (hz : z ≠ 0) : BitVec.ofBool (decide (z < 0)) = signBit F b := by
  have hval := (decodeF_eq_finite.mp h).2
  have hpos : 0 < patMag F b := (abs_of_finite h) ▸ abs_pos.mpr hz
  have hbit : signBit F b = 0#1 ∨ signBit F b = 1#1 := BitVec.eq_zero_or_eq_one _
  rcases hbit with hb | hb
  · rw [hb, signFactor, if_neg (by decide), one_mul] at hval
    rw [hb, hval, decide_eq_false hpos.not_gt]
    rfl
  · rw [hb, signFactor, if_pos (by decide), neg_one_mul] at hval
    rw [hb, hval, decide_eq_true (neg_lt_zero.mpr hpos)]
    rfl

theorem signBit_rne_of_finite {G : FloatFmt} (h : decodeF F b = .finite z) :
    signBit G (rne G z (signBit F b)) = signBit F b := by
  rw [signBit_rne]
  split
  · rfl
  · next hz => exact signBit_of_finite h hz

/-! ## A value of a format rounds to itself (R17) -/

/-- Every finite value of a format lies below the format's overflow bound. -/
theorem abs_lt_overflowBound (h : decodeF F b = .finite z) : |z| < Safety.overflowBound F := by
  obtain ⟨he, -⟩ := decodeF_eq_finite.mp h
  have hE : 2 * F.bias + 2 = 2 ^ F.expBits := by cases F <;> rfl
  have hexp : patExp F b ≤ F.bias := by
    have := (expField F b).isLt
    have hb : 1 ≤ F.bias := by cases F <;> decide
    unfold patExp
    split <;> omega
  have hsig : patSig F b + 1 ≤ 2 ^ (F.fracBits + 1) := by
    have := (fracField F b).isLt
    unfold patSig
    rw [pow_succ]
    split <;> omega
  have hsigQ : (patSig F b : Rat) < ((2 ^ (F.fracBits + 1) : Nat) : Rat) - 1 / 2 := by
    have : (patSig F b : Rat) + 1 ≤ ((2 ^ (F.fracBits + 1) : Nat) : Rat) := by exact_mod_cast hsig
    linarith
  have hunit : (2 : Rat) ^ ((F.bias : Int) - F.fracBits) * (2 : Rat) ^ ((F.fracBits : Int) - F.bias) = 1 := by
    rw [← zpow_add₀ two_ne_zero, sub_add_sub_cancel, sub_self, zpow_zero]
  rw [abs_of_finite h]
  calc patMag F b ≤ patSig F b * (2 : Rat) ^ ((F.bias : Int) - F.fracBits) :=
        mul_le_mul_of_nonneg_left (zpow_le_zpow_right₀ (by norm_num) (by omega)) (by positivity)
    _ < (Safety.overflowBound F * (2 : Rat) ^ ((F.fracBits : Int) - F.bias)) * (2 : Rat) ^ ((F.bias : Int) - F.fracBits) := by
        rw [overflowBound_scaled]
        exact mul_lt_mul_of_pos_right hsigQ (by positivity)
    _ = Safety.overflowBound F := by rw [mul_assoc, mul_comm _ ((2 : Rat) ^ ((F.bias : Int) - F.fracBits)), hunit, mul_one]

/-- A value of a format is its own nearest value. -/
theorem decodeF_rne_of_finite (h : decodeF F c = .finite z) (s0 : BitVec 1) : decodeF F (rne F z s0) = .finite z := by
  obtain ⟨y, hy, hnear⟩ := decodeF_rne_of_lt_overflowBound s0 (abs_lt_overflowBound h)
  have hle := (hnear c z h).1
  rw [sub_self, abs_zero] at hle
  rw [hy, sub_eq_zero.mp (abs_nonpos_iff.mp hle)]

/-! ## The exponent the rounding works at (R17) -/

theorem floorLog2_eq {k : Int} (hlo : (2 : Rat) ^ k ≤ r) (hhi : r < (2 : Rat) ^ (k + 1)) : floorLog2 r = k := by
  obtain ⟨hl, hu⟩ := floorLog2_spec (lt_of_lt_of_le (by positivity) hlo)
  have h1 := (zpow_lt_zpow_iff_right₀ (by norm_num : (1 : Rat) < 2)).mp (hlo.trans_lt hu)
  have h2 := (zpow_lt_zpow_iff_right₀ (by norm_num : (1 : Rat) < 2)).mp (hl.trans_lt hhi)
  omega

/-- From the least exponent up, the working exponent is the magnitude's own. -/
theorem rneExp_eq {k : Int} (hk : 1 - (F.bias : Int) ≤ k) (hlo : (2 : Rat) ^ k ≤ |r|) (hhi : |r| < (2 : Rat) ^ (k + 1)) :
    rneExp F r = k := by
  rw [rneExp, floorLog2_eq hlo hhi, max_eq_left hk]

/-- Below the normal range the working exponent is the least one. -/
theorem rneExp_of_subnormal (hr : r ≠ 0) (h : |r| < (2 : Rat) ^ (1 - (F.bias : Int))) : rneExp F r = 1 - F.bias := by
  have hlog := (floorLog2_spec (abs_pos.mpr hr)).1.trans_lt h
  rw [zpow_lt_zpow_iff_right₀ (by norm_num)] at hlog
  exact max_eq_right hlog.le

/-! ## How far rounding moves a rational (R17) -/

/-- Below the overflow bound, rounding moves a rational by at most half a unit at the working exponent. -/
theorem rne_error (s0 : BitVec 1) (hr : r ≠ 0) (h : |r| < Safety.overflowBound F) :
    ∃ y, decodeF F (rne F r s0) = .finite y ∧ |y - r| ≤ (2 : Rat) ^ (rneExp F r - F.fracBits - 1) := by
  refine ⟨_, decodeF_rne s0 hr (rneSig_lt_of_lt_overflowBound hr h), ?_⟩
  have hsign : r = (if r < 0 then -1 else 1) * (scaledMag F r * (2 : Rat) ^ (rneExp F r - F.fracBits)) := by
    rw [scaledMag_mul_unit]
    split
    · next hneg => rw [abs_of_neg hneg, neg_one_mul, neg_neg]
    · next hpos => rw [abs_of_nonneg (not_lt.mp hpos), one_mul]
  have hone : |(if r < 0 then -1 else 1 : Rat)| = 1 := by split <;> simp
  have hdiff : (if r < 0 then -1 else 1) * (rneSig F r : Rat) * (2 : Rat) ^ (rneExp F r - F.fracBits) - r =
      (if r < 0 then -1 else 1) * (((rneSig F r : Rat) - scaledMag F r) * (2 : Rat) ^ (rneExp F r - F.fracBits)) := by
    linear_combination -hsign
  rw [hdiff, abs_mul, hone, one_mul, abs_mul, abs_of_pos (a := (2 : Rat) ^ _) (by positivity), zpow_sub_one₀ two_ne_zero,
    mul_comm _ (2⁻¹ : Rat), ← one_div]
  exact mul_le_mul_of_nonneg_right (rneSig_spec F r).1 (by positivity)

/-- A magnitude in the normal range moves by at most 2^-(T+1) of itself. -/
theorem rne_error_of_normal (s0 : BitVec 1) (hlo : (2 : Rat) ^ (1 - (F.bias : Int)) ≤ |r|)
    (h : |r| < Safety.overflowBound F) :
    ∃ y, decodeF F (rne F r s0) = .finite y ∧ |y - r| ≤ (2 : Rat) ^ (-(F.fracBits : Int) - 1) * |r| := by
  have hpos : 0 < |r| := lt_of_lt_of_le (by positivity) hlo
  obtain ⟨y, hy, herr⟩ := rne_error s0 (abs_pos.mp hpos) h
  have hexp : (2 : Rat) ^ rneExp F r ≤ |r| := by
    unfold rneExp
    rcases max_choice (floorLog2 |r|) (1 - (F.bias : Int)) with hm | hm
    · rw [hm]
      exact (floorLog2_spec hpos).1
    · rwa [hm]
  refine ⟨y, hy, herr.trans ?_⟩
  rw [show rneExp F r - (F.fracBits : Int) - 1 = (-(F.fracBits : Int) - 1) + rneExp F r by ring, zpow_add₀ two_ne_zero]
  exact mul_le_mul_of_nonneg_left hexp (by positivity)

/-- A magnitude below the normal range moves by at most half the least subnormal. -/
theorem rne_error_of_subnormal (s0 : BitVec 1) (h : |r| < (2 : Rat) ^ (1 - (F.bias : Int))) :
    ∃ y, decodeF F (rne F r s0) = .finite y ∧ |y - r| ≤ (2 : Rat) ^ (1 - (F.bias : Int) - F.fracBits - 1) := by
  rcases eq_or_ne r 0 with rfl | hr
  · exact ⟨0, decodeF_rne_zero s0, by simp [zpow_nonneg]⟩
  · have hlt : (2 : Rat) ^ (1 - (F.bias : Int)) ≤ (2 : Rat) ^ F.bias := by
      rw [← zpow_natCast]
      exact zpow_le_zpow_right₀ (by norm_num) (by cases F <;> decide)
    rw [← rneExp_of_subnormal hr h]
    exact rne_error s0 hr ((h.trans_le hlt).trans_le two_pow_bias_le_overflowBound)

/-- Half the least subnormal and everything below it rounds to 0, the tie among them. -/
theorem decodeF_rne_of_tiny (s0 : BitVec 1) (h : |r| ≤ (2 : Rat) ^ (1 - (F.bias : Int) - F.fracBits - 1)) :
    decodeF F (rne F r s0) = .finite 0 := by
  rcases eq_or_ne r 0 with rfl | hr
  · exact decodeF_rne_zero s0
  · have hsub : |r| < (2 : Rat) ^ (1 - (F.bias : Int)) :=
      h.trans_lt (zpow_lt_zpow_right₀ (by norm_num) (by omega))
    have hexp := rneExp_of_subnormal hr hsub
    have hscaled : scaledMag F r ≤ 1 / 2 := by
      calc scaledMag F r
          ≤ (2 : Rat) ^ (1 - (F.bias : Int) - F.fracBits - 1) * (2 : Rat) ^ ((F.fracBits : Int) - (1 - F.bias)) := by
            rw [scaledMag, hexp]
            exact mul_le_mul_of_nonneg_right h (by positivity)
        _ = 1 / 2 := by
            rw [← zpow_add₀ two_ne_zero, show 1 - (F.bias : Int) - F.fracBits - 1 + (F.fracBits - (1 - F.bias)) = -1 by ring]
            norm_num
    -- the significand 1 is odd, and could only be chosen at the tie
    have hsig : rneSig F r = 0 := by
      obtain ⟨hhalf, heven⟩ := rneSig_spec F r
      have hle := (abs_le.mp hhalf).2
      have hone : rneSig F r ≤ 1 := by exact_mod_cast (show (rneSig F r : Rat) ≤ 1 by linarith)
      rcases Nat.le_one_iff_eq_zero_or_eq_one.mp hone with h0 | h1
      · exact h0
      · rw [h1, Nat.cast_one] at hle heven
        exact absurd (heven (by rw [abs_of_nonneg (by linarith)]; linarith)) (by decide)
    rw [decodeF_rne s0 hr (by rw [hsig, Nat.cast_zero, zero_mul]; positivity), hsig, Nat.cast_zero, mul_zero, zero_mul]

end

end Sys2Proof.Machine
end

section
/-! PROOFS for 40_bitcast_half_scalar.md, the converters: what the widening of R102 and the narrowing of R103 do to a pattern's sign,
value and NaN payload, and their round trips (R104, R105). -/

namespace Sys2Proof.Machine

/-! ## Packed fields as a concatenation (R15) -/

theorem packFields_binary16 (s : BitVec 1) (e : BitVec 5) (t : BitVec 10) : packFields .binary16 s e t = s ++ e ++ t :=
  BitVec.setWidth_eq _

theorem packFields_binary32 (s : BitVec 1) (e : BitVec 8) (t : BitVec 23) : packFields .binary32 s e t = s ++ e ++ t :=
  BitVec.setWidth_eq _

theorem toNat_append_zeros {n : Nat} (m : BitVec n) (k : Nat) : (m ++ 0#k).toNat = m.toNat * 2 ^ k := by
  rw [toNat_append_add, BitVec.toNat_ofNat, Nat.zero_mod, Nat.zero_add]

/-! ## The widening, branch by branch (R102) -/

section Widen

variable {h : BitVec 16}

theorem widenHalf_of_max (he : expField .binary16 h = 31) :
    widenHalf h = packFields .binary32 (signBit .binary16 h) 0xFF (fracField .binary16 h ++ 0#13) :=
  (if_pos he).trans (packFields_binary32 _ _ _).symm

theorem widenHalf_of_zero (he : expField .binary16 h = 0) (hm : fracField .binary16 h = 0) :
    widenHalf h = packFields .binary32 (signBit .binary16 h) 0 0 := by
  have hzeros : ∀ s : BitVec 1, s ++ 0#31 = packFields .binary32 s 0 0 := by decide
  have he31 : expField .binary16 h ≠ 31 := by rw [he]; decide
  exact (if_neg he31).trans ((if_pos he).trans ((if_pos hm).trans (hzeros _)))

theorem widenHalf_of_subnormal (he : expField .binary16 h = 0) (hm : fracField .binary16 h ≠ 0) :
    widenHalf h = packFields .binary32 (signBit .binary16 h)
      (BitVec.ofNat 8 (113 - (normalizeHalf 10 ((fracField .binary16 h).setWidth 11) 0).2))
      ((normalizeHalf 10 ((fracField .binary16 h).setWidth 11) 0).1.extractLsb' 0 10 ++ 0#13) := by
  have he31 : expField .binary16 h ≠ 31 := by rw [he]; decide
  exact (if_neg he31).trans ((if_pos he).trans ((if_neg hm).trans (packFields_binary32 _ _ _).symm))

theorem widenHalf_of_normal (he31 : expField .binary16 h ≠ 31) (he : expField .binary16 h ≠ 0) :
    widenHalf h = packFields .binary32 (signBit .binary16 h) (BitVec.ofNat 8 ((expField .binary16 h).toNat + 112))
      (fracField .binary16 h ++ 0#13) :=
  (if_neg he31).trans ((if_neg he).trans (packFields_binary32 _ _ _).symm)

/-- The widening keeps the sign bit. -/
theorem signBit_widenHalf (h : BitVec 16) : signBit .binary32 (widenHalf h) = signBit .binary16 h := by
  by_cases he31 : expField .binary16 h = 31
  · rw [widenHalf_of_max he31, signBit_packFields]
  · by_cases he : expField .binary16 h = 0
    · by_cases hm : fracField .binary16 h = 0
      · rw [widenHalf_of_zero he hm, signBit_packFields]
      · rw [widenHalf_of_subnormal he hm, signBit_packFields]
    · rw [widenHalf_of_normal he31 he, signBit_packFields]

/-- The normalising loop shifts by the least j that sets bit 10, when its bound allows that many turns. -/
theorem normalizeHalf_spec (fuel : Nat) (m : BitVec 11) (k : Nat) (hm : 2 ^ 10 ≤ m.toNat * 2 ^ fuel) :
    ∃ j ≤ fuel, 2 ^ 10 ≤ m.toNat * 2 ^ j ∧ (normalizeHalf fuel m k).1.toNat = m.toNat * 2 ^ j ∧
      (normalizeHalf fuel m k).2 = k + j := by
  induction fuel generalizing m k with
  | zero => exact ⟨0, le_rfl, hm, by simp [normalizeHalf], rfl⟩
  | succ fuel ih =>
    have hbit : m.getLsbD 10 = decide (2 ^ 10 ≤ m.toNat) := BitVec.msb_eq_decide m
    by_cases htop : 2 ^ 10 ≤ m.toNat
    · rw [normalizeHalf, hbit, decide_eq_true htop, if_pos rfl]
      exact ⟨0, Nat.zero_le _, by simpa using htop, by simp, rfl⟩
    · have hdouble : (m <<< 1).toNat = m.toNat * 2 := by
        rw [BitVec.toNat_shiftLeft, Nat.shiftLeft_eq]
        omega
      rw [normalizeHalf, hbit, decide_eq_false htop, if_neg Bool.false_ne_true]
      obtain ⟨j, hj, hle, hval, hcount⟩ := ih (m <<< 1) (k + 1) (by rw [hdouble, mul_assoc, ← pow_succ']; exact hm)
      rw [hdouble, mul_assoc, ← pow_succ'] at hle hval
      exact ⟨j + 1, by omega, hle, hval, by omega⟩

/-- A finite half other than 0 becomes a binary32 normal: its significand shifts up to the hidden bit, and its exponent drops by as
much. -/
theorem widenHalf_fields (he31 : expField .binary16 h ≠ 31) (hsig : patSig .binary16 h ≠ 0) :
    ∃ j : Nat, j ≤ 10 ∧ ((expField .binary32 (widenHalf h)).toNat : Int) = patExp .binary16 h - j + 127 ∧
      2 ^ 23 + (fracField .binary32 (widenHalf h)).toNat = patSig .binary16 h * 2 ^ (13 + j) := by
  have he5 : (expField .binary16 h).toNat < 2 ^ 5 := (expField .binary16 h).isLt
  have hm10 : (fracField .binary16 h).toNat < 2 ^ 10 := (fracField .binary16 h).isLt
  by_cases he : expField .binary16 h = 0
  · have he0 : (expField .binary16 h).toNat = 0 := by rw [he]; rfl
    rw [patSig, if_pos he0] at hsig ⊢
    rw [patExp, if_pos he0]
    have hm : fracField .binary16 h ≠ 0 := fun h0 => hsig (by rw [h0]; rfl)
    have hwide : ((fracField .binary16 h).setWidth 11).toNat = (fracField .binary16 h).toNat :=
      BitVec.toNat_setWidth_of_le (by decide)
    obtain ⟨j, hj, hle, hval, hcount⟩ := normalizeHalf_spec 10 ((fracField .binary16 h).setWidth 11) 0 (by omega)
    have hlt := (normalizeHalf 10 ((fracField .binary16 h).setWidth 11) 0).1.isLt
    rw [hwide] at hle hval
    rw [widenHalf_of_subnormal he hm, expField_packFields, fracField_packFields, toNat_append_zeros, hcount,
      BitVec.toNat_ofNat, BitVec.extractLsb'_toNat, Nat.shiftRight_zero]
    refine ⟨j, hj, by simp only [FloatFmt.bias, FloatFmt.expBits]; omega, ?_⟩
    rw [pow_add, mul_left_comm, ← hval]
    omega
  · have he0 : (expField .binary16 h).toNat ≠ 0 := fun h0 => he (BitVec.eq_of_toNat_eq h0)
    have hmax : (expField .binary16 h).toNat ≠ 31 := fun h0 => he31 (BitVec.eq_of_toNat_eq h0)
    rw [patSig, if_neg he0, patExp, if_neg he0, widenHalf_of_normal he31 he, expField_packFields, fracField_packFields,
      toNat_append_zeros, BitVec.toNat_ofNat]
    simp only [FloatFmt.bias, FloatFmt.fracBits, FloatFmt.expBits] at he5 ⊢
    exact ⟨0, by omega, by omega, by omega⟩

/-! ## The widening is exact (R102) -/

/-- The widened pattern of a finite half has the half's magnitude, and is finite. -/
theorem patMag_widenHalf (he31 : expField .binary16 h ≠ 31) :
    (expField .binary32 (widenHalf h)).toNat ≠ 255 ∧ patMag .binary32 (widenHalf h) = patMag .binary16 h := by
  by_cases hsig : patSig .binary16 h = 0
  · obtain ⟨he, hm⟩ : expField .binary16 h = 0 ∧ fracField .binary16 h = 0 := by
      rw [patSig] at hsig
      split at hsig
      · next he => exact ⟨BitVec.eq_of_toNat_eq he, BitVec.eq_of_toNat_eq hsig⟩
      · exact absurd hsig (by positivity)
    rw [patMag, patMag, hsig, widenHalf_of_zero he hm]
    simp [patSig]
  · obtain ⟨j, hj, hexp, hfrac⟩ := widenHalf_fields he31 hsig
    have hmin : -14 ≤ patExp .binary16 h := one_sub_bias_le_patExp (F := .binary16)
    have hmax : patExp .binary16 h ≤ 16 := by
      have he5 : (expField .binary16 h).toNat < 2 ^ 5 := (expField .binary16 h).isLt
      unfold patExp
      simp only [FloatFmt.bias]
      split <;> omega
    have he0 : (expField .binary32 (widenHalf h)).toNat ≠ 0 := by omega
    refine ⟨by omega, ?_⟩
    have hsig32 : patSig .binary32 (widenHalf h) = patSig .binary16 h * 2 ^ (13 + j) := by
      rw [patSig, if_neg he0]
      exact hfrac
    have hexp32 : patExp .binary32 (widenHalf h) = patExp .binary16 h - j := by
      rw [patExp, if_neg he0, hexp]
      exact add_sub_cancel_right _ _
    rw [patMag, patMag, hsig32, hexp32, Nat.cast_mul, mul_assoc, Nat.cast_pow, Nat.cast_ofNat, ← zpow_natCast,
      ← zpow_add₀ two_ne_zero]
    congr 2
    push_cast
    ring

/-- The widened pattern of a NaN is a NaN with the payload in its top ten fraction bits. -/
theorem widenHalf_of_nan (hnan : decodeF .binary16 h = .nan) :
    decodeF .binary32 (widenHalf h) = .nan ∧
      (fracField .binary32 (widenHalf h)).toNat = (fracField .binary16 h).toNat * 2 ^ 13 := by
  obtain ⟨he, ht⟩ := decodeF_eq_nan.mp hnan
  have hfrac : (fracField .binary32 (widenHalf h)).toNat = (fracField .binary16 h).toNat * 2 ^ 13 := by
    rw [widenHalf_of_max (BitVec.eq_of_toNat_eq he), fracField_packFields, toNat_append_zeros]
  refine ⟨decodeF_eq_nan.mpr ⟨?_, ?_⟩, hfrac⟩
  · rw [widenHalf_of_max (BitVec.eq_of_toNat_eq he), expField_packFields]
    rfl
  · rw [hfrac]
    exact mul_ne_zero ht (by decide)

/-- The widening keeps the value of every half that is not a NaN. -/
theorem decodeF_widenHalf (hnan : decodeF .binary16 h ≠ .nan) : decodeF .binary32 (widenHalf h) = decodeF .binary16 h := by
  cases hv : decodeF .binary16 h with
  | nan => exact absurd hv hnan
  | inf neg =>
    obtain ⟨he, ht, hneg⟩ := decodeF_eq_inf.mp hv
    rw [decodeF_eq_inf, signBit_widenHalf, widenHalf_of_max (BitVec.eq_of_toNat_eq he), expField_packFields,
      fracField_packFields, toNat_append_zeros, ht]
    exact ⟨rfl, rfl, hneg⟩
  | finite z =>
    obtain ⟨he, hz⟩ := decodeF_eq_finite.mp hv
    obtain ⟨he32, hmag⟩ := patMag_widenHalf (h := h) fun h31 => he (by rw [h31]; rfl)
    rw [decodeF_eq_finite, signBit_widenHalf, hmag]
    exact ⟨he32, hz⟩

/-- A subnormal half becomes a normal. -/
theorem expField_widenHalf_of_subnormal (he : expField .binary16 h = 0) (hm : fracField .binary16 h ≠ 0) :
    expField .binary32 (widenHalf h) ≠ 0 := by
  have he0 : (expField .binary16 h).toNat = 0 := by rw [he]; rfl
  have hsig : patSig .binary16 h ≠ 0 := by
    rw [patSig, if_pos he0]
    exact fun h0 => hm (BitVec.eq_of_toNat_eq h0)
  obtain ⟨j, hj, hexp, -⟩ := widenHalf_fields (by rw [he]; decide) hsig
  rw [patExp, if_pos he0] at hexp
  intro h0
  have h32 : (expField .binary32 (widenHalf h)).toNat = 0 := by rw [h0]; rfl
  simp only [FloatFmt.bias] at hexp
  omega

end Widen

/-! ## The narrowing, branch by branch (R103) -/

section Narrow

variable {f : BitVec 32}

theorem narrowFloat_of_nan (hf : decodeF .binary32 f = .nan) :
    narrowFloat f = packFields .binary16 (signBit .binary32 f) 31
      (if f.extractLsb' 13 10 = 0 then 1 else f.extractLsb' 13 10) := by
  refine Eq.trans ?_ (packFields_binary16 _ _ _).symm
  rw [narrowFloat, hf]
  rfl

theorem narrowFloat_of_inf {neg : Bool} (hf : decodeF .binary32 f = .inf neg) :
    narrowFloat f = packFields .binary16 (signBit .binary32 f) 31 0 := by
  refine Eq.trans ?_ (packFields_binary16 _ _ _).symm
  rw [narrowFloat, hf]
  rfl

theorem narrowFloat_of_finite {v : Rat} (hf : decodeF .binary32 f = .finite v) :
    narrowFloat f = rne .binary16 v (signBit .binary32 f) := by
  rw [narrowFloat, hf]
  rfl

/-- The narrowing keeps the sign bit. -/
theorem signBit_narrowFloat (f : BitVec 32) : signBit .binary16 (narrowFloat f) = signBit .binary32 f := by
  cases hf : decodeF .binary32 f with
  | nan => rw [narrowFloat_of_nan hf, signBit_packFields]
  | inf neg => rw [narrowFloat_of_inf hf, signBit_packFields]
  | finite v => rw [narrowFloat_of_finite hf, signBit_rne_of_finite hf]

/-- Bits 22 to 13 of a pattern are the top ten of its fraction field. -/
theorem toNat_topPayload (f : BitVec 32) : (f.extractLsb' 13 10).toNat = (fracField .binary32 f).toNat / 2 ^ 13 := by
  rw [BitVec.extractLsb'_toNat, Nat.shiftRight_eq_div_pow, toNat_fracField]
  simp only [FloatFmt.fracBits]
  omega

/-- A NaN narrows to a NaN that keeps the top ten payload bits, or has payload 1 where they are 0. -/
theorem narrowFloat_nan (hf : decodeF .binary32 f = .nan) :
    decodeF .binary16 (narrowFloat f) = .nan ∧
      (fracField .binary16 (narrowFloat f)).toNat =
        if (fracField .binary32 f).toNat / 2 ^ 13 = 0 then 1 else (fracField .binary32 f).toNat / 2 ^ 13 := by
  have hfrac : (fracField .binary16 (narrowFloat f)).toNat =
      if (fracField .binary32 f).toNat / 2 ^ 13 = 0 then 1 else (fracField .binary32 f).toNat / 2 ^ 13 := by
    have hzero : f.extractLsb' 13 10 = 0 ↔ (f.extractLsb' 13 10).toNat = 0 := BitVec.toNat_inj.symm
    rw [narrowFloat_of_nan hf, fracField_packFields, ← toNat_topPayload, apply_ite BitVec.toNat]
    simp only [hzero]
    rfl
  refine ⟨decodeF_eq_nan.mpr ⟨?_, ?_⟩, hfrac⟩
  · rw [narrowFloat_of_nan hf, expField_packFields]
    rfl
  · rw [hfrac]
    split
    · exact one_ne_zero
    · assumption

theorem decodeF_narrowFloat_of_inf {neg : Bool} (hf : decodeF .binary32 f = .inf neg) :
    decodeF .binary16 (narrowFloat f) = .inf neg := by
  rw [decodeF_eq_inf, signBit_narrowFloat, narrowFloat_of_inf hf, expField_packFields, fracField_packFields]
  exact ⟨rfl, rfl, (decodeF_eq_inf.mp hf).2.2⟩

/-- The largest finite half is 65504, and the midpoint above it is 65520. -/
theorem overflowBound_binary16 : Safety.overflowBound .binary16 = 65520 := by
  norm_num [Safety.overflowBound]

/-- A finite value narrows to a nearest half, or overflows. -/
theorem roundsToNearestEven_narrowFloat {v : Rat} (hf : decodeF .binary32 f = .finite v) :
    Safety.RoundsToNearestEven .binary16 v (signBit .binary32 f) (narrowFloat f) :=
  narrowFloat_of_finite hf ▸ Proofs.roundingIsNearestEven .binary16 v (signBit .binary32 f)

/-- Only a NaN narrows to a NaN. -/
theorem narrowFloat_nan_iff : decodeF .binary16 (narrowFloat f) = .nan ↔ decodeF .binary32 f = .nan := by
  refine ⟨fun h16 => ?_, fun hf => (narrowFloat_nan hf).1⟩
  cases hf : decodeF .binary32 f with
  | nan => rfl
  | inf neg => exact absurd ((decodeF_narrowFloat_of_inf hf).symm.trans h16) (by simp)
  | finite v =>
    obtain ⟨-, hover, hnear⟩ := roundsToNearestEven_narrowFloat hf
    rcases le_or_gt (Safety.overflowBound .binary16) |v| with hv | hv
    · exact absurd ((hover hv).symm.trans h16) (by simp)
    · obtain ⟨y, hy, -⟩ := hnear hv
      exact absurd (hy.symm.trans h16) (by simp)

/-- The narrowing keeps the value of every pattern whose value a half has. -/
theorem decodeF_narrowFloat_of_half {h : BitVec 16} (hnan : decodeF .binary32 f ≠ .nan)
    (hh : decodeF .binary16 h = decodeF .binary32 f) : decodeF .binary16 (narrowFloat f) = decodeF .binary32 f := by
  cases hf : decodeF .binary32 f with
  | nan => exact absurd hf hnan
  | inf neg => exact decodeF_narrowFloat_of_inf hf
  | finite v => rw [narrowFloat_of_finite hf, decodeF_rne_of_finite (hh.trans hf)]

end Narrow

/-! ## The two round trips (R104, R105) -/

theorem resultBus_halfBitsToFloat (a : Bus) :
    resultBus .halfBitsToFloat a = busOfScalar ((widenHalf (lane 16 a 0)).setWidth 64) := rfl

theorem resultBus_floatToHalfBits (a : Bus) :
    resultBus .floatToHalfBits a = busOfScalar ((narrowFloat (lane 32 a 0)).setWidth 64) := rfl

theorem narrowFloat_widenHalf (h : BitVec 16) : narrowFloat (widenHalf h) = h := by
  have hsign : signBit .binary16 (narrowFloat (widenHalf h)) = signBit .binary16 h :=
    (signBit_narrowFloat _).trans (signBit_widenHalf h)
  by_cases hnan : decodeF .binary16 h = .nan
  · obtain ⟨hwide, hpayload⟩ := widenHalf_of_nan hnan
    obtain ⟨hnarrow, hback⟩ := narrowFloat_nan hwide
    obtain ⟨he, ht⟩ := decodeF_eq_nan.mp hnan
    rw [hpayload, Nat.mul_div_cancel _ (by decide), if_neg ht] at hback
    exact pattern_ext hsign ((decodeF_eq_nan.mp hnarrow).1.trans he.symm) hback
  · have hwide := decodeF_widenHalf hnan
    refine eq_of_decodeF_eq hsign hnan ?_
    rw [decodeF_narrowFloat_of_half (by rwa [hwide]) hwide.symm, hwide]

/-- A pattern that is not a NaN comes back exactly when its value is a half's. -/
theorem widenHalf_narrowFloat_eq_iff {f : BitVec 32} (hnan : decodeF .binary32 f ≠ .nan) :
    widenHalf (narrowFloat f) = f ↔ ∃ h : BitVec 16, decodeF .binary16 h = decodeF .binary32 f := by
  have hnarrow : decodeF .binary16 (narrowFloat f) ≠ .nan := mt narrowFloat_nan_iff.mp hnan
  constructor
  · intro hback
    exact ⟨narrowFloat f, by rw [← decodeF_widenHalf hnarrow, hback]⟩
  · rintro ⟨h, hh⟩
    refine eq_of_decodeF_eq ((signBit_widenHalf _).trans (signBit_narrowFloat f)) hnan ?_
    rw [decodeF_widenHalf hnarrow, decodeF_narrowFloat_of_half hnan hh]

end Sys2Proof.Machine

namespace Sys2Proof.Proofs

open Sys2Proof.Machine

/-- Settles O26: the widening keeps the sign bit, and shifts a finite significand up by as much as it lowers the exponent. -/
theorem halfBitsToFloatIsExact : Obligations.HalfBitsToFloatIsExact := by
  refine ⟨decode_encode .halfBitsToFloat, fun s => ⟨_, rfl, frame_settle _ _, zeroFrom_busOfScalar _,
    toNat_slot_busOfScalar_lt (widenHalf (lane 16 s.a 0)), ?_⟩, gives_of_resultBus (by decide)⟩
  intro h r
  have hr : r = widenHalf h := lane_busOfScalar _ (by decide)
  rw [hr]
  simp only [isNaN, decide_eq_true_iff, decide_eq_false_iff_not]
  exact ⟨signBit_widenHalf h, decodeF_widenHalf, widenHalf_of_nan, expField_widenHalf_of_subnormal⟩

/-- Settles O27: a finite value narrows by the rounding of O2, whose overflow bound is 65520 for a half, and half the least
subnormal half is 2^-25. -/
theorem floatToHalfBitsRoundsToNearestEven : Obligations.FloatToHalfBitsRoundsToNearestEven := by
  refine ⟨decode_encode .floatToHalfBits, fun s => ⟨_, rfl, frame_settle _ _, zeroFrom_busOfScalar _,
    toNat_slot_busOfScalar_lt (narrowFloat (lane 32 s.a 0)), ?_⟩, gives_of_resultBus (by decide)⟩
  intro f r
  have hr : r = narrowFloat f := lane_busOfScalar _ (by decide)
  rw [hr]
  simp only [isNaN_iff]
  refine ⟨signBit_narrowFloat f, narrowFloat_nan, fun _ => decodeF_narrowFloat_of_inf, fun v hv => ?_⟩
  obtain ⟨-, hover, hnear⟩ := roundsToNearestEven_narrowFloat hv
  rw [overflowBound_binary16] at hover hnear
  refine ⟨roundsToNearestEven_narrowFloat hv, hover, fun hlt => ?_, fun htiny => ?_⟩
  · obtain ⟨w, hw, -⟩ := hnear hlt
    exact ⟨w, hw⟩
  · rw [narrowFloat_of_finite hv]
    exact decodeF_rne_of_tiny _ htiny

/-- Settles O29: the widened value is a half's, so the narrowing finds it again, and a NaN's payload moves up and back. -/
theorem halfRoundTripIsExact : Obligations.HalfRoundTripIsExact := by
  intro s
  refine ⟨_, pipe_eq _ _ s, ?_⟩
  rw [resultBus_floatToHalfBits, resultBus_halfBitsToFloat, lane_busOfScalar _ (by decide), narrowFloat_widenHalf,
    slot_busOfScalar_zero]
  exact ⟨zeroFrom_busOfScalar _, rfl⟩

/-- Settles O30: the narrowing gives the nearest half, at most half a unit in its last place away, and the widening is exact. -/
theorem narrowThenWidenErrorBounds : Obligations.NarrowThenWidenErrorBounds := by
  intro s
  refine ⟨_, pipe_eq _ _ s, ?_⟩
  rw [resultBus_halfBitsToFloat, resultBus_floatToHalfBits, lane_busOfScalar (narrowFloat _) (by decide)]
  refine ⟨zeroFrom_busOfScalar _, ?_⟩
  intro f r
  have hr : r = widenHalf (narrowFloat f) := lane_busOfScalar _ (by decide)
  rw [hr]
  simp only [isNaN, decide_eq_true_iff, decide_eq_false_iff_not]
  refine ⟨fun v hv => ?_, widenHalf_narrowFloat_eq_iff, fun hnan => ?_⟩
  · have hexact : decodeF .binary32 (widenHalf (narrowFloat f)) = decodeF .binary16 (narrowFloat f) :=
      decodeF_widenHalf (mt narrowFloat_nan_iff.mp (by simp [hv]))
    refine ⟨⟨narrowFloat f, roundsToNearestEven_narrowFloat hv, hexact, signBit_widenHalf _⟩, ?_⟩
    rw [hexact, narrowFloat_of_finite hv]
    refine ⟨fun hlo hhi => ?_, rne_error_of_subnormal (F := .binary16) _, fun hover => ?_⟩
    · refine rne_error_of_normal _ hlo ?_
      rw [overflowBound_binary16]
      linarith
    · exact decodeF_rne_of_overflowBound_le _ (overflowBound_binary16 ▸ hover)
  · obtain ⟨hnarrow, hpayload⟩ := narrowFloat_nan hnan
    obtain ⟨hwide, hback⟩ := widenHalf_of_nan hnarrow
    exact ⟨hwide, (signBit_widenHalf _).trans (signBit_narrowFloat f), by rw [hback, hpayload]⟩

end Sys2Proof.Proofs
end

section
/-! PROOFS for 40_bitcast_half_scalar.md, R103: the bit-level narrowing rounds the same significand at the same exponent as the value
form. -/

namespace Sys2Proof.Machine

/-! ## Rounding a shifted significand -/

theorem roundShift_le (M t : Nat) : roundShift M t ≤ M / 2 ^ t + 1 := by
  simp only [roundShift]
  split <;> omega

/-- The integer rounding of the bit-level form is the rational rounding of R17. -/
theorem roundHalfEven_div_two_pow (M : Nat) {t : Nat} (ht : t ≠ 0) : roundHalfEven ((M : Rat) / 2 ^ t) = roundShift M t := by
  obtain ⟨u, rfl⟩ := Nat.exists_eq_succ_of_ne_zero ht
  have hcast : (2 : Rat) ^ (u + 1) = ((2 ^ (u + 1) : Nat) : Rat) := by push_cast; rfl
  have hfloor : ((M : Rat) / 2 ^ (u + 1)).floor.toNat = M / 2 ^ (u + 1) := by
    rw [hcast]
    exact congrArg Int.toNat (Rat.floor_natCast_div_natCast M (2 ^ (u + 1)))
  have hfract : Int.fract ((M : Rat) / 2 ^ (u + 1)) = ((M % 2 ^ (u + 1) : Nat) : Rat) / 2 ^ (u + 1) := by
    rw [hcast, Int.fract_div_natCast_eq_div_natCast_mod]
  have hhalf : mkRat 1 2 = ((2 ^ u : Nat) : Rat) / 2 ^ (u + 1) := by
    rw [Rat.mkRat_eq_div, pow_succ]
    push_cast
    field_simp
  have hpos : (0 : Rat) < 2 ^ (u + 1) := by positivity
  simp only [roundHalfEven, roundShift, fractExact_eq, hfloor, hfract, hhalf, Nat.succ_eq_add_one, Nat.add_sub_cancel,
    div_lt_div_iff_of_pos_right hpos, div_left_inj' hpos.ne', Nat.cast_lt, Nat.cast_inj]

/-- The hidden bit is a whole number of units, so it passes the rounding unchanged. -/
theorem roundShift_hidden (m : Nat) : roundShift (2 ^ 23 + m) 13 = 2 ^ 10 + roundShift m 13 := by
  have hdiv : (2 ^ 23 + m) / 2 ^ 13 = 2 ^ 10 + m / 2 ^ 13 := by omega
  have hmod : (2 ^ 23 + m) % 2 ^ 13 = m % 2 ^ 13 := by omega
  have heven : (2 ^ 10 + m / 2 ^ 13) % 2 = m / 2 ^ 13 % 2 := by omega
  simp only [roundShift, hdiv, hmod, heven]
  split <;> rfl

/-! ## The assembled half -/

/-- At the least exponent, exponent field and fraction field are the significand: a carry into the hidden bit gives field 1. -/
theorem assembleFloat_subnormal (s : BitVec 1) {n : Nat} (hn : n ≤ 2 ^ 10) :
    assembleFloat .binary16 s n (-14) = s ++ BitVec.ofNat 15 n := by
  have hbias : ¬ ((FloatFmt.binary16.bias : Int) < -14) := by decide
  rw [assembleFloat, if_neg hbias]
  apply BitVec.eq_of_toNat_eq
  rw [toNat_append_add, BitVec.toNat_ofNat]
  split
  · next hlt =>
    refine (congrArg BitVec.toNat (packFields_binary16 s 0 (BitVec.ofNat 10 n))).trans ?_
    rw [toNat_append_add, toNat_append_add, BitVec.toNat_ofNat]
    simp only [FloatFmt.fracBits, BitVec.ofNat_eq_ofNat, BitVec.toNat_ofNat] at hlt ⊢
    omega
  · next hge =>
    obtain rfl : n = 2 ^ 10 := le_antisymm hn (not_lt.mp hge)
    refine (congrArg BitVec.toNat (packFields_binary16 s 1 0)).trans ?_
    rw [toNat_append_add, toNat_append_add]
    simp only [BitVec.ofNat_eq_ofNat, BitVec.toNat_ofNat]
    omega

/-- From the hidden bit up, the exponent field is the biased exponent, or 31 where that overflows. -/
theorem assembleFloat_normal (s : BitVec 1) {n : Nat} {ex : Int} (hn : 2 ^ 10 ≤ n) :
    assembleFloat .binary16 s n ex =
      if 31 ≤ ex + 15 then s ++ 0b11111#5 ++ 0#10 else s ++ BitVec.ofInt 5 (ex + 15) ++ BitVec.ofNat 10 (n - 2 ^ 10) := by
  have hover : ((FloatFmt.binary16.bias : Int) < ex) ↔ 31 ≤ ex + 15 := by
    simp only [FloatFmt.bias]
    omega
  simp only [assembleFloat, hover, if_neg (show ¬ n < 2 ^ FloatFmt.binary16.fracBits from hn.not_gt)]
  split
  · exact packFields_binary16 s 31 0
  · exact packFields_binary16 s _ _

section Narrow

variable {f : BitVec 32}

/-! ## The bit-level form, branch by branch (R103) -/

theorem narrowFloatBits_of_inf (he : (expField .binary32 f).toNat = 255) (hm : fracField .binary32 f = 0) :
    narrowFloatBits f = packFields .binary16 (signBit .binary32 f) 31 0 := by
  have hpack : ∀ s : BitVec 1, s ++ 0x7C00#15 = packFields .binary16 s 31 0 := by decide
  exact (if_pos he).trans ((if_pos hm).trans (hpack _))

theorem narrowFloatBits_of_nan (he : (expField .binary32 f).toNat = 255) (hm : fracField .binary32 f ≠ 0) :
    narrowFloatBits f = packFields .binary16 (signBit .binary32 f) 31
      (if f.extractLsb' 13 10 = 0 then 1 else f.extractLsb' 13 10) := by
  have htop : (fracField .binary32 f).extractLsb' 13 10 = f.extractLsb' 13 10 := by
    apply BitVec.eq_of_toNat_eq
    rw [toNat_topPayload, BitVec.extractLsb'_toNat, Nat.shiftRight_eq_div_pow, Nat.mod_eq_of_lt]
    exact Nat.div_lt_of_lt_mul (fracField .binary32 f).isLt
  refine (if_pos he).trans ((if_neg hm).trans (Eq.trans ?_ (packFields_binary16 _ _ _).symm))
  rw [← htop]
  rfl

/-- Below 2^-25 the bit-level form gives a zero. -/
theorem narrowFloatBits_of_tiny (he : (expField .binary32 f).toNat < 102) :
    narrowFloatBits f = packFields .binary16 (signBit .binary32 f) 0 0 := by
  have hpack : ∀ s : BitVec 1, s ++ 0#15 = packFields .binary16 s 0 0 := by decide
  have hmax : ¬ (expField .binary32 f).toNat = 255 := by omega
  have hsub : ((expField .binary32 f).toNat : Int) - 112 ≤ 0 := by omega
  have htiny : ((expField .binary32 f).toNat : Int) - 112 < -10 := by omega
  exact (if_neg hmax).trans ((if_pos hsub).trans ((if_pos htiny).trans (hpack _)))

/-- A binary32 significand shifted right by 14 places or more rounds to at most the hidden bit of a half. -/
theorem roundShift_significand_le (f : BitVec 32) {t : Nat} (ht : 14 ≤ t) :
    roundShift (2 ^ 23 + (fracField .binary32 f).toNat) t ≤ 2 ^ 10 := by
  have hm : (fracField .binary32 f).toNat < 2 ^ 23 := (fracField .binary32 f).isLt
  have hpow : 2 ^ 14 ≤ 2 ^ t := Nat.pow_le_pow_right (by decide) ht
  exact (roundShift_le _ _).trans (Nat.div_lt_of_lt_mul (by omega))

/-- Below the normal range of a half, the bit-level form shifts the significand with its hidden bit to the least exponent. -/
theorem narrowFloatBits_of_subnormal (hlo : 102 ≤ (expField .binary32 f).toNat) (hhi : (expField .binary32 f).toNat ≤ 112) :
    narrowFloatBits f = assembleFloat .binary16 (signBit .binary32 f)
      (roundShift (2 ^ 23 + (fracField .binary32 f).toNat) (126 - (expField .binary32 f).toNat)) (-14) := by
  have hmax : ¬ (expField .binary32 f).toNat = 255 := by omega
  have hsub : ((expField .binary32 f).toNat : Int) - 112 ≤ 0 := by omega
  have htiny : ¬ ((expField .binary32 f).toNat : Int) - 112 < -10 := by omega
  have hshift : (14 - (((expField .binary32 f).toNat : Int) - 112)).toNat = 126 - (expField .binary32 f).toNat := by omega
  rw [assembleFloat_subnormal _ (roundShift_significand_le f (by omega)), ← hshift]
  exact (if_neg hmax).trans ((if_pos hsub).trans (if_neg htiny))

/-- From the least normal half up, the bit-level form rounds the fraction field, and a carry out of it raises the exponent. -/
theorem narrowFloatBits_of_normal (hlo : 113 ≤ (expField .binary32 f).toNat) (hmax : (expField .binary32 f).toNat ≠ 255) :
    narrowFloatBits f =
      if roundShift (fracField .binary32 f).toNat 13 = 0x400 then
        assembleFloat .binary16 (signBit .binary32 f) (2 ^ 10) ((expField .binary32 f).toNat - 127 + 1)
      else assembleFloat .binary16 (signBit .binary32 f) (2 ^ 10 + roundShift (fracField .binary32 f).toNat 13)
        ((expField .binary32 f).toNat - 127) := by
  have hsub : ¬ ((expField .binary32 f).toNat : Int) - 112 ≤ 0 := by omega
  have hsign : f.extractLsb' 31 1 = signBit .binary32 f := rfl
  have hexp : f.extractLsb' 23 8 = expField .binary32 f := rfl
  have hfrac : f.extractLsb' 0 23 = fracField .binary32 f := rfl
  have hrebias : ((expField .binary32 f).toNat : Int) - 112 = (expField .binary32 f).toNat - 127 + 15 := by ring
  have hrebias' : ((expField .binary32 f).toNat : Int) - 112 + 1 = (expField .binary32 f).toNat - 127 + 1 + 15 := by ring
  simp only [narrowFloatBits, hsign, hexp, hfrac, if_neg hmax, if_neg hsub]
  by_cases hcarry : roundShift (fracField .binary32 f).toNat 13 = 0x400
  · simp only [if_pos hcarry, assembleFloat_normal _ le_rfl, ← hrebias', Nat.sub_self]
  · simp only [if_neg hcarry, assembleFloat_normal _ (Nat.le_add_right _ _), ← hrebias, Nat.add_sub_cancel_left]

/-! ## The value form on a binary32 normal (R103) -/

section Value

variable {v : Rat}

/-- The magnitude of a binary32 normal. -/
theorem patMag_of_normal (he : (expField .binary32 f).toNat ≠ 0) :
    patMag .binary32 f = ((2 ^ 23 + (fracField .binary32 f).toNat : Nat) : Rat) *
      (2 : Rat) ^ (((expField .binary32 f).toNat : Int) - 150) := by
  rw [patMag, patSig, if_neg he, patExp, if_neg he]
  congr 2
  simp only [FloatFmt.bias, FloatFmt.fracBits]
  ring

/-- The exponent of a binary32 normal is that of its magnitude. -/
theorem abs_bounds_of_normal (hv : decodeF .binary32 f = .finite v) (he : (expField .binary32 f).toNat ≠ 0) :
    (2 : Rat) ^ (((expField .binary32 f).toNat : Int) - 127) ≤ |v| ∧
      |v| < (2 : Rat) ^ (((expField .binary32 f).toNat : Int) - 127 + 1) := by
  have hm : (fracField .binary32 f).toNat < 2 ^ 23 := (fracField .binary32 f).isLt
  have hunit : ((expField .binary32 f).toNat : Int) - 150 = (expField .binary32 f).toNat - 127 - (23 : Nat) := by
    push_cast
    ring
  have hfits : 2 ^ 23 + (fracField .binary32 f).toNat < 2 ^ (23 + 1) := by omega
  rw [abs_of_finite hv, patMag_of_normal he, hunit, ← two_pow_mul_zpow 23, ← two_pow_succ_mul_zpow 23]
  constructor
  · exact mul_le_mul_of_nonneg_right (by exact_mod_cast Nat.le_add_right _ _) (by positivity)
  · exact mul_lt_mul_of_pos_right (by exact_mod_cast hfits) (by positivity)

/-- The significand that the value form rounds, when the working exponent leaves t bits below it. -/
theorem rneSig_of_normal {t : Nat} (hv : decodeF .binary32 f = .finite v) (he : (expField .binary32 f).toNat ≠ 0)
    (ht : t ≠ 0) (hexp : rneExp .binary16 v = ((expField .binary32 f).toNat : Int) + t - 140) :
    rneSig .binary16 v = roundShift (2 ^ 23 + (fracField .binary32 f).toNat) t := by
  rw [rneSig, abs_of_finite hv, patMag_of_normal he, hexp, mul_assoc, ← zpow_add₀ two_ne_zero,
    ← roundHalfEven_div_two_pow _ ht, div_eq_mul_inv, ← zpow_natCast, ← zpow_neg]
  congr 3
  simp only [FloatFmt.fracBits]
  ring

/-- The rounding of a binary32 normal, by its sign bit, its significand and its working exponent. -/
theorem narrowFloat_of_normal (hv : decodeF .binary32 f = .finite v) (he : (expField .binary32 f).toNat ≠ 0) :
    narrowFloat f =
      if rneSig .binary16 v = 2 ^ 11 then
        assembleFloat .binary16 (signBit .binary32 f) (2 ^ 10) (rneExp .binary16 v + 1)
      else assembleFloat .binary16 (signBit .binary32 f) (rneSig .binary16 v) (rneExp .binary16 v) := by
  have hz : v ≠ 0 := abs_pos.mp (lt_of_lt_of_le (by positivity) (abs_bounds_of_normal hv he).1)
  rw [narrowFloat_of_finite hv, rne_of_ne_zero hz, signBit_of_finite hv hz]

/-! ## The two forms agree, range by range (R103) -/

theorem narrowFloatBits_eq_of_tiny (hv : decodeF .binary32 f = .finite v) (he : (expField .binary32 f).toNat < 102) :
    narrowFloatBits f = narrowFloat f := by
  have hexp : patExp .binary32 f + 1 ≤ -25 := by
    unfold patExp
    simp only [FloatFmt.bias]
    split <;> omega
  have hmag : |v| < (2 : Rat) ^ (patExp .binary32 f + 1) := abs_of_finite hv ▸ patMag_lt
  have hzero : decodeF .binary16 (narrowFloat f) = .finite 0 := by
    rw [narrowFloat_of_finite hv]
    exact decodeF_rne_of_tiny _ (hmag.le.trans (zpow_le_zpow_right₀ (by norm_num) hexp))
  rw [narrowFloatBits_of_tiny he]
  refine eq_of_decodeF_eq ?_ (by simp [hzero]) ?_
  · rw [signBit_packFields, signBit_narrowFloat]
  · rw [hzero, ← rne_zero, decodeF_rne_zero]

theorem narrowFloatBits_eq_of_subnormal (hv : decodeF .binary32 f = .finite v)
    (hlo : 102 ≤ (expField .binary32 f).toNat) (hhi : (expField .binary32 f).toNat ≤ 112) :
    narrowFloatBits f = narrowFloat f := by
  have he : (expField .binary32 f).toNat ≠ 0 := by omega
  obtain ⟨hle, hlt⟩ := abs_bounds_of_normal hv he
  have hz : v ≠ 0 := abs_pos.mp (lt_of_lt_of_le (by positivity) hle)
  have hexp : rneExp .binary16 v = -14 :=
    rneExp_of_subnormal hz (hlt.trans_le (zpow_le_zpow_right₀ (by norm_num) (by simp only [FloatFmt.bias]; omega)))
  have hsig := rneSig_of_normal (t := 126 - (expField .binary32 f).toNat) hv he (by omega) (by omega)
  have hfits := roundShift_significand_le f (t := 126 - (expField .binary32 f).toNat) (by omega)
  rw [narrowFloatBits_of_subnormal hlo hhi, narrowFloat_of_normal hv he, hexp, hsig, if_neg (by omega)]

theorem narrowFloatBits_eq_of_normal (hv : decodeF .binary32 f = .finite v) (hlo : 113 ≤ (expField .binary32 f).toNat) :
    narrowFloatBits f = narrowFloat f := by
  have he : (expField .binary32 f).toNat ≠ 0 := by omega
  obtain ⟨hle, hlt⟩ := abs_bounds_of_normal hv he
  have hexp : rneExp .binary16 v = (expField .binary32 f).toNat - 127 :=
    rneExp_eq (by simp only [FloatFmt.bias]; omega) hle hlt
  have hsig := rneSig_of_normal (t := 13) hv he (by decide) (by omega)
  have hcarry : 2 ^ 10 + roundShift (fracField .binary32 f).toNat 13 = 2 ^ 11 ↔
      roundShift (fracField .binary32 f).toNat 13 = 0x400 := by omega
  rw [narrowFloatBits_of_normal hlo (decodeF_eq_finite.mp hv).1, narrowFloat_of_normal hv he, hexp, hsig, roundShift_hidden]
  simp only [hcarry]

end Value

theorem narrowFloatBits_eq_narrowFloat (f : BitVec 32) : narrowFloatBits f = narrowFloat f := by
  cases hf : decodeF .binary32 f with
  | nan =>
    obtain ⟨he, hm⟩ := decodeF_eq_nan.mp hf
    rw [narrowFloat_of_nan hf, narrowFloatBits_of_nan he fun h0 => hm (by rw [h0]; rfl)]
  | inf neg =>
    obtain ⟨he, hm, -⟩ := decodeF_eq_inf.mp hf
    rw [narrowFloat_of_inf hf, narrowFloatBits_of_inf he (BitVec.eq_of_toNat_eq hm)]
  | finite v =>
    rcases Nat.lt_or_ge (expField .binary32 f).toNat 102 with htiny | hlo
    · exact narrowFloatBits_eq_of_tiny hf htiny
    · rcases Nat.lt_or_ge (expField .binary32 f).toNat 113 with hsub | hnormal
      · exact narrowFloatBits_eq_of_subnormal hf hlo (by omega)
      · exact narrowFloatBits_eq_of_normal hf hnormal

end Narrow

end Sys2Proof.Machine

namespace Sys2Proof.Proofs

open Sys2Proof.Machine

/-- Settles O28: a NaN and an infinity have the same fields in both forms; below 2^-25 both give a zero; from there to the normal
range and in it, both round the same significand at the same exponent. -/
theorem bitLevelNarrowingEqualsValueForm : Obligations.BitLevelNarrowingEqualsValueForm := narrowFloatBits_eq_narrowFloat

end Sys2Proof.Proofs
end

section
/-! PROOFS for 41_normalized.md, formats: the values a format has, and the value a rational rounds to as a function that is
monotone, odd and close to the identity (R16, R17). -/

namespace Sys2Proof.Machine

open Sys2Proof.Safety

section

variable {F : FloatFmt} {r z : Rat}

/-! ## The values of a format (R16) -/

/-- A rational that some pattern of the format has as its value. -/
def IsValue (F : FloatFmt) (z : Rat) : Prop := ∃ c : BitVec F.width, decodeF F c = .finite z

/-- The value a rational rounds to, where it does not overflow. -/
def rneVal (F : FloatFmt) (r : Rat) : Rat := finiteValue F (rne F r 0)

/-- Below the overflow bound a rational rounds to its `rneVal`, whatever the sign of a zero. -/
theorem decodeF_rne_eq_rneVal (s0 : BitVec 1) (h : |r| < overflowBound F) :
    decodeF F (rne F r s0) = .finite (rneVal F r) := by
  rcases eq_or_ne r 0 with rfl | hr
  · rw [rneVal, finiteValue_of_finite (decodeF_rne_zero 0), decodeF_rne_zero]
  · have hs0 : rne F r s0 = rne F r 0 := by rw [rne_of_ne_zero hr, rne_of_ne_zero hr]
    obtain ⟨y, hy, -⟩ := decodeF_rne_of_lt_overflowBound 0 h
    rw [hs0, hy, rneVal, finiteValue_of_finite hy]

theorem isValue_rneVal (h : |r| < overflowBound F) : IsValue F (rneVal F r) := ⟨_, decodeF_rne_eq_rneVal 0 h⟩

theorem rneVal_of_isValue (hz : IsValue F z) : rneVal F z = z := by
  obtain ⟨c, hc⟩ := hz
  exact finiteValue_of_finite (decodeF_rne_of_finite hc 0)

theorem isValue_zero : IsValue F 0 := ⟨_, decodeF_rne_zero 0⟩

theorem rneVal_zero : rneVal F 0 = 0 := rneVal_of_isValue isValue_zero

/-! ## Rounding is monotone and odd (R17) -/

/-- No value of the format is nearer to r than the one it rounds to. -/
theorem rneVal_nearest (h : |r| < overflowBound F) (hz : IsValue F z) : |rneVal F r - r| ≤ |z - r| := by
  obtain ⟨c, hc⟩ := hz
  obtain ⟨y, hy, hnear⟩ := decodeF_rne_of_lt_overflowBound 0 h
  rw [rneVal, finiteValue_of_finite hy]
  exact (hnear c z hc).1

/-- Rounding does not cross a value of the format from below. -/
theorem rneVal_le (h : |r| < overflowBound F) (hz : IsValue F z) (hle : r ≤ z) : rneVal F r ≤ z := by
  have hnear := rneVal_nearest h hz
  rw [abs_of_nonneg (sub_nonneg.mpr hle)] at hnear
  linarith [le_abs_self (rneVal F r - r)]

/-- Rounding does not cross a value of the format from above. -/
theorem le_rneVal (h : |r| < overflowBound F) (hz : IsValue F z) (hle : z ≤ r) : z ≤ rneVal F r := by
  have hnear := rneVal_nearest h hz
  rw [abs_of_nonpos (sub_nonpos.mpr hle)] at hnear
  linarith [neg_abs_le (rneVal F r - r)]

theorem rneVal_mono {r' : Rat} (h : |r| < overflowBound F) (h' : |r'| < overflowBound F) (hle : r ≤ r') :
    rneVal F r ≤ rneVal F r' := by
  by_contra hlt
  -- each of r and r' is on its own value's side of the midpoint, so both are the midpoint
  have hr := sq_le_sq.mpr (rneVal_nearest h (isValue_rneVal h'))
  have hr' := sq_le_sq.mpr (rneVal_nearest h' (isValue_rneVal h))
  have heq : r = r' := le_antisymm hle (by nlinarith)
  exact hlt (heq ▸ le_rfl)

theorem rneVal_neg (h : |r| < overflowBound F) : rneVal F (-r) = -rneVal F r := by
  have hval : ∀ {a : Rat}, a ≠ 0 → |a| < overflowBound F →
      rneVal F a = (if a < 0 then -1 else 1) * (rneSig F a : Rat) * (2 : Rat) ^ (rneExp F a - F.fracBits) := fun ha hb =>
    finiteValue_of_finite (decodeF_rne 0 ha (rneSig_lt_of_lt_overflowBound ha hb))
  rcases eq_or_ne r 0 with rfl | hr
  · rw [neg_zero, rneVal_zero, neg_zero]
  · have hexp : rneExp F (-r) = rneExp F r := by rw [rneExp, rneExp, abs_neg]
    have hsig : rneSig F (-r) = rneSig F r := by rw [rneSig, rneSig, abs_neg, hexp]
    rw [hval hr h, hval (neg_ne_zero.mpr hr) (by rwa [abs_neg]), hexp, hsig]
    rcases hr.lt_or_gt with hneg | hpos
    · rw [if_pos hneg, if_neg (by linarith)]
      ring
    · rw [if_neg hpos.not_gt, if_pos (by linarith)]
      ring

theorem IsValue.lt_overflowBound (hz : IsValue F z) : |z| < overflowBound F := by
  obtain ⟨c, hc⟩ := hz
  exact abs_lt_overflowBound hc

theorem IsValue.neg (hz : IsValue F z) : IsValue F (-z) := by
  have h := rneVal_neg hz.lt_overflowBound
  rw [rneVal_of_isValue hz] at h
  exact h ▸ isValue_rneVal (by rw [abs_neg]; exact hz.lt_overflowBound)

/-- Between a value and its negation, rounding stays between them. -/
theorem abs_rneVal_le (h : |r| < overflowBound F) (hz : IsValue F z) (hle : |r| ≤ z) : |rneVal F r| ≤ z := by
  obtain ⟨hlo, hhi⟩ := abs_le.mp hle
  exact abs_le.mpr ⟨le_rneVal h hz.neg hlo, rneVal_le h hz hhi⟩

/-! ## How far rounding moves a rational (R17) -/

/-- Below 2^(k+1) the working exponent is at most k. -/
theorem rneExp_le {k : Int} (hr : r ≠ 0) (hk : 1 - (F.bias : Int) ≤ k) (h : |r| < (2 : Rat) ^ (k + 1)) : rneExp F r ≤ k := by
  have hlog := (floorLog2_spec (abs_pos.mpr hr)).1.trans_lt h
  rw [zpow_lt_zpow_iff_right₀ (by norm_num)] at hlog
  unfold rneExp
  omega

/-- Below 2^(k+1) rounding moves a rational by at most half a unit at exponent k. -/
theorem abs_rneVal_sub_le {k : Int} (h : |r| < overflowBound F) (hk : 1 - (F.bias : Int) ≤ k)
    (hr : |r| < (2 : Rat) ^ (k + 1)) : |rneVal F r - r| ≤ (2 : Rat) ^ (k - F.fracBits - 1) := by
  rcases eq_or_ne r 0 with rfl | hr0
  · rw [rneVal_zero, sub_zero, abs_zero]
    positivity
  · obtain ⟨y, hy, herr⟩ := rne_error 0 hr0 h
    rw [rneVal, finiteValue_of_finite hy]
    exact herr.trans (zpow_le_zpow_right₀ (by norm_num) (by linarith [rneExp_le hr0 hk hr]))

/-! ## Scaled significands are values (R16) -/

/-- A multiple of the unit at its own working exponent is a value. -/
theorem isValue_of_grid (h : |r| < overflowBound F) {k : Int} (hk : |r| = k * (2 : Rat) ^ (rneExp F r - F.fracBits)) :
    IsValue F r := by
  rcases eq_or_ne r 0 with rfl | hr
  · exact isValue_zero
  · have hnear := (rneSig_nearest_on_grid F r k).1
    rw [← hk, sub_self, abs_zero, abs_nonpos_iff, sub_eq_zero] at hnear
    refine ⟨_, (decodeF_rne 0 hr (rneSig_lt_of_lt_overflowBound hr h)).trans ?_⟩
    rw [mul_assoc, hnear]
    split
    · next hneg => rw [abs_of_neg hneg, neg_one_mul, neg_neg]
    · next hpos => rw [abs_of_nonneg (not_lt.mp hpos), one_mul]

/-- A significand of at most T + 1 bits, scaled to no less than the least unit, is a value where it does not overflow. -/
theorem isValue_of_scaled {m g : Int} (hm : |m| < 2 ^ (F.fracBits + 1)) (hg : 1 - (F.bias : Int) - F.fracBits ≤ g)
    (h : |m * (2 : Rat) ^ g| < overflowBound F) : IsValue F (m * (2 : Rat) ^ g) := by
  rcases eq_or_ne (m * (2 : Rat) ^ g) 0 with h0 | hr
  · exact h0 ▸ isValue_zero
  · have habs : |m * (2 : Rat) ^ g| = |m| * (2 : Rat) ^ g := by
      rw [abs_mul, abs_of_pos (a := (2 : Rat) ^ g) (by positivity), Int.cast_abs]
    have hlt : |m * (2 : Rat) ^ g| < (2 : Rat) ^ (g + F.fracBits + 1) := by
      rw [habs, show g + (F.fracBits : Int) + 1 = ((F.fracBits + 1 : Nat) : Int) + g by push_cast; ring,
        zpow_add₀ two_ne_zero, zpow_natCast]
      exact mul_lt_mul_of_pos_right (by exact_mod_cast hm) (by positivity)
    have hexp := rneExp_le (F := F) hr (by omega) hlt
    obtain ⟨j, hj⟩ : ∃ j : Nat, g = j + (rneExp F (m * (2 : Rat) ^ g) - F.fracBits) :=
      ⟨(g + F.fracBits - rneExp F (m * (2 : Rat) ^ g)).toNat, by omega⟩
    refine isValue_of_grid h (k := |m| * 2 ^ j) ?_
    rw [habs]
    conv_lhs => rw [hj, zpow_add₀ two_ne_zero, zpow_natCast, ← mul_assoc]
    push_cast
    rfl

/-- Every value is a scaled significand. -/
theorem IsValue.exists_scaled (hz : IsValue F z) : ∃ m e : Int, |m| < 2 ^ (F.fracBits + 1) ∧ 1 - (F.bias : Int) ≤ e ∧
    z = m * (2 : Rat) ^ (e - F.fracBits) := by
  obtain ⟨c, hc⟩ := hz
  have hsig : (patSig F c : Int) < 2 ^ (F.fracBits + 1) := by
    have := (fracField F c).isLt
    have hnat : patSig F c < 2 ^ (F.fracBits + 1) := by
      unfold patSig
      rw [pow_succ]
      split <;> omega
    exact_mod_cast hnat
  have hval := (decodeF_eq_finite.mp hc).2
  refine ⟨(if (signBit F c).toNat = 1 then -1 else 1) * patSig F c, patExp F c, ?_, one_sub_bias_le_patExp, ?_⟩
  · split <;> simpa using hsig
  · rw [hval, signFactor, patMag]
    push_cast
    ring

/-- Scaling a value up by a power of two gives a value, where it does not overflow. -/
theorem IsValue.mul_two_pow (hz : IsValue F z) (j : Nat) (h : |z * 2 ^ j| < overflowBound F) : IsValue F (z * 2 ^ j) := by
  obtain ⟨m, e, hm, he, rfl⟩ := hz.exists_scaled
  have hscale : m * (2 : Rat) ^ (e - F.fracBits) * 2 ^ j = m * (2 : Rat) ^ (e - F.fracBits + j) := by
    rw [zpow_add₀ two_ne_zero, zpow_natCast, mul_assoc]
  rw [hscale] at h ⊢
  exact isValue_of_scaled hm (by omega) h

/-- A value of magnitude 2^T or more is an integer. -/
theorem IsValue.exists_int (hz : IsValue F z) (h : (2 : Rat) ^ F.fracBits ≤ |z|) : ∃ i : Int, z = i := by
  obtain ⟨m, e, hm, -, rfl⟩ := hz.exists_scaled
  have he : (F.fracBits : Int) ≤ e := by
    by_contra hlt
    have hone : (2 : Rat) ^ (e - F.fracBits) ≤ 2⁻¹ := by
      rw [← zpow_neg_one]
      exact zpow_le_zpow_right₀ (by norm_num) (by omega)
    have hm' : |(m : Rat)| < 2 ^ F.fracBits * 2 := by
      rw [← pow_succ]
      exact_mod_cast hm
    rw [abs_mul, abs_of_pos (a := (2 : Rat) ^ _) (by positivity)] at h
    nlinarith [abs_nonneg (m : Rat)]
  obtain ⟨j, hj⟩ : ∃ j : Nat, e - F.fracBits = j := ⟨(e - F.fracBits).toNat, by omega⟩
  exact ⟨m * 2 ^ j, by rw [hj, zpow_natCast]; push_cast; rfl⟩

theorem isValue_two_zpow {k : Int} (hlo : 1 - (F.bias : Int) ≤ k) (hhi : k < F.bias) : IsValue F ((2 : Rat) ^ k) := by
  have hlt : |((1 : Int) : Rat) * (2 : Rat) ^ k| < overflowBound F := by
    rw [Int.cast_one, one_mul, abs_of_pos (by positivity)]
    refine lt_of_lt_of_le ?_ two_pow_bias_le_overflowBound
    rw [← zpow_natCast]
    exact zpow_lt_zpow_right₀ (by norm_num) hhi
  simpa using isValue_of_scaled (m := 1) (g := k) (by cases F <;> decide) (by omega) hlt

end

end Sys2Proof.Machine
end

section
/-! PROOFS for 41_normalized.md, lane arithmetic: nearest integers, the clamped value of a lane, and the rounded product and
quotient of a lane by a scale integer (R18, R19, R120). -/

namespace Sys2Proof.Machine

open Sys2Proof.Safety

/-! ## Nearest integers, ties away from zero (R18) -/

section RoundAway

variable {r : Rat} {i : Int}

theorem roundAway_of_nonneg (h : 0 ≤ r) : roundAway r = ⌊r + 1 / 2⌋ := by
  rw [roundAway_eq_ite, if_neg h.not_gt, one_mul, abs_of_nonneg h]

theorem roundAway_neg (r : Rat) : roundAway (-r) = -roundAway r := by
  rw [roundAway_eq, roundAway_eq, Rat.neg_num, Int.sign_neg, abs_neg, neg_mul]

/-- An integer nearer than a tie is the rounded one. -/
theorem roundAway_eq_of_near (h : |r - i| < 1 / 2) : roundAway r = i := by
  obtain ⟨hlo, hhi⟩ := abs_lt.mp h
  rcases le_or_gt 0 r with hr | hr
  · rw [roundAway_of_nonneg hr, Int.floor_eq_iff]
    constructor <;> linarith
  · have hfloor : ⌊-r + 1 / 2⌋ = -i := by
      rw [Int.floor_eq_iff]
      push_cast
      constructor <;> linarith
    rw [← neg_neg r, roundAway_neg, roundAway_of_nonneg (by linarith), hfloor, neg_neg]

theorem roundAway_intCast (i : Int) : roundAway (i : Rat) = i := roundAway_eq_of_near (by norm_num)

theorem roundAway_zero : roundAway 0 = 0 := by
  simpa using roundAway_intCast 0

theorem le_roundAway (hr : 0 ≤ r) (h : (i : Rat) ≤ r) : i ≤ roundAway r := by
  rw [roundAway_of_nonneg hr, Int.le_floor]
  linarith

theorem roundAway_le (hr : 0 ≤ r) (h : r ≤ i) : roundAway r ≤ i := by
  rw [roundAway_of_nonneg hr, ← Int.lt_add_one_iff, Int.floor_lt]
  push_cast
  linarith

theorem abs_roundAway_sub_le (hr : 0 ≤ r) : |(roundAway r : Rat) - r| ≤ 1 / 2 := by
  rw [roundAway_of_nonneg hr, abs_le]
  constructor
  · linarith [Int.lt_floor_add_one (r + 1 / 2)]
  · linarith [Int.floor_le (r + 1 / 2)]

end RoundAway

/-! ## The clamped value of a lane (R19) -/

/-- Between two values of the format, the clamp clamps the value. -/
theorem decodeF_clampF {F : FloatFmt} {x : BitVec F.width} {lo hi v : Rat} (hlo : IsValue F lo) (hhi : IsValue F hi)
    (hle : lo ≤ hi) (hx : decodeF F x = .finite v) : decodeF F (clampF F x lo hi) = .finite (max lo (min v hi)) := by
  rw [clampF_of_finite hx]
  split
  · next h =>
    rw [decodeF_rne_eq_rneVal 0 hlo.lt_overflowBound, rneVal_of_isValue hlo, max_eq_left (min_le_of_left_le h.le)]
  · next h =>
    split
    · next h' =>
      rw [decodeF_rne_eq_rneVal 0 hhi.lt_overflowBound, rneVal_of_isValue hhi, min_eq_right h'.le, max_eq_right hle]
    · next h' => rw [hx, min_eq_left (not_lt.mp h'), max_eq_right (not_lt.mp h)]

/-- A pattern that clamps to a finite value is no NaN. -/
theorem isNaN_of_clampF_finite {F : FloatFmt} {x : BitVec F.width} {lo hi c : Rat}
    (h : decodeF F (clampF F x lo hi) = .finite c) : isNaN F x = false := by
  rw [isNaN, decide_eq_false_iff_not]
  intro hx
  rw [clampF, hx] at h
  exact absurd (hx.symm.trans h) (by simp)

/-! ## Integers and scales in a lane format (R121) -/

section Lanes

variable {f : LaneFloat} {n i : Int} {c : Rat}

/-- Up to 2^32 nothing overflows a lane format. -/
theorem lt_overflowBound_of_le {r : Rat} (h : |r| ≤ 2 ^ 32) : |r| < overflowBound f.fmt :=
  calc |r| ≤ 2 ^ 32 := h
    _ < 2 ^ f.fmt.bias := pow_lt_pow_right₀ (by norm_num) (by cases f <;> decide)
    _ ≤ overflowBound f.fmt := two_pow_bias_le_overflowBound

theorem intCast_lt_overflowBound (hi : |i| ≤ 2 ^ 32) : |(i : Rat)| < overflowBound f.fmt :=
  lt_overflowBound_of_le (by exact_mod_cast hi)

theorem decodeF_toF (hi : |i| ≤ 2 ^ 32) : decodeF f.fmt (toF f.fmt i) = .finite (rneVal f.fmt i) :=
  decodeF_rne_eq_rneVal 0 (intCast_lt_overflowBound hi)

/-- An integer of at most T + 1 bits is a value. -/
theorem isValue_intCast (hT : |i| < 2 ^ (f.fmt.fracBits + 1)) (hi : |i| ≤ 2 ^ 32) : IsValue f.fmt i := by
  have h := isValue_of_scaled (F := f.fmt) (m := i) (g := 0) hT (by cases f <;> decide)
    (by simpa using intCast_lt_overflowBound hi)
  simpa using h

theorem isValue_one : IsValue f.fmt 1 := by
  simpa using isValue_intCast (f := f) (i := 1) (by cases f <;> decide) (by decide)

theorem isValue_neg_one : IsValue f.fmt ((-1 : Int) : Rat) := by
  simpa using isValue_one.neg

theorem isValue_two_pow {k : Nat} (hk : k ≤ 32) : IsValue f.fmt (2 ^ k) := by
  rw [← zpow_natCast]
  have hbias : 32 < f.fmt.bias := by cases f <;> decide
  exact isValue_two_zpow (by omega) (by omega)

/-- An integer that can be a normalized lane's scale: positive, and of at most 32 bits (R121). -/
def IsScale (n : Int) : Prop := 1 ≤ n ∧ n < 2 ^ 32

theorem IsScale.abs_le_of_succ (hn : IsScale n) (hi : |i| ≤ n + 1) : |i| ≤ 2 ^ 32 := hi.trans hn.2

theorem IsScale.abs_le (hn : IsScale n) (hi : |i| ≤ n) : |i| ≤ 2 ^ 32 := hn.abs_le_of_succ (Int.le_add_one hi)

theorem IsScale.abs_self_le (hn : IsScale n) : |n| ≤ 2 ^ 32 :=
  hn.abs_le (abs_of_pos (Int.lt_of_lt_of_le one_pos hn.1)).le

theorem IsScale.one_le_rneVal (hn : IsScale n) : 1 ≤ rneVal f.fmt n :=
  le_rneVal (intCast_lt_overflowBound hn.abs_self_le) isValue_one (by exact_mod_cast hn.1)

theorem IsScale.rneVal_le (hn : IsScale n) : rneVal f.fmt n ≤ 2 ^ 32 :=
  Machine.rneVal_le (intCast_lt_overflowBound hn.abs_self_le) (isValue_two_pow le_rfl) (by exact_mod_cast hn.2.le)

theorem IsScale.isValue_rneVal (hn : IsScale n) : IsValue f.fmt (rneVal f.fmt n) :=
  Machine.isValue_rneVal (intCast_lt_overflowBound hn.abs_self_le)

theorem signBit_toF_of_nonneg {F : FloatFmt} (hi : 0 ≤ i) : signBit F (toF F i) = 0 := by
  rw [toF, signBit_rne, decide_eq_false (by exact_mod_cast hi.not_gt)]
  exact ite_self 0

/-! ## The rounded product of a clamped lane and a scale (R122, R124) -/

/-- The value of the product of c and the scale constant of n, rounded once. -/
def scaledVal (f : LaneFloat) (n : Int) (c : Rat) : Rat := rneVal f.fmt (c * rneVal f.fmt n)

theorem abs_product_le (hn : IsScale n) (hc : |c| ≤ 1) : |c * rneVal f.fmt n| ≤ rneVal f.fmt n := by
  have hS : 0 ≤ rneVal f.fmt n := zero_le_one.trans hn.one_le_rneVal
  rw [abs_mul, abs_of_nonneg hS]
  exact mul_le_of_le_one_left hS hc

theorem product_lt_overflowBound (hn : IsScale n) (hc : |c| ≤ 1) : |c * rneVal f.fmt n| < overflowBound f.fmt :=
  lt_overflowBound_of_le ((abs_product_le hn hc).trans hn.rneVal_le)

theorem decodeF_rne_product (hn : IsScale n) (hc : |c| ≤ 1) (s0 : BitVec 1) :
    decodeF f.fmt (rne f.fmt (c * rneVal f.fmt n) s0) = .finite (scaledVal f n c) :=
  decodeF_rne_eq_rneVal s0 (product_lt_overflowBound hn hc)

theorem decodeF_mulF_toF (hn : IsScale n) (hc : |c| ≤ 1) {x : BitVec f.fmt.width} (hx : decodeF f.fmt x = .finite c) :
    decodeF f.fmt (mulF f.fmt x (toF f.fmt n)) = .finite (scaledVal f n c) := by
  rw [mulF_of_finite hx (decodeF_toF hn.abs_self_le)]
  exact decodeF_rne_product hn hc _

theorem scaledVal_zero : scaledVal f n 0 = 0 := by
  rw [scaledVal, zero_mul, rneVal_zero]

theorem scaledVal_one (hn : IsScale n) : scaledVal f n 1 = rneVal f.fmt n := by
  rw [scaledVal, one_mul, rneVal_of_isValue hn.isValue_rneVal]

theorem scaledVal_neg (hn : IsScale n) (hc : |c| ≤ 1) : scaledVal f n (-c) = -scaledVal f n c := by
  rw [scaledVal, neg_mul, rneVal_neg (product_lt_overflowBound hn hc), scaledVal]

theorem scaledVal_nonneg (hn : IsScale n) (h0 : 0 ≤ c) (h1 : c ≤ 1) : 0 ≤ scaledVal f n c :=
  le_rneVal (product_lt_overflowBound hn (abs_le.mpr ⟨by linarith, h1⟩)) isValue_zero
    (mul_nonneg h0 (zero_le_one.trans hn.one_le_rneVal))

theorem abs_scaledVal_le (hn : IsScale n) (hc : |c| ≤ 1) : |scaledVal f n c| ≤ rneVal f.fmt n :=
  abs_rneVal_le (product_lt_overflowBound hn hc) hn.isValue_rneVal (abs_product_le hn hc)

/-! ## The rounded quotient of a lane by a scale (R123, R125) -/

/-- The value of the quotient of i, converted, by the scale constant of n, rounded once. -/
def gridVal (f : LaneFloat) (n i : Int) : Rat := rneVal f.fmt (rneVal f.fmt i / rneVal f.fmt n)

theorem abs_quotient_le (hn : IsScale n) (hi : |i| ≤ 2 ^ 32) : |rneVal f.fmt i / rneVal f.fmt n| ≤ 2 ^ 32 := by
  have hS := hn.one_le_rneVal (f := f)
  have hI : |rneVal f.fmt i| ≤ 2 ^ 32 :=
    abs_rneVal_le (intCast_lt_overflowBound hi) (isValue_two_pow le_rfl) (by exact_mod_cast hi)
  rw [abs_div, abs_of_pos (a := rneVal f.fmt n) (by linarith)]
  exact (div_le_self (abs_nonneg _) hS).trans hI

theorem decodeF_rne_quotient (hn : IsScale n) (hi : |i| ≤ 2 ^ 32) (s0 : BitVec 1) :
    decodeF f.fmt (rne f.fmt (rneVal f.fmt i / rneVal f.fmt n) s0) = .finite (gridVal f n i) :=
  decodeF_rne_eq_rneVal s0 (lt_overflowBound_of_le (abs_quotient_le hn hi))

theorem divF_toF (hn : IsScale n) (hi : |i| ≤ 2 ^ 32) : divF f.fmt (toF f.fmt i) (toF f.fmt n) =
    rne f.fmt (rneVal f.fmt i / rneVal f.fmt n) (signBit f.fmt (toF f.fmt i)) := by
  rw [divF_of_finite (decodeF_toF hi) (decodeF_toF hn.abs_self_le), signBit_toF_of_nonneg (zero_le_one.trans hn.1)]
  exact congrArg _ BitVec.xor_zero

theorem decodeF_divF_toF (hn : IsScale n) (hi : |i| ≤ 2 ^ 32) :
    decodeF f.fmt (divF f.fmt (toF f.fmt i) (toF f.fmt n)) = .finite (gridVal f n i) := by
  rw [divF_toF hn hi, decodeF_rne_quotient hn hi]

theorem gridVal_zero : gridVal f n 0 = 0 := by
  rw [gridVal, Int.cast_zero, rneVal_zero, zero_div, rneVal_zero]

theorem gridVal_self (hn : IsScale n) : gridVal f n n = 1 := by
  have hS := hn.one_le_rneVal (f := f)
  rw [gridVal, div_self (by linarith), rneVal_of_isValue isValue_one]

theorem gridVal_neg (hn : IsScale n) (hi : |i| ≤ 2 ^ 32) : gridVal f n (-i) = -gridVal f n i := by
  rw [gridVal, Int.cast_neg, rneVal_neg (intCast_lt_overflowBound hi), neg_div,
    rneVal_neg (lt_overflowBound_of_le (abs_quotient_le hn hi)), gridVal]

theorem gridVal_nonneg (hn : IsScale n) (h0 : 0 ≤ i) (hi : |i| ≤ 2 ^ 32) : 0 ≤ gridVal f n i := by
  have hI : 0 ≤ rneVal f.fmt i := le_rneVal (intCast_lt_overflowBound hi) isValue_zero (by exact_mod_cast h0)
  exact le_rneVal (lt_overflowBound_of_le (abs_quotient_le hn hi)) isValue_zero
    (div_nonneg hI (zero_le_one.trans hn.one_le_rneVal))

theorem gridVal_pos (hn : IsScale n) (h0 : 0 < i) (hi : |i| ≤ 2 ^ 32) : 0 < gridVal f n i := by
  have hS := hn.one_le_rneVal (f := f)
  have hI : 1 ≤ rneVal f.fmt i := le_rneVal (intCast_lt_overflowBound hi) isValue_one (by exact_mod_cast h0)
  have hquot : (2 : Rat) ^ (-32 : Int) ≤ rneVal f.fmt i / rneVal f.fmt n :=
    (inv_anti₀ (by linarith) hn.rneVal_le).trans (by rw [← one_div]; gcongr)
  have hvalue : IsValue f.fmt ((2 : Rat) ^ (-32 : Int)) := by
    refine isValue_two_zpow ?_ ?_ <;> cases f <;> decide
  exact lt_of_lt_of_le (by positivity) (le_rneVal (lt_overflowBound_of_le (abs_quotient_le hn hi)) hvalue hquot)

/-- Only the lane value 0 has the quotient 0. -/
theorem gridVal_ne_zero (hn : IsScale n) (h0 : i ≠ 0) (hi : |i| ≤ 2 ^ 32) : gridVal f n i ≠ 0 := by
  rcases h0.lt_or_gt with hneg | hpos
  · have hflip := gridVal_pos (f := f) hn (neg_pos.mpr hneg) (by rwa [abs_neg])
    rw [gridVal_neg hn hi] at hflip
    linarith
  · exact (gridVal_pos hn hpos hi).ne'

theorem one_le_gridVal (hn : IsScale n) (hle : n ≤ i) (hi : |i| ≤ 2 ^ 32) : 1 ≤ gridVal f n i := by
  have hS := hn.one_le_rneVal (f := f)
  have hI : rneVal f.fmt n ≤ rneVal f.fmt i :=
    rneVal_mono (intCast_lt_overflowBound hn.abs_self_le) (intCast_lt_overflowBound hi) (by exact_mod_cast hle)
  exact le_rneVal (lt_overflowBound_of_le (abs_quotient_le hn hi)) isValue_one ((one_le_div (by linarith)).mpr hI)

/-- A lane value within the scale has a quotient within 1. -/
theorem abs_quotient_le_one (hn : IsScale n) (hi : |i| ≤ n) : |rneVal f.fmt i / rneVal f.fmt n| ≤ 1 := by
  have hS := hn.one_le_rneVal (f := f)
  have hn' := intCast_lt_overflowBound (f := f) hn.abs_self_le
  have hi' := intCast_lt_overflowBound (f := f) (hn.abs_le hi)
  obtain ⟨hlo, hhi⟩ := abs_le.mp hi
  have hI : |rneVal f.fmt i| ≤ rneVal f.fmt n := by
    refine abs_le.mpr ⟨?_, rneVal_mono hi' hn' (by exact_mod_cast hhi)⟩
    rw [← rneVal_neg hn']
    exact rneVal_mono (by rwa [abs_neg]) hi' (by exact_mod_cast hlo)
  rw [abs_div, abs_of_pos (a := rneVal f.fmt n) (by linarith)]
  exact (div_le_one (by linarith)).mpr hI

theorem abs_gridVal_le_one (hn : IsScale n) (hi : |i| ≤ n) : |gridVal f n i| ≤ 1 :=
  abs_rneVal_le (lt_overflowBound_of_le (abs_quotient_le hn (hn.abs_le hi))) isValue_one (abs_quotient_le_one hn hi)

/-! ## Scales with seven bits to spare (R130, R132) -/

/-- A scale whose integers the format holds exactly, with seven bits to spare below the unit. -/
def Fits (f : LaneFloat) (n : Int) : Prop := IsScale n ∧ n * 2 ^ 7 ≤ 2 ^ f.fmt.fracBits

theorem Fits.rneVal_intCast (hn : Fits f n) (hi : |i| ≤ n + 1) : rneVal f.fmt i = i := by
  obtain ⟨hscale, hfit⟩ := hn
  have hpos := hscale.1
  refine rneVal_of_isValue (isValue_intCast ?_ (hscale.abs_le_of_succ hi))
  rw [pow_succ]
  linarith

theorem Fits.rneVal_self (hn : Fits f n) : rneVal f.fmt n = n :=
  hn.rneVal_intCast (Int.le_add_one (abs_of_pos (Int.lt_of_lt_of_le one_pos hn.1.1)).le)

/-- The rounded product is within 2^-8 of the exact one. -/
theorem Fits.abs_scaledVal_sub_le (hn : Fits f n) (hc : |c| ≤ 1) : |scaledVal f n c - c * n| ≤ 1 / 2 ^ 8 := by
  have hS := hn.rneVal_self
  have hfit : (n : Rat) * 2 ^ 7 ≤ 2 ^ f.fmt.fracBits := by exact_mod_cast hn.2
  have hlt : |c * (n : Rat)| < (2 : Rat) ^ ((f.fmt.fracBits : Int) - 7 + 1) := by
    have hle := abs_product_le (f := f) hn.1 hc
    have hunit : (2 : Rat) ^ ((f.fmt.fracBits : Int) - 7 + 1) = 2 ^ f.fmt.fracBits / 2 ^ 6 := by
      rw [show (f.fmt.fracBits : Int) - 7 + 1 = f.fmt.fracBits - 6 by ring, zpow_sub₀ two_ne_zero, zpow_natCast]
      rfl
    have hpos : (0 : Rat) < n := by exact_mod_cast Int.lt_of_lt_of_le one_pos hn.1.1
    rw [hS] at hle
    rw [hunit, lt_div_iff₀ (by norm_num)]
    linarith
  have herr := abs_rneVal_sub_le (F := f.fmt) (k := (f.fmt.fracBits : Int) - 7)
    (by rw [← hS]; exact product_lt_overflowBound hn.1 hc) (by cases f <;> decide) hlt
  rw [show (f.fmt.fracBits : Int) - 7 - f.fmt.fracBits - 1 = -8 by ring] at herr
  rw [scaledVal, hS]
  exact herr.trans (by norm_num)

/-- The rounded quotient is within 2^-7 grid steps of the exact one, one step past the scale too. -/
theorem Fits.abs_gridVal_mul_sub_le (hn : Fits f n) (hi : |i| ≤ n + 1) : |gridVal f n i * n - i| ≤ 1 / 2 ^ 7 := by
  have hS := hn.rneVal_self
  have hI := hn.rneVal_intCast hi
  have hone : (1 : Rat) ≤ n := by exact_mod_cast hn.1.1
  have hpos : (0 : Rat) < n := zero_lt_one.trans_le hone
  have hfit : (n : Rat) * 2 ^ 7 ≤ 2 ^ f.fmt.fracBits := by exact_mod_cast hn.2
  have hquot : |(i : Rat) / n| < (2 : Rat) ^ ((1 : Int) + 1) := by
    have hi' : |(i : Rat)| ≤ n + 1 := by exact_mod_cast hi
    rw [abs_div, abs_of_pos hpos, div_lt_iff₀ hpos]
    norm_num
    linarith
  have hbound := abs_quotient_le (f := f) hn.1 (hn.1.abs_le_of_succ hi)
  rw [hI, hS] at hbound
  have herr := abs_rneVal_sub_le (F := f.fmt) (k := 1) (lt_overflowBound_of_le hbound) (by cases f <;> decide) hquot
  rw [show 1 - (f.fmt.fracBits : Int) - 1 = -f.fmt.fracBits by ring, zpow_neg, zpow_natCast] at herr
  calc |gridVal f n i * n - i| = |gridVal f n i - (i : Rat) / n| * n := by
        rw [← abs_of_pos hpos, ← abs_mul, abs_of_pos hpos, sub_mul, div_mul_cancel₀ _ hpos.ne']
    _ ≤ (2 ^ f.fmt.fracBits)⁻¹ * n := by
        rw [gridVal, hI, hS]
        exact mul_le_mul_of_nonneg_right herr hpos.le
    _ = (2 ^ f.fmt.fracBits)⁻¹ * (n * 2 ^ 7) * (1 / 2 ^ 7) := by ring
    _ ≤ (2 ^ f.fmt.fracBits)⁻¹ * 2 ^ f.fmt.fracBits * (1 / 2 ^ 7) := by gcongr
    _ = 1 / 2 ^ 7 := by rw [inv_mul_cancel₀ (by positivity), one_mul]

/-- One step past the scale the quotient rounds to more than 1. -/
theorem Fits.one_lt_gridVal_succ (hn : Fits f n) : 1 < gridVal f n (n + 1) := by
  have hpos : (0 : Rat) < n := by exact_mod_cast Int.lt_of_lt_of_le one_pos hn.1.1
  have herr := (abs_le.mp (hn.abs_gridVal_mul_sub_le (abs_of_pos (by linarith [hn.1.1])).le)).1
  push_cast at herr
  rw [← mul_lt_mul_iff_of_pos_right hpos]
  linarith

/-- Scaling a grid value back and rounding gives its integer. -/
theorem Fits.roundAway_scaledVal_gridVal (hn : Fits f n) (hi : |i| ≤ n) : roundAway (scaledVal f n (gridVal f n i)) = i := by
  refine roundAway_eq_of_near ?_
  have hprod := hn.abs_scaledVal_sub_le (abs_gridVal_le_one (f := f) hn.1 hi)
  have hquot := hn.abs_gridVal_mul_sub_le (Int.le_add_one hi)
  have htri := abs_sub_le (scaledVal f n (gridVal f n i)) (gridVal f n i * n) i
  linarith

/-- The grid value of a rounded product is within one grid step of the clamped value. -/
theorem Fits.abs_gridVal_roundAway_sub_le (hn : Fits f n) (h0 : 0 ≤ c) (h1 : c ≤ 1) :
    |gridVal f n (roundAway (scaledVal f n c)) - c| ≤ 1 / n := by
  have hc : |c| ≤ 1 := abs_le.mpr ⟨by linarith, h1⟩
  have hpos : (0 : Rat) < n := by exact_mod_cast Int.lt_of_lt_of_le one_pos hn.1.1
  have hp0 : 0 ≤ scaledVal f n c := scaledVal_nonneg hn.1 h0 h1
  have hpn : scaledVal f n c ≤ n := hn.rneVal_self ▸ (le_abs_self _).trans (abs_scaledVal_le hn.1 hc)
  have hk : |roundAway (scaledVal f n c)| ≤ n := by
    rw [abs_of_nonneg (le_roundAway hp0 (by exact_mod_cast hp0))]
    exact roundAway_le hp0 hpn
  have hgrid := hn.abs_gridVal_mul_sub_le (Int.le_add_one hk)
  have hround := abs_roundAway_sub_le hp0
  have hprod := hn.abs_scaledVal_sub_le hc
  rw [le_div_iff₀ hpos]
  have hsplit : |gridVal f n (roundAway (scaledVal f n c)) - c| * n =
      |(gridVal f n (roundAway (scaledVal f n c)) * n - roundAway (scaledVal f n c)) +
        (roundAway (scaledVal f n c) - scaledVal f n c) + (scaledVal f n c - c * n)| := by
    rw [sub_add_sub_cancel, sub_add_sub_cancel, ← sub_mul, abs_mul, abs_of_pos hpos]
  rw [hsplit]
  refine (abs_add_three _ _ _).trans ?_
  linarith

end Lanes

end Sys2Proof.Machine
end

section
/-! PROOFS for 41_normalized.md, lanes: what the four normalized operations do to one lane, in every width and format (R121 to
R125, R128), and where the lane stands in the result. -/

namespace Sys2Proof.Machine

open Sys2Proof.Safety

/-! ## The scales of the twelve combinations (R121) -/

section Scales

variable {b : LaneBits} {f : LaneFloat}

theorem isScale_unormMax (b : LaneBits) : IsScale (unormMax b) := by
  cases b <;> exact ⟨by decide, by decide⟩

theorem isScale_snormMax (b : LaneBits) : IsScale (snormMax b) := by
  cases b <;> exact ⟨by decide, by decide⟩

/-- Only binary32 with 32-bit lanes has no bits to spare. -/
theorem fits_unormMax (h : ¬ (b = .b32 ∧ f = .f32)) : Fits f (unormMax b) := by
  refine ⟨isScale_unormMax b, ?_⟩
  cases b <;> cases f
  case b32.f32 => exact absurd ⟨rfl, rfl⟩ h
  all_goals decide

theorem fits_snormMax (h : ¬ (b = .b32 ∧ f = .f32)) : Fits f (snormMax b) := by
  have hle : snormMax b ≤ unormMax b := by cases b <;> decide
  exact ⟨isScale_snormMax b, (Int.mul_le_mul_of_nonneg_right hle (by norm_num)).trans (fits_unormMax h).2⟩

/-- The scale constant of 32-bit lanes is rounded up to 2^32 in binary32. -/
theorem rneVal_unormMax_b32 : rneVal .binary32 (unormMax .b32) = 2 ^ 32 :=
  finiteValue_of_finite (F := .binary32) (b := toF .binary32 (unormMax .b32)) (by decide)

theorem rneVal_snormMax_b32 : rneVal .binary32 (snormMax .b32) = 2 ^ 31 :=
  finiteValue_of_finite (F := .binary32) (b := toF .binary32 (snormMax .b32)) (by decide)

/-- No scale constant is below its integer. -/
theorem unormMax_le_rneVal (b : LaneBits) (f : LaneFloat) : (unormMax b : Rat) ≤ rneVal f.fmt (unormMax b) := by
  by_cases h : b = .b32 ∧ f = .f32
  · obtain ⟨rfl, rfl⟩ := h
    rw [rneVal_unormMax_b32, unormMax]
    norm_num
  · rw [(fits_unormMax h).rneVal_self]

theorem snormMax_le_rneVal (b : LaneBits) (f : LaneFloat) : (snormMax b : Rat) ≤ rneVal f.fmt (snormMax b) := by
  by_cases h : b = .b32 ∧ f = .f32
  · obtain ⟨rfl, rfl⟩ := h
    rw [rneVal_snormMax_b32, snormMax]
    norm_num
  · rw [(fits_snormMax h).rneVal_self]

end Scales

/-! ## The clamp at its two ends (R19) -/

section Clamp

variable {F : FloatFmt} {x : BitVec F.width} {lo hi c : Rat}

theorem decodeF_clampF_of_neg_inf (hlo : IsValue F lo) (hx : decodeF F x = .inf true) :
    decodeF F (clampF F x lo hi) = .finite lo := by
  rw [clampF_of_neg_inf hx, decodeF_rne_eq_rneVal 0 hlo.lt_overflowBound, rneVal_of_isValue hlo]

theorem decodeF_clampF_of_pos_inf (hhi : IsValue F hi) (hx : decodeF F x = .inf false) :
    decodeF F (clampF F x lo hi) = .finite hi := by
  rw [clampF_of_pos_inf hx, decodeF_rne_eq_rneVal 0 hhi.lt_overflowBound, rneVal_of_isValue hhi]

/-- A pattern that is no NaN clamps to a finite value within the bounds. -/
theorem exists_clampF (hlo : IsValue F lo) (hhi : IsValue F hi) (hle : lo ≤ hi) (hx : isNaN F x = false) :
    ∃ c, decodeF F (clampF F x lo hi) = .finite c ∧ lo ≤ c ∧ c ≤ hi := by
  cases hv : decodeF F x with
  | nan => rw [isNaN, hv] at hx; exact absurd hx (by decide)
  | inf neg =>
    cases neg with
    | true => exact ⟨lo, decodeF_clampF_of_neg_inf hlo hv, le_rfl, hle⟩
    | false => exact ⟨hi, decodeF_clampF_of_pos_inf hhi hv, hle, le_rfl⟩
  | finite v => exact ⟨_, decodeF_clampF hlo hhi hle hv, le_max_left _ _, max_le hle (min_le_right _ _)⟩

/-- What a pattern clamps to is within the bounds. -/
theorem clampF_mem (hlo : IsValue F lo) (hhi : IsValue F hi) (hle : lo ≤ hi)
    (hc : decodeF F (clampF F x lo hi) = .finite c) : lo ≤ c ∧ c ≤ hi := by
  obtain ⟨c', hc', hmem⟩ := exists_clampF hlo hhi hle (isNaN_of_clampF_finite hc)
  have heq : c = c' := Value.finite.inj (hc.symm.trans hc')
  exact heq ▸ hmem

end Clamp

/-! ## One packed lane (R122, R124, R128) -/

section Lane

variable {b : LaneBits} {f : LaneFloat} {x : BitVec f.fmt.width} {c : Rat}

theorem packUnormLane_of_nan (hx : isNaN f.fmt x = true) : packUnormLane b f x = nanPack .unorm b f x := if_pos hx

theorem packSnormLane_of_nan (hx : isNaN f.fmt x = true) : packSnormLane b f x = nanPack .snorm b f x := if_pos hx

/-- What a lane clamps to for `packUnorm`. -/
theorem clampUnorm_mem (hc : decodeF f.fmt (clampF f.fmt x 0 1) = .finite c) : 0 ≤ c ∧ c ≤ 1 :=
  clampF_mem isValue_zero isValue_one zero_le_one hc

/-- What a lane clamps to for `packSnorm`. -/
theorem clampSnorm_mem (hc : decodeF f.fmt (clampF f.fmt x ((-1 : Int) : Rat) 1) = .finite c) : |c| ≤ 1 := by
  obtain ⟨hlo, hhi⟩ := clampF_mem isValue_neg_one isValue_one (by norm_num) hc
  exact abs_le.mpr ⟨by simpa using hlo, hhi⟩

theorem decodeF_clampSnorm {v : Rat} (hx : decodeF f.fmt x = .finite v) :
    decodeF f.fmt (clampF f.fmt x ((-1 : Int) : Rat) 1) = .finite (max (-1) (min v 1)) := by
  refine (decodeF_clampF isValue_neg_one isValue_one (by norm_num) hx).trans ?_
  rw [Int.cast_neg, Int.cast_one]

/-- A clamped lane is scaled with one rounding, rounded to an integer and saturated (R122). -/
theorem packUnormLane_eq (hc : decodeF f.fmt (clampF f.fmt x 0 1) = .finite c) :
    packUnormLane b f x = min (roundAway (scaledVal f (unormMax b) c)) (unormMax b) := by
  obtain ⟨h0, h1⟩ := clampUnorm_mem hc
  have hprod := decodeF_mulF_toF (isScale_unormMax b) (abs_le.mpr ⟨by linarith, h1⟩) hc
  rw [packUnormLane, if_neg (by simp [isNaN_of_clampF_finite hc])]
  exact congrArg (fun p => min (roundAway p) _) (finiteValue_of_finite hprod)

/-- A clamped lane is scaled with one rounding, rounded to an integer and saturated at both ends (R124). -/
theorem packSnormLane_eq (hc : decodeF f.fmt (clampF f.fmt x ((-1 : Int) : Rat) 1) = .finite c) :
    packSnormLane b f x = clampInt (-snormMax b) (snormMax b) (roundAway (scaledVal f (snormMax b) c)) := by
  have hprod := decodeF_mulF_toF (isScale_snormMax b) (clampSnorm_mem hc) hc
  rw [packSnormLane, if_neg (by simp [isNaN_of_clampF_finite hc])]
  exact congrArg (fun p => clampInt _ _ (roundAway p)) (finiteValue_of_finite hprod)

theorem clampInt_mem {lo hi v : Int} (h : lo ≤ hi) : lo ≤ clampInt lo hi v ∧ clampInt lo hi v ≤ hi :=
  ⟨le_max_left _ _, max_le h (min_le_right _ _)⟩

theorem packUnormLane_mem (b : LaneBits) (f : LaneFloat) (x : BitVec f.fmt.width) :
    0 ≤ packUnormLane b f x ∧ packUnormLane b f x ≤ unormMax b := by
  cases hx : isNaN f.fmt x with
  | true => exact packUnormLane_of_nan hx ▸ nanPack_unorm_bounds b f x
  | false =>
    obtain ⟨c, hc, h0, h1⟩ := exists_clampF isValue_zero isValue_one zero_le_one hx
    have hp := scaledVal_nonneg (f := f) (isScale_unormMax b) h0 h1
    rw [packUnormLane_eq hc]
    exact ⟨le_min (le_roundAway hp (by exact_mod_cast hp)) (zero_le_one.trans (isScale_unormMax b).1), min_le_right _ _⟩

theorem packSnormLane_mem (b : LaneBits) (f : LaneFloat) (x : BitVec f.fmt.width) :
    -snormMax b ≤ packSnormLane b f x ∧ packSnormLane b f x ≤ snormMax b := by
  cases hx : isNaN f.fmt x with
  | true => exact packSnormLane_of_nan hx ▸ nanPack_snorm_bounds b f x
  | false =>
    obtain ⟨c, hc, -⟩ := exists_clampF isValue_neg_one isValue_one (by norm_num) hx
    have hpos := (isScale_snormMax b).1
    rw [packSnormLane_eq hc]
    exact clampInt_mem (by omega)

theorem packUnormLane_of_zero (hc : decodeF f.fmt (clampF f.fmt x 0 1) = .finite 0) : packUnormLane b f x = 0 := by
  rw [packUnormLane_eq hc, scaledVal_zero, roundAway_zero, min_eq_left (zero_le_one.trans (isScale_unormMax b).1)]

theorem packUnormLane_of_one (hc : decodeF f.fmt (clampF f.fmt x 0 1) = .finite 1) :
    packUnormLane b f x = unormMax b := by
  have hscale := isScale_unormMax b
  rw [packUnormLane_eq hc, scaledVal_one hscale, min_eq_right]
  exact le_roundAway (zero_le_one.trans hscale.one_le_rneVal) (unormMax_le_rneVal b f)

/-- The saturation acts in binary32 at 32 bits alone (R122). -/
theorem roundAway_scaledVal_unormMax_le (h : ¬ (b = .b32 ∧ f = .f32)) (h0 : 0 ≤ c) (h1 : c ≤ 1) :
    roundAway (scaledVal f (unormMax b) c) ≤ unormMax b := by
  have hscale := isScale_unormMax b
  have hle := abs_scaledVal_le (f := f) hscale (abs_le.mpr ⟨by linarith, h1⟩)
  rw [(fits_unormMax h).rneVal_self] at hle
  exact roundAway_le (scaledVal_nonneg hscale h0 h1) ((le_abs_self _).trans hle)

/-- A lane with exponent field 0 is far below one grid step. -/
theorem abs_le_of_expField_zero {v : Rat} (hx : decodeF f.fmt x = .finite v) (he : expField f.fmt x = 0) :
    |v| ≤ (2 : Rat) ^ (-34 : Int) := by
  have he0 : (expField f.fmt x).toNat = 0 := by rw [he]; rfl
  have hlt := patMag_lt (F := f.fmt) (b := x)
  rw [patExp, if_pos he0] at hlt
  rw [abs_of_finite hx]
  exact hlt.le.trans (zpow_le_zpow_right₀ (by norm_num) (by cases f <;> decide))

/-- A clamped value of at most 2^-34 is scaled to at most a quarter. -/
theorem roundAway_scaledVal_of_tiny {n : Int} (hn : IsScale n) (h0 : 0 ≤ c) (hc : c ≤ (2 : Rat) ^ (-34 : Int)) :
    roundAway (scaledVal f n c) = 0 := by
  have h1 : c ≤ 1 := hc.trans (by norm_num)
  have hprod : c * rneVal f.fmt n ≤ (2 : Rat) ^ (-2 : Int) :=
    calc c * rneVal f.fmt n ≤ (2 : Rat) ^ (-34 : Int) * 2 ^ 32 :=
          mul_le_mul hc hn.rneVal_le (zero_le_one.trans hn.one_le_rneVal) (by positivity)
      _ = (2 : Rat) ^ (-2 : Int) := by norm_num
  have hquarter : IsValue f.fmt ((2 : Rat) ^ (-2 : Int)) := by
    refine isValue_two_zpow ?_ ?_ <;> cases f <;> decide
  have hp : scaledVal f n c ≤ (2 : Rat) ^ (-2 : Int) :=
    rneVal_le (product_lt_overflowBound hn (abs_le.mpr ⟨by linarith, h1⟩)) hquarter hprod
  refine roundAway_eq_of_near ?_
  rw [Int.cast_zero, sub_zero, abs_of_nonneg (scaledVal_nonneg hn h0 h1)]
  exact hp.trans_lt (by norm_num)

/-- A lane with exponent field 0 packs to 0 (R122). -/
theorem packUnormLane_of_expField_zero {v : Rat} (hx : decodeF f.fmt x = .finite v) (he : expField f.fmt x = 0) :
    packUnormLane b f x = 0 := by
  have hscale := isScale_unormMax b
  have htiny : max 0 (min v 1) ≤ (2 : Rat) ^ (-34 : Int) :=
    max_le (by positivity) ((min_le_left _ _).trans ((le_abs_self v).trans (abs_le_of_expField_zero hx he)))
  rw [packUnormLane_eq (decodeF_clampF isValue_zero isValue_one zero_le_one hx),
    roundAway_scaledVal_of_tiny hscale (le_max_left _ _) htiny, min_eq_left (zero_le_one.trans hscale.1)]

theorem packSnormLane_of_zero (hc : decodeF f.fmt (clampF f.fmt x ((-1 : Int) : Rat) 1) = .finite 0) :
    packSnormLane b f x = 0 := by
  have hpos := (isScale_snormMax b).1
  rw [packSnormLane_eq hc, scaledVal_zero, roundAway_zero, clampInt]
  omega

theorem snormMax_le_roundAway (b : LaneBits) (f : LaneFloat) : snormMax b ≤ roundAway (rneVal f.fmt (snormMax b)) :=
  le_roundAway (zero_le_one.trans (isScale_snormMax b).one_le_rneVal) (snormMax_le_rneVal b f)

theorem packSnormLane_of_one (hc : decodeF f.fmt (clampF f.fmt x ((-1 : Int) : Rat) 1) = .finite 1) :
    packSnormLane b f x = snormMax b := by
  have hscale := isScale_snormMax b
  have hpos := hscale.1
  have hle := snormMax_le_roundAway b f
  rw [packSnormLane_eq hc, scaledVal_one hscale, clampInt]
  omega

theorem packSnormLane_of_neg_one (hc : decodeF f.fmt (clampF f.fmt x ((-1 : Int) : Rat) 1) = .finite (-1)) :
    packSnormLane b f x = -snormMax b := by
  have hscale := isScale_snormMax b
  have hpos := hscale.1
  have hle := snormMax_le_roundAway b f
  rw [packSnormLane_eq hc, scaledVal_neg hscale (by norm_num), scaledVal_one hscale, roundAway_neg, clampInt]
  omega

/-- The saturation acts in binary32 at 32 bits alone (R124). -/
theorem floor_abs_scaledVal_snormMax_le (h : ¬ (b = .b32 ∧ f = .f32)) (hc : |c| ≤ 1) :
    ⌊|scaledVal f (snormMax b) c| + 1 / 2⌋ ≤ snormMax b := by
  have hle := abs_scaledVal_le (f := f) (isScale_snormMax b) hc
  rw [(fits_snormMax h).rneVal_self] at hle
  rw [← roundAway_of_nonneg (abs_nonneg _)]
  exact roundAway_le (abs_nonneg _) hle

/-! ## One unpacked lane (R123, R125) -/

theorem toNat_le_unormMax (u : BitVec b.bits) : |(u.toNat : Int)| ≤ unormMax b := by
  have hlt : (u.toNat : Int) < 2 ^ b.bits := by exact_mod_cast u.isLt
  rw [Nat.abs_cast, unormMax]
  omega

/-- A lane value of two's complement is at most one step past the scale (R125). -/
theorem abs_toInt_le (i : BitVec b.bits) : |i.toInt| ≤ snormMax b + 1 := by
  have hlo := BitVec.le_toInt i
  have hhi := BitVec.toInt_lt (x := i)
  rw [snormMax, abs_le]
  constructor <;> omega

theorem abs_toInt_le_two_pow (i : BitVec b.bits) : |i.toInt| ≤ 2 ^ 32 :=
  (isScale_snormMax b).abs_le_of_succ (abs_toInt_le i)

theorem unpackUnormLane_eq (u : BitVec b.bits) : unpackUnormLane b f u =
    rne f.fmt (rneVal f.fmt (u.toNat : Int) / rneVal f.fmt (unormMax b)) 0 := by
  have hscale := isScale_unormMax b
  rw [unpackUnormLane, scaleU, divF_toF hscale (hscale.abs_le (toNat_le_unormMax u)),
    signBit_toF_of_nonneg (Int.natCast_nonneg _)]

theorem decodeF_unpackUnormLane (u : BitVec b.bits) :
    decodeF f.fmt (unpackUnormLane b f u) = .finite (gridVal f (unormMax b) u.toNat) :=
  decodeF_divF_toF (isScale_unormMax b) ((isScale_unormMax b).abs_le (toNat_le_unormMax u))

theorem gridVal_unormMax_mem (u : BitVec b.bits) :
    0 ≤ gridVal f (unormMax b) u.toNat ∧ gridVal f (unormMax b) u.toNat ≤ 1 := by
  have hscale := isScale_unormMax b
  have hu := toNat_le_unormMax u
  exact ⟨gridVal_nonneg hscale (Int.natCast_nonneg _) (hscale.abs_le hu), (abs_le.mp (abs_gridVal_le_one hscale hu)).2⟩

/-- An unpacked unorm lane has sign bit 0: its quotient is not negative. -/
theorem signBit_unpackUnormLane (u : BitVec b.bits) : signBit f.fmt (unpackUnormLane b f u) = 0 := by
  have hscale := isScale_unormMax b
  have hU : 0 ≤ rneVal f.fmt (u.toNat : Int) :=
    le_rneVal (intCast_lt_overflowBound (hscale.abs_le (toNat_le_unormMax u))) isValue_zero
      (by exact_mod_cast Int.natCast_nonneg u.toNat)
  have hquot := div_nonneg hU (zero_le_one.trans (hscale.one_le_rneVal (f := f)))
  rw [unpackUnormLane_eq, signBit_rne, decide_eq_false hquot.not_gt]
  exact ite_self 0

theorem unpackUnormLane_zero {u : BitVec b.bits} (hu : u.toNat = 0) : unpackUnormLane b f u = 0 := by
  rw [unpackUnormLane_eq, hu, Nat.cast_zero, Int.cast_zero, rneVal_zero, zero_div, rne_zero]
  cases f <;> rfl

/-- The quotient of a snorm lane, clamped to [-1, 1] (R125). -/
theorem decodeF_unpackSnormLane (i : BitVec b.bits) : decodeF f.fmt (unpackSnormLane b f i) =
    .finite (max (-1) (min (gridVal f (snormMax b) i.toInt) 1)) :=
  decodeF_clampSnorm (decodeF_divF_toF (isScale_snormMax b) (abs_toInt_le_two_pow i))

/-- Within the scale the clamp changes nothing. -/
theorem decodeF_unpackSnormLane_of_le {i : BitVec b.bits} (hi : |i.toInt| ≤ snormMax b) :
    decodeF f.fmt (unpackSnormLane b f i) = .finite (gridVal f (snormMax b) i.toInt) := by
  obtain ⟨hlo, hhi⟩ := abs_le.mp (abs_gridVal_le_one (f := f) (isScale_snormMax b) hi)
  rw [decodeF_unpackSnormLane, min_eq_left hhi, max_eq_right hlo]

theorem gridVal_snormMax_le_neg_one {i : BitVec b.bits} (hi : i.toInt ≤ -snormMax b) :
    gridVal f (snormMax b) i.toInt ≤ -1 := by
  have hone := one_le_gridVal (f := f) (isScale_snormMax b) (le_neg_of_le_neg hi)
    (by rw [abs_neg]; exact abs_toInt_le_two_pow i)
  rw [gridVal_neg (isScale_snormMax b) (abs_toInt_le_two_pow i)] at hone
  linarith

/-- The two least lane values give -1 (R125). -/
theorem decodeF_unpackSnormLane_of_least {i : BitVec b.bits} (hi : i.toInt ≤ -snormMax b) :
    decodeF f.fmt (unpackSnormLane b f i) = .finite (-1) := by
  have hq := gridVal_snormMax_le_neg_one (f := f) hi
  rw [decodeF_unpackSnormLane, max_eq_left (min_le_of_left_le hq)]

theorem decodeF_unpackSnormLane_of_largest {i : BitVec b.bits} (hi : i.toInt = snormMax b) :
    decodeF f.fmt (unpackSnormLane b f i) = .finite 1 := by
  have hscale := isScale_snormMax b
  rw [decodeF_unpackSnormLane, hi, gridVal_self hscale, min_self, max_eq_right (by norm_num)]

theorem unpackSnormLane_zero {i : BitVec b.bits} (hi : i.toInt = 0) : unpackSnormLane b f i = 0 := by
  have hscale := isScale_snormMax b
  have hquot := decodeF_divF_toF (f := f) (i := 0) hscale (by norm_num)
  rw [gridVal_zero] at hquot
  rw [unpackSnormLane, hi, scaleS, clampF_of_finite hquot, if_neg (by norm_num), if_neg (by norm_num),
    divF_toF hscale (by norm_num), signBit_toF_of_nonneg le_rfl, Int.cast_zero, rneVal_zero, zero_div, rne_zero]
  cases f <;> rfl

/-- The least lane value is past -1 before the clamp where the scale is exact (R125). -/
theorem gridVal_least_lt_neg_one (h : ¬ (b = .b32 ∧ f = .f32)) : gridVal f (snormMax b) (-(snormMax b + 1)) < -1 := by
  have hscale := isScale_snormMax b
  have hsucc := (fits_snormMax h).one_lt_gridVal_succ
  rw [gridVal_neg hscale (hscale.abs_le_of_succ (abs_of_pos (by linarith [hscale.1])).le)]
  linarith

/-- An unpacked snorm lane of value 0 is +0: only lane value 0 has quotient 0. -/
theorem signBit_unpackSnormLane {i : BitVec b.bits} (h0 : decodeF f.fmt (unpackSnormLane b f i) = .finite 0) :
    signBit f.fmt (unpackSnormLane b f i) = 0 := by
  have hgrid : gridVal f (snormMax b) i.toInt = 0 := by
    have hclamp := Value.finite.inj ((decodeF_unpackSnormLane i).symm.trans h0)
    have hmin : min (gridVal f (snormMax b) i.toInt) 1 = 0 := by
      rcases max_choice (-1) (min (gridVal f (snormMax b) i.toInt) 1) with h | h
      · linarith
      · rw [← h, hclamp]
    rcases min_choice (gridVal f (snormMax b) i.toInt) 1 with h | h
    · rw [← h, hmin]
    · linarith
  have hi : i.toInt = 0 := by
    by_contra hne
    exact gridVal_ne_zero (isScale_snormMax b) hne (abs_toInt_le_two_pow i) hgrid
  rw [unpackSnormLane_zero hi]
  cases f <;> rfl

end Lane

/-! ## Where the lanes of a result stand (R29, R120) -/

section Results

variable {b : LaneBits} {n : LaneCount} {f : LaneFloat} {a : Bus} {k : Fin 4}

theorem resultBus_packUnorm (b : LaneBits) (n : LaneCount) (f : LaneFloat) (a : Bus) :
    resultBus (.packUnorm b n f) a = busOfLanes n fun k => BitVec.ofInt b.bits (packUnormLane b f (lane f.fmt.width a k)) := rfl

theorem slot_packUnorm (hk : k.val < n.count) : slot (resultBus (.packUnorm b n f) a) k =
    (BitVec.ofInt b.bits (packUnormLane b f (lane f.fmt.width a k))).setWidth 64 := by
  rw [resultBus_packUnorm, slot_busOfLanes, if_pos hk]

theorem resultBus_packSnorm (b : LaneBits) (n : LaneCount) (f : LaneFloat) (a : Bus) :
    resultBus (.packSnorm b n f) a = busOfLanes n fun k => BitVec.ofInt b.bits (packSnormLane b f (lane f.fmt.width a k)) := rfl

theorem slot_packSnorm (hk : k.val < n.count) : slot (resultBus (.packSnorm b n f) a) k =
    (BitVec.ofInt b.bits (packSnormLane b f (lane f.fmt.width a k))).setWidth 64 := by
  rw [resultBus_packSnorm, slot_busOfLanes, if_pos hk]

theorem resultBus_unpackUnorm (b : LaneBits) (n : LaneCount) (f : LaneFloat) (a : Bus) :
    resultBus (.unpackUnorm b n f) a = busOfLanes n fun k => unpackUnormLane b f (lane b.bits a k) := rfl

theorem slot_unpackUnorm (hk : k.val < n.count) : slot (resultBus (.unpackUnorm b n f) a) k =
    (unpackUnormLane b f (lane b.bits a k)).setWidth 64 := by
  rw [resultBus_unpackUnorm, slot_busOfLanes, if_pos hk]

theorem resultBus_unpackSnorm (b : LaneBits) (n : LaneCount) (f : LaneFloat) (a : Bus) :
    resultBus (.unpackSnorm b n f) a = busOfLanes n fun k => unpackSnormLane b f (lane b.bits a k) := rfl

theorem slot_unpackSnorm (hk : k.val < n.count) : slot (resultBus (.unpackSnorm b n f) a) k =
    (unpackSnormLane b f (lane b.bits a k)).setWidth 64 := by
  rw [resultBus_unpackSnorm, slot_busOfLanes, if_pos hk]

theorem bits_le (b : LaneBits) : b.bits ≤ 64 := by cases b <;> decide

theorem width_le (f : LaneFloat) : f.fmt.width ≤ 64 := by cases f <;> decide

theorem lane_packUnorm (hk : k.val < n.count) : lane b.bits (resultBus (.packUnorm b n f) a) k =
    BitVec.ofInt b.bits (packUnormLane b f (lane f.fmt.width a k)) := by
  rw [resultBus_packUnorm, lane_busOfLanes n _ k (bits_le b) hk]

theorem lane_packSnorm (hk : k.val < n.count) : lane b.bits (resultBus (.packSnorm b n f) a) k =
    BitVec.ofInt b.bits (packSnormLane b f (lane f.fmt.width a k)) := by
  rw [resultBus_packSnorm, lane_busOfLanes n _ k (bits_le b) hk]

theorem lane_unpackUnorm (hk : k.val < n.count) :
    lane f.fmt.width (resultBus (.unpackUnorm b n f) a) k = unpackUnormLane b f (lane b.bits a k) := by
  rw [resultBus_unpackUnorm, lane_busOfLanes n _ k (width_le f) hk]

theorem lane_unpackSnorm (hk : k.val < n.count) :
    lane f.fmt.width (resultBus (.unpackSnorm b n f) a) k = unpackSnormLane b f (lane b.bits a k) := by
  rw [resultBus_unpackSnorm, lane_busOfLanes n _ k (width_le f) hk]

/-- A packed unorm lane is its integer in b bits (R122). -/
theorem toNat_ofInt_packUnormLane (b : LaneBits) (f : LaneFloat) (x : BitVec f.fmt.width) :
    ((BitVec.ofInt b.bits (packUnormLane b f x)).toNat : Int) = packUnormLane b f x := by
  obtain ⟨hlo, hhi⟩ := packUnormLane_mem b f x
  rw [unormMax] at hhi
  rw [BitVec.toNat_ofInt, Nat.cast_pow, Nat.cast_ofNat, Int.emod_eq_of_lt hlo (by omega), Int.toNat_of_nonneg hlo]

theorem toNat_slot_packUnorm (hk : k.val < n.count) : ((slot (resultBus (.packUnorm b n f) a) k).toNat : Int) =
    packUnormLane b f (lane f.fmt.width a k) := by
  rw [slot_packUnorm hk, BitVec.toNat_setWidth_of_le (bits_le b), toNat_ofInt_packUnormLane]

/-- A packed snorm lane is its integer in two's complement (R124). -/
theorem toInt_lane_packSnorm (hk : k.val < n.count) : (lane b.bits (resultBus (.packSnorm b n f) a) k).toInt =
    packSnormLane b f (lane f.fmt.width a k) := by
  obtain ⟨hlo, hhi⟩ := packSnormLane_mem b f (lane f.fmt.width a k)
  rw [snormMax] at hlo hhi
  rw [lane_packSnorm hk]
  exact BitVec.toInt_ofInt_eq_self (by cases b <;> decide) (by omega) (by omega)

/-- The pattern of the most negative lane is outside the range. -/
theorem toNat_ne_of_neg_snormMax_le {x : BitVec b.bits} (h : -snormMax b ≤ x.toInt) : x.toNat ≠ 2 ^ (b.bits - 1) := by
  intro hx
  rw [BitVec.toInt_eq_toNat_cond, hx] at h
  cases b <;> exact absurd h (by decide)

theorem toNat_slot_packSnorm_ne (hk : k.val < n.count) :
    (slot (resultBus (.packSnorm b n f) a) k).toNat ≠ 2 ^ (b.bits - 1) := by
  rw [slot_packSnorm hk, ← lane_packSnorm hk, BitVec.toNat_setWidth_of_le (bits_le b)]
  exact toNat_ne_of_neg_snormMax_le (toInt_lane_packSnorm hk ▸ (packSnormLane_mem b f _).1)

end Results

end Sys2Proof.Machine
end

section
/-! PROOFS for 41_normalized.md, the scale constants, the four operations and their result ranges (R121 to R129). -/

namespace Sys2Proof.Machine

open Sys2Proof.Safety

/-! ## The four operations, lane by lane (R122 to R125) -/

section Clauses

variable {b : LaneBits} {f : LaneFloat}

theorem cast_two_pow_sub_one (m : Nat) : ((2 ^ m - 1 : Nat) : Int) = 2 ^ m - 1 := by
  rw [Nat.cast_sub Nat.one_le_two_pow, Nat.cast_pow, Nat.cast_ofNat, Nat.cast_one]

theorem two_pow_bits_eq (b : LaneBits) : (2 : Int) ^ (b.bits - 1) = snormMax b + 1 := by
  rw [snormMax, sub_add_cancel]

/-- A finite lane of `packUnorm`, by its clamped value (R122). -/
theorem packUnormLane_of_finite {x : BitVec f.fmt.width} {v : Rat} (hx : decodeF f.fmt x = .finite v) :
    (∃ S p : Rat, decodeF f.fmt (scaleU b f) = .finite S ∧
      decodeF f.fmt (rne f.fmt (max 0 (min v 1) * S) 0) = .finite p ∧
      packUnormLane b f x = min ⌊p + 1 / 2⌋ (unormMax b) ∧
      (¬ (b = .b32 ∧ f = .f32) → ⌊p + 1 / 2⌋ ≤ unormMax b)) ∧
    (v ≤ 0 → packUnormLane b f x = 0) ∧ (1 ≤ v → packUnormLane b f x = unormMax b) := by
  have hscale := isScale_unormMax b
  have hc := decodeF_clampF isValue_zero isValue_one zero_le_one hx
  obtain ⟨h0, h1⟩ := clampUnorm_mem hc
  have hround := roundAway_of_nonneg (scaledVal_nonneg (f := f) hscale h0 h1)
  refine ⟨⟨_, _, decodeF_toF hscale.abs_self_le, decodeF_rne_product hscale (abs_le.mpr ⟨by linarith, h1⟩) 0, ?_,
    fun h => ?_⟩, fun hv => packUnormLane_of_zero ?_, fun hv => packUnormLane_of_one ?_⟩
  · rw [packUnormLane_eq hc, hround]
  · exact hround ▸ roundAway_scaledVal_unormMax_le h h0 h1
  · rw [hc, max_eq_left (min_le_of_left_le hv)]
  · rw [hc, min_eq_right hv, max_eq_right zero_le_one]

/-- A finite lane of `packSnorm`, by its clamped value (R124). -/
theorem packSnormLane_of_finite {x : BitVec f.fmt.width} {v : Rat} (hx : decodeF f.fmt x = .finite v) :
    (∃ S p : Rat, decodeF f.fmt (scaleS b f) = .finite S ∧
      decodeF f.fmt (rne f.fmt (max (-1) (min v 1) * S) 0) = .finite p ∧
      packSnormLane b f x = clampInt (-snormMax b) (snormMax b) ((if p < 0 then -1 else 1) * ⌊|p| + 1 / 2⌋) ∧
      (¬ (b = .b32 ∧ f = .f32) → ⌊|p| + 1 / 2⌋ ≤ snormMax b)) ∧
    (v ≤ -1 → packSnormLane b f x = -snormMax b) ∧ (1 ≤ v → packSnormLane b f x = snormMax b) ∧
    (v = 0 → packSnormLane b f x = 0) := by
  have hscale := isScale_snormMax b
  have hc := decodeF_clampSnorm hx
  have habs := clampSnorm_mem hc
  refine ⟨⟨_, _, decodeF_toF hscale.abs_self_le, decodeF_rne_product hscale habs 0, ?_, fun h => ?_⟩,
    fun hv => packSnormLane_of_neg_one ?_, fun hv => packSnormLane_of_one ?_, fun hv => packSnormLane_of_zero ?_⟩
  · rw [packSnormLane_eq hc, roundAway_eq_ite]
  · exact floor_abs_scaledVal_snormMax_le h habs
  · rw [hc, max_eq_left (min_le_of_left_le hv)]
  · rw [hc, min_eq_right hv, max_eq_right (by norm_num)]
  · rw [hc, hv, min_eq_left zero_le_one, max_eq_right (by norm_num)]

end Clauses

end Sys2Proof.Machine

namespace Sys2Proof.Proofs

open Sys2Proof.Machine

/-- Settles O31: the patterns are computed, and an exact scale is its integer. -/
theorem scaleConstantsTable : Obligations.ScaleConstantsTable := by
  refine ⟨by decide, by decide, by decide, by decide, by decide, by decide, fun b f h => ⟨?_, ?_⟩, by decide, by decide⟩
  · have hval := decodeF_toF (f := f) (isScale_unormMax b).abs_self_le
    rw [(fits_unormMax h).rneVal_self, unormMax] at hval
    exact_mod_cast hval
  · have hval := decodeF_toF (f := f) (isScale_snormMax b).abs_self_le
    rw [(fits_snormMax h).rneVal_self, snormMax] at hval
    exact_mod_cast hval

/-- Settles O32: a lane that is no NaN clamps to a value in [0, 1], and its rounded product with the scale is rounded to an integer
and saturated. -/
theorem packUnormQuantizes : Obligations.PackUnormQuantizes := by
  refine ⟨decode_encode (.packUnorm .b8 .x4 .f32), fun b n f s => ⟨_, exec_eq_deliver _ s, frame_settle _ _,
    zeroFrom_resultBus (.packUnorm b n f) s.a, fun k hk => ?_⟩, gives_of_resultBus (by decide), gives_of_resultBus (by decide)⟩
  intro x
  have hslot : slot (resultBus (.packUnorm b n f) s.a) k = (BitVec.ofInt b.bits (packUnormLane b f x)).setWidth 64 :=
    slot_packUnorm hk
  have hval : ((slot (resultBus (.packUnorm b n f) s.a) k).toNat : Int) = packUnormLane b f x := toNat_slot_packUnorm hk
  have hzero : packUnormLane b f x = 0 → slot (resultBus (.packUnorm b n f) s.a) k = 0 := fun h => by
    rw [h] at hval
    exact BitVec.eq_of_toNat_eq (by exact_mod_cast hval)
  have hmax : packUnormLane b f x = unormMax b → (slot (resultBus (.packUnorm b n f) s.a) k).toNat = 2 ^ b.bits - 1 :=
    fun h => by
      rw [h, unormMax, ← cast_two_pow_sub_one] at hval
      exact_mod_cast hval
  refine ⟨fun hnan => ?_, fun hx => hzero ?_, fun hx => hmax ?_, fun v hx => ?_⟩
  · exact hslot.trans (by rw [packUnormLane_of_nan hnan])
  · exact packUnormLane_of_zero (decodeF_clampF_of_neg_inf isValue_zero hx)
  · exact packUnormLane_of_one (decodeF_clampF_of_pos_inf isValue_one hx)
  · obtain ⟨⟨S, p, hS, hp, hround, hsat⟩, hlow, hhigh⟩ := packUnormLane_of_finite (b := b) hx
    exact ⟨⟨S, p, hS, hp, hval.trans hround, hsat⟩, fun h => hzero (hlow h), fun h => hmax (hhigh h),
      fun he => hzero (packUnormLane_of_expField_zero hx he)⟩

/-- Settles O33: the quotient of a converted lane by the scale is in [0, 1], and rounding keeps it there. -/
theorem unpackUnormDequantizes : Obligations.UnpackUnormDequantizes := by
  refine ⟨decode_encode (.unpackUnorm .b16 .x2 .f32), fun b n f s => ⟨_, exec_eq_deliver _ s, frame_settle _ _,
    zeroFrom_resultBus (.unpackUnorm b n f) s.a, fun k hk => ?_⟩, gives_of_resultBus (by decide),
    gives_of_resultBus (by decide)⟩
  intro u y
  have hscale := isScale_unormMax b
  have hy : y = unpackUnormLane b f (lane b.bits s.a k) := lane_unpackUnorm hk
  have hu : (lane b.bits s.a k).toNat = u := toNat_lane _ _ _
  have hdec := decodeF_unpackUnormLane (f := f) (lane b.bits s.a k)
  obtain ⟨h0, h1⟩ := gridVal_unormMax_mem (f := f) (lane b.bits s.a k)
  have hslot : slot (resultBus (.unpackUnorm b n f) s.a) k = y.setWidth 64 := hy ▸ slot_unpackUnorm hk
  refine ⟨hslot, ⟨_, _, decodeF_toF (hscale.abs_le ?_), decodeF_toF hscale.abs_self_le, ?_⟩, fun hz => ?_, fun hmax => ?_,
    _, hy ▸ hdec, h0, h1, hy ▸ signBit_unpackUnormLane _⟩
  · exact hu ▸ toNat_le_unormMax _
  · rw [hy, unpackUnormLane_eq, hu]
    rfl
  · refine hslot.trans ?_
    rw [hy, unpackUnormLane_zero (hu.trans hz)]
    exact BitVec.setWidth_zero ..
  · have hself : ((lane b.bits s.a k).toNat : Int) = unormMax b := by rw [hu, hmax, cast_two_pow_sub_one, unormMax]
    rw [hy, hdec, hself, gridVal_self hscale]

/-- Settles O34: a lane that is no NaN clamps to a value in [-1, 1], and its rounded product with the scale is rounded and saturated
alike at both ends. -/
theorem packSnormQuantizes : Obligations.PackSnormQuantizes := by
  refine ⟨decode_encode (.packSnorm .b16 .x2 .f64), fun b n f s => ⟨_, exec_eq_deliver _ s, frame_settle _ _,
    zeroFrom_resultBus (.packSnorm b n f) s.a, fun k hk => ?_⟩, gives_of_resultBus (by decide), gives_of_resultBus (by decide)⟩
  intro L x r
  have hr : r = packSnormLane b f x := toInt_lane_packSnorm hk
  rw [hr]
  obtain ⟨hlo, hhi⟩ := packSnormLane_mem b f x
  refine ⟨slot_resultBus_lt (.packSnorm b n f) s.a k, hlo, hhi, packSnormLane_of_nan, fun hx => ?_, fun hx => ?_,
    fun v hx => packSnormLane_of_finite hx⟩
  · exact packSnormLane_of_neg_one (by simpa using decodeF_clampF_of_neg_inf isValue_neg_one hx)
  · exact packSnormLane_of_one (decodeF_clampF_of_pos_inf isValue_one hx)

/-- Settles O35: the least lane value is one step past the scale, where the quotient is below -1 and the clamp acts. -/
theorem unpackSnormDequantizes : Obligations.UnpackSnormDequantizes := by
  refine ⟨decode_encode (.unpackSnorm .b32 .x4 .f64), fun b n f s => ⟨_, exec_eq_deliver _ s, frame_settle _ _,
    zeroFrom_resultBus (.unpackSnorm b n f) s.a, fun k hk => ?_⟩, gives_of_resultBus (by decide)⟩
  intro i y
  have hscale := isScale_snormMax b
  have hi : |i| ≤ 2 ^ 32 := abs_toInt_le_two_pow _
  have hy : y = unpackSnormLane b f (lane b.bits s.a k) := lane_unpackSnorm hk
  have hslot : slot (resultBus (.unpackSnorm b n f) s.a) k = y.setWidth 64 := hy ▸ slot_unpackSnorm hk
  rw [two_pow_bits_eq, add_sub_cancel_right]
  refine ⟨hslot, ⟨_, _, _, decodeF_toF hi, decodeF_toF hscale.abs_self_le, decodeF_rne_quotient hscale hi 0,
    hy ▸ decodeF_unpackSnormLane _, le_max_left _ _, max_le (by norm_num) (min_le_right _ _), fun hleast hexact => ?_⟩,
    fun hz => ?_, fun hleast => ?_, fun hlargest => hy ▸ decodeF_unpackSnormLane_of_largest hlargest⟩
  · rw [hleast]
    exact gridVal_least_lt_neg_one hexact
  · refine hslot.trans ?_
    rw [hy, unpackSnormLane_zero hz]
    exact BitVec.setWidth_zero ..
  · exact hy ▸ decodeF_unpackSnormLane_of_least (show i ≤ -snormMax b by omega)

/-- Settles O36: the function is `nanPack`, on the lane's own pattern. -/
theorem nanLaneIsAFixedFunction : Obligations.NaNLaneIsAFixedFunction := by
  refine ⟨fun op b f x => nanPack op b f (x.setWidth f.fmt.width), fun b f x => nanPack_unorm_bounds b f _,
    fun b f x => nanPack_snorm_bounds b f _,
    fun b n f s => ⟨_, _, exec_eq_deliver _ s, exec_eq_deliver _ s, fun k hk hnan => ?_⟩⟩
  have hback : ((lane f.fmt.width s.a k).setWidth 64).setWidth f.fmt.width = lane f.fmt.width s.a k := by
    rw [BitVec.setWidth_setWidth_of_le _ (width_le f), BitVec.setWidth_eq]
  beta_reduce
  rw [hback, ← packUnormLane_of_nan hnan, ← packSnormLane_of_nan hnan]
  exact ⟨toNat_slot_packUnorm hk, slot_resultBus_lt (.packSnorm b n f) s.a k, toInt_lane_packSnorm hk⟩

/-- Settles O37: the lane ranges, with the sign of an unpacked zero from the lane value 0 alone. -/
theorem normalizedResultRanges : Obligations.NormalizedResultRanges := by
  refine fun b n f s => ⟨_, _, _, _, exec_eq_deliver _ s, exec_eq_deliver _ s, exec_eq_deliver _ s, exec_eq_deliver _ s,
    fun k hk => ⟨?_, ?_, slot_resultBus_lt (.packSnorm b n f) s.a k, ?_, ?_⟩⟩
  · exact Nat.le_sub_one_of_lt (slot_resultBus_lt (.packUnorm b n f) s.a k)
  · exact toNat_slot_packSnorm_ne hk
  · obtain ⟨h0, h1⟩ := gridVal_unormMax_mem (f := f) (lane b.bits s.a k)
    rw [State.settle_y, lane_unpackUnorm hk]
    exact ⟨_, decodeF_unpackUnormLane _, h0, h1, fun _ => signBit_unpackUnormLane _⟩
  · rw [State.settle_y, lane_unpackSnorm hk]
    exact ⟨_, decodeF_unpackSnormLane _, le_max_left _ _, max_le (by norm_num) (min_le_right _ _),
      fun hz => signBit_unpackSnormLane (hz ▸ decodeF_unpackSnormLane _)⟩

end Sys2Proof.Proofs
end

section
/-! PROOFS for 41_normalized.md, laws: the grid round trips and the error bound (R130 to R132). -/

namespace Sys2Proof.Machine

open Sys2Proof.Safety

/-! ## binary32 with 32-bit lanes, where the scale is a power of two (R121) -/

/-- Scaling a value of magnitude 1 or more down by a power of two gives a value. -/
theorem IsValue.div_two_pow {F : FloatFmt} {z : Rat} (hz : IsValue F z) (h1 : 1 ≤ |z|) {j : Nat} (hj : j < F.bias) :
    IsValue F (z / 2 ^ j) := by
  have hover : |z / 2 ^ j| < overflowBound F := by
    rw [abs_div, abs_of_pos (a := (2 : Rat) ^ j) (by positivity)]
    exact (div_le_self (abs_nonneg z) (one_le_pow₀ (by norm_num))).trans_lt hz.lt_overflowBound
  obtain ⟨m, e, hm, -, rfl⟩ := hz.exists_scaled
  have he : 0 ≤ e := by
    have hlt : |m * (2 : Rat) ^ (e - F.fracBits)| < (2 : Rat) ^ (e + 1) := by
      rw [abs_mul, abs_of_pos (a := (2 : Rat) ^ (e - F.fracBits)) (by positivity), ← two_pow_succ_mul_zpow F.fracBits]
      exact mul_lt_mul_of_pos_right (by exact_mod_cast hm) (by positivity)
    have hpow := h1.trans_lt hlt
    rw [← zpow_zero (2 : Rat), zpow_lt_zpow_iff_right₀ (by norm_num)] at hpow
    omega
  have hscale : m * (2 : Rat) ^ (e - F.fracBits) / 2 ^ j = m * (2 : Rat) ^ (e - F.fracBits - j) := by
    rw [zpow_sub₀ two_ne_zero _ (j : Int), zpow_natCast, mul_div_assoc]
  rw [hscale] at hover ⊢
  exact isValue_of_scaled hm (by omega) hover

section Single

variable {c : Rat} {k : Int}

/-- The product with a power of two is exact. -/
theorem scaledVal_b32 (hc : IsValue .binary32 c) (habs : |c| ≤ 1) : scaledVal .f32 (unormMax .b32) c = c * 2 ^ 32 := by
  have hover := product_lt_overflowBound (f := .f32) (isScale_unormMax .b32) habs
  rw [rneVal_unormMax_b32] at hover
  rw [scaledVal, rneVal_unormMax_b32, rneVal_of_isValue (hc.mul_two_pow 32 hover)]

/-- The quotient of an integer value by a power of two is exact. -/
theorem gridVal_b32 (hk : IsValue .binary32 k) : gridVal .f32 (unormMax .b32) k = k / 2 ^ 32 := by
  rw [gridVal, rneVal_unormMax_b32, rneVal_of_isValue hk]
  rcases eq_or_ne k 0 with rfl | hk0
  · rw [Int.cast_zero, zero_div, rneVal_zero]
  · exact rneVal_of_isValue (hk.div_two_pow (by exact_mod_cast Int.one_le_abs hk0) (by decide))

/-- In binary32 every integer up to 2^24 is a value. -/
theorem isValue_binary32_of_le (h0 : 0 ≤ k) (hk : k ≤ 2 ^ 24) : IsValue .binary32 k := by
  rcases hk.lt_or_eq with hlt | rfl
  · exact isValue_intCast (f := .f32) (by rw [abs_of_nonneg h0]; exact hlt) (by rw [abs_of_nonneg h0]; omega)
  · exact_mod_cast isValue_two_pow (f := .f32) (k := 24) (by decide)

/-- What a value in [0, 1] is scaled to rounds to a value: below 2^24 to a small integer, and above to itself. -/
theorem isValue_roundAway_b32 (hc : IsValue .binary32 c) (h0 : 0 ≤ c) (h1 : c ≤ 1) :
    IsValue .binary32 (roundAway (c * 2 ^ 32)) := by
  have habs : |c| ≤ 1 := abs_le.mpr ⟨by linarith, h1⟩
  have hp0 : 0 ≤ c * 2 ^ 32 := by positivity
  rcases le_or_gt (2 ^ 24) (c * 2 ^ 32) with hbig | hsmall
  · have hp := hc.mul_two_pow 32 (lt_overflowBound_of_le (f := .f32) (by rw [abs_of_nonneg hp0]; linarith))
    obtain ⟨i, hi⟩ := hp.exists_int (by
      rw [abs_of_nonneg hp0]
      exact (pow_le_pow_right₀ (by norm_num) (by decide)).trans hbig)
    rw [hi] at hp ⊢
    rwa [roundAway_intCast]
  · exact isValue_binary32_of_le (le_roundAway hp0 (by exact_mod_cast hp0))
      (roundAway_le hp0 (by exact_mod_cast hsmall.le))

/-- The error bound where the scale is a power of two: both scalings are exact, and only the integer rounding moves the value. -/
theorem abs_gridVal_b32_sub_le (hc : IsValue .binary32 c) (h0 : 0 ≤ c) (h1 : c ≤ 1) :
    |gridVal .f32 (unormMax .b32) (min (roundAway (c * 2 ^ 32)) (unormMax .b32)) - c| ≤ 1 / (unormMax .b32 : Rat) := by
  have hmax : unormMax .b32 = 2 ^ 32 - 1 := rfl
  have hmaxQ : (unormMax .b32 : Rat) = 2 ^ 32 - 1 := by rw [hmax]; norm_num
  have hround := abs_roundAway_sub_le (r := c * 2 ^ 32) (by positivity)
  rcases le_or_gt (roundAway (c * 2 ^ 32)) (unormMax .b32) with hle | hgt
  · have hdiff : (roundAway (c * 2 ^ 32) : Rat) / 2 ^ 32 - c = (roundAway (c * 2 ^ 32) - c * 2 ^ 32) / 2 ^ 32 := by ring
    rw [min_eq_left hle, gridVal_b32 (isValue_roundAway_b32 hc h0 h1), hdiff, abs_div,
      abs_of_pos (a := (2 : Rat) ^ 32) (by norm_num), hmaxQ]
    calc |(roundAway (c * 2 ^ 32) : Rat) - c * 2 ^ 32| / 2 ^ 32 ≤ 1 / 2 / 2 ^ 32 := by gcongr
      _ ≤ 1 / (2 ^ 32 - 1) := by norm_num
  · -- past the largest lane the product rounds to 2^32, so c is within half a step of 1
    have hfull : roundAway (c * 2 ^ 32) = 2 ^ 32 :=
      le_antisymm (roundAway_le (by positivity) (by push_cast; linarith)) (by omega)
    have hlo := (abs_le.mp hround).2
    rw [hfull] at hlo
    push_cast at hlo
    rw [min_eq_right hgt.le, gridVal_self (isScale_unormMax .b32), abs_of_nonneg (by linarith), hmaxQ]
    norm_num at hlo ⊢
    linarith

end Single

section GridLaws

variable {b : LaneBits} {f : LaneFloat}

/-! ## Packing an unpacked lane (R130, R131) -/

/-- An unpacked unorm lane is within the clamp, so packing it scales its grid value back. -/
theorem packUnormLane_unpackUnormLane (u : BitVec b.bits) : packUnormLane b f (unpackUnormLane b f u) =
    min (roundAway (scaledVal f (unormMax b) (gridVal f (unormMax b) u.toNat))) (unormMax b) := by
  obtain ⟨h0, h1⟩ := gridVal_unormMax_mem (f := f) u
  refine packUnormLane_eq ?_
  rw [decodeF_clampF isValue_zero isValue_one zero_le_one (decodeF_unpackUnormLane u), min_eq_left h1, max_eq_right h0]

/-- Where the scale is exact with bits to spare, a unorm lane comes back (R130). -/
theorem packUnormLane_unpackUnormLane_of_fits (h : ¬ (b = .b32 ∧ f = .f32)) (u : BitVec b.bits) :
    packUnormLane b f (unpackUnormLane b f u) = u.toNat := by
  have hu := toNat_le_unormMax u
  rw [packUnormLane_unpackUnormLane, (fits_unormMax h).roundAway_scaledVal_gridVal hu,
    min_eq_left ((le_abs_self _).trans hu)]

/-- Where the scale is a power of two, a unorm lane up to 2^24 comes back (R130). -/
theorem packUnormLane_unpackUnormLane_b32 {u : BitVec 32} (hu : u.toNat ≤ 2 ^ 24) :
    packUnormLane .b32 .f32 (unpackUnormLane .b32 .f32 u) = u.toNat := by
  have hmax : |(u.toNat : Int)| ≤ unormMax .b32 := toNat_le_unormMax (b := .b32) u
  have hgrid := gridVal_b32 (isValue_binary32_of_le (Int.natCast_nonneg u.toNat) (by exact_mod_cast hu))
  have hvalue : IsValue .binary32 (gridVal .f32 (unormMax .b32) u.toNat) :=
    ⟨_, decodeF_unpackUnormLane (b := .b32) (f := .f32) u⟩
  have hback : scaledVal .f32 (unormMax .b32) (gridVal .f32 (unormMax .b32) u.toNat) = (u.toNat : Int) := by
    rw [scaledVal_b32 hvalue (abs_gridVal_le_one (isScale_unormMax .b32) hmax), hgrid, div_mul_cancel₀ _ (by norm_num)]
  rw [packUnormLane_unpackUnormLane (b := .b32), hback, roundAway_intCast, min_eq_left ((le_abs_self _).trans hmax)]

/-- Within the scale the clamp changes nothing, and a snorm lane comes back where the scale is exact with bits to spare (R131). -/
theorem packSnormLane_unpackSnormLane_of_fits (h : ¬ (b = .b32 ∧ f = .f32)) {i : BitVec b.bits}
    (hi : |i.toInt| ≤ snormMax b) : packSnormLane b f (unpackSnormLane b f i) = i.toInt := by
  have hgrid := abs_gridVal_le_one (f := f) (isScale_snormMax b) hi
  obtain ⟨hlo, hhi⟩ := abs_le.mp hgrid
  have hclamp := decodeF_clampSnorm (decodeF_unpackSnormLane_of_le (f := f) hi)
  rw [min_eq_left hhi, max_eq_right hlo] at hclamp
  obtain ⟨hilo, hihi⟩ := abs_le.mp hi
  rw [packSnormLane_eq hclamp, (fits_snormMax h).roundAway_scaledVal_gridVal hi, clampInt, min_eq_left hihi, max_eq_right hilo]

/-- The most negative lane unpacks to -1, which packs to its neighbour (R131). -/
theorem packSnormLane_unpackSnormLane_of_least {i : BitVec b.bits} (hi : i.toInt ≤ -snormMax b) :
    packSnormLane b f (unpackSnormLane b f i) = -snormMax b := by
  refine packSnormLane_of_neg_one ?_
  rw [decodeF_clampSnorm (decodeF_unpackSnormLane_of_least hi), min_eq_left (by norm_num), max_self]

/-! ## Unpacking a packed lane (R132) -/

theorem abs_gridVal_packUnormLane_sub_le {x : BitVec f.fmt.width} {v : Rat} (hx : decodeF f.fmt x = .finite v)
    (h0 : 0 ≤ v) (h1 : v ≤ 1) : |gridVal f (unormMax b) (packUnormLane b f x) - v| ≤ 1 / (unormMax b : Rat) := by
  have hc := decodeF_clampF isValue_zero isValue_one zero_le_one hx
  rw [min_eq_left h1, max_eq_right h0] at hc
  rw [packUnormLane_eq hc]
  by_cases h : b = .b32 ∧ f = .f32
  · obtain ⟨rfl, rfl⟩ := h
    rw [scaledVal_b32 ⟨x, hx⟩ (abs_le.mpr ⟨by linarith, h1⟩)]
    exact abs_gridVal_b32_sub_le ⟨x, hx⟩ h0 h1
  · rw [min_eq_left (roundAway_scaledVal_unormMax_le h h0 h1)]
    exact (fits_unormMax h).abs_gridVal_roundAway_sub_le h0 h1

end GridLaws

end Sys2Proof.Machine

namespace Sys2Proof.Proofs

open Sys2Proof.Machine

/-- Settles O38: the rounded quotient and the rounded product together move a lane by less than half a step, and in binary32 at 32
bits 2^24 + 1 already converts to 2^24. -/
theorem unormGridRoundTrip : Obligations.UnormGridRoundTrip := by
  refine fun b n f s => ⟨_, pipe_eq _ _ s, fun k hk => ?_⟩
  rw [slot_packUnorm hk, lane_unpackUnorm hk]
  refine ⟨fun h => ?_, ?_⟩
  · rw [packUnormLane_unpackUnormLane_of_fits h, BitVec.ofInt_natCast, BitVec.ofNat_toNat, BitVec.setWidth_eq]
  · rintro rfl rfl
    refine ⟨fun hu => ?_, fun hu => ?_⟩
    · rw [packUnormLane_unpackUnormLane_b32 hu, BitVec.ofInt_natCast, BitVec.ofNat_toNat, BitVec.setWidth_eq]
    · have hlane : lane 32 s.a k = 0x1000001#32 := BitVec.eq_of_toNat_eq hu
      have hpacked : packUnormLane .b32 .f32 (unpackUnormLane .b32 .f32 0x1000001#32) = 0x1000000 := by decide
      rw [hlane, hpacked]
      decide

/-- Settles O39: as O38 within the scale, and the most negative lane unpacks to -1. -/
theorem snormGridRoundTrip : Obligations.SnormGridRoundTrip := by
  refine ⟨fun b n f s => ⟨_, pipe_eq _ _ s, fun k hk => ?_⟩, fun n => ⟨State.reset.present 0 (busOfList [0x1000001]), _,
    pipe_eq _ _ _, by decide, ?_⟩⟩
  · rw [two_pow_bits_eq, add_sub_cancel_right]
    refine ⟨fun hne h => ?_, fun hi => ⟨slot_resultBus_lt (.packSnorm b n f) _ k, ?_⟩⟩
    · obtain ⟨hlo, hhi⟩ := abs_le.mp (abs_toInt_le (lane b.bits s.a k))
      have hlt := BitVec.toInt_lt (x := lane b.bits s.a k)
      rw [two_pow_bits_eq] at hlt
      rw [slot_packSnorm hk, lane_unpackSnorm hk, packSnormLane_unpackSnormLane_of_fits h (abs_le.mpr ⟨by omega, by omega⟩),
        BitVec.ofInt_toInt]
    · rw [toInt_lane_packSnorm hk, lane_unpackSnorm hk, packSnormLane_unpackSnormLane_of_least (by omega)]
  · have hk : (0 : Fin 4).val < n.count := by cases n <;> decide
    have hpacked : packSnormLane .b32 .f32 (unpackSnormLane .b32 .f32 0x1000001#32) = 0x1000000 := by decide
    have hlane : lane 32 (busOfList [0x1000001]) 0 = 0x1000001#32 := by decide
    rw [slot_packSnorm hk, lane_unpackSnorm hk, State.present_a, hlane, hpacked]
    decide

/-- Settles O40: the integer rounding moves a lane by half a grid step, and the product and the quotient by much less. -/
theorem unormErrorBound : Obligations.UnormErrorBound := by
  refine fun b n f s => ⟨_, pipe_eq _ _ s, fun k hk v hx h0 h1 => ?_⟩
  have hmax : (unormMax b : Rat) = 2 ^ b.bits - 1 := by rw [unormMax]; push_cast; rfl
  rw [lane_unpackUnorm hk, lane_packUnorm hk, decodeF_unpackUnormLane, toNat_ofInt_packUnormLane, ← hmax]
  exact ⟨_, rfl, abs_gridVal_packUnormLane_sub_le hx h0 h1⟩

end Sys2Proof.Proofs
end

section
/-! PROOFS for 42_lane_packing.md, uniform packing: the digits of a packed integer are its lanes, so splitting it gives them back
(R150 to R170). -/

namespace Sys2Proof.Machine

open Sys2Proof.Safety

/-! ## The digits of a packed integer (R150) -/

/-- The first n digits of a number are its remainder. -/
theorem sum_digits_eq_mod (b P : Nat) {n : Nat} (hn : n ≤ 4) :
    (∑ j : Fin 4, if j.val < n then P / b ^ j.val % b * b ^ j.val else 0) = P % b ^ n := by
  rw [Fin.sum_univ_four]
  interval_cases n <;> simp [Nat.mod_pow_succ, Nat.mod_one] <;> ring

section Uniform

variable {n : LaneCount} {w : Nat}

/-- Lane k of a packed integer is the digit at bit w·k. -/
theorem toNat_packUniform_digit (hw : n.count * w ≤ 64) (a : Bus) {k : Fin 4} (hk : k.val < n.count) :
    (slot (packUniform n w a) 0).toNat / 2 ^ (w * k.val) % 2 ^ w = (lane w a k).toNat := by
  have hlen : k.val < ((laneDigits w a).take n.count).length := by
    simpa [laneDigits_eq, laneCount_le_four] using hk
  have hdigit : ((laneDigits w a).take n.count)[k.val] = (lane w a k).toNat :=
    List.getElem_take.trans (List.getElem_ofFn _)
  rw [toNat_packUniform hw, pow_mul, Nat.ofDigits_div_pow_eq_ofDigits_drop k.val (Nat.two_pow_pos w) _
    fun _ h => lt_of_mem_laneDigits (List.mem_of_mem_take h), List.drop_eq_getElem_cons hlen, Nat.ofDigits_cons,
    hdigit, Nat.add_mul_mod_self_left, Nat.mod_eq_of_lt (lane w a k).isLt]

/-- A packed integer is its lanes, lane k weighted by 2^(w·k). -/
theorem toNat_packUniform_sum (hw : n.count * w ≤ 64) (a : Bus) :
    (slot (packUniform n w a) 0).toNat =
      ∑ k : Fin 4, if k.val < n.count then (slot a k).toNat % 2 ^ w * 2 ^ (w * k.val) else 0 := by
  rw [toNat_packUniform hw, ofDigits_take_laneDigits w a (laneCount_le_four n)]
  simp only [toNat_lane]

/-- The sign bit of a packed integer, at its own width, is that of its top lane. -/
theorem msb_lane_packUniform (hw : n.count * w ≤ 64) (h0 : 0 < w) (a : Bus) {top : Fin 4}
    (htop : top.val + 1 = n.count) :
    (lane (n.count * w) (packUniform n w a) 0).msb = (lane w a top).msb := by
  have hbit : n.count * w - 1 = w - 1 + w * top.val := by
    rw [← htop, add_mul, one_mul, mul_comm]
    omega
  have hlast : w - 1 + w * top.val < n.count * w := hbit ▸ Nat.sub_one_lt_of_lt (Nat.mul_pos (by omega) h0)
  rw [BitVec.msb_eq_getLsbD_last, BitVec.msb_eq_getLsbD_last, hbit, ← BitVec.testBit_toNat, ← BitVec.testBit_toNat,
    ← toNat_packUniform_digit hw a (k := top) (by omega), toNat_lane, Nat.testBit_mod_two_pow, Nat.testBit_mod_two_pow,
    Nat.testBit_div_two_pow, decide_eq_true hlast, decide_eq_true (Nat.sub_one_lt_of_lt h0)]

/-! ## The two round trips (R175) -/

/-- Splitting a packed integer gives its lanes, each at its own width. -/
theorem slot_unpackUniform_packUniform (hw : n.count * w ≤ 64) (a : Bus) (k : Fin 4) :
    slot (unpackUniform n w (packUniform n w a)) k = if k.val < n.count then (lane w a k).setWidth 64 else 0 := by
  split
  · next hk =>
    have hw64 : w ≤ 64 := (Nat.le_mul_of_pos_left w (by omega)).trans hw
    refine BitVec.eq_of_toNat_eq ?_
    rw [toNat_unpackUniform n hw _ hk, toNat_packUniform_digit hw a hk, BitVec.toNat_setWidth_of_le hw64]
  · next hk => exact slot_unpackUniform_above n w _ (not_lt.mp hk)

/-- Packing the lanes of an integer gives its low n·w bits. -/
theorem slot_packUniform_unpackUniform (hw : n.count * w ≤ 64) (a : Bus) :
    slot (packUniform n w (unpackUniform n w a)) 0 = (lane (n.count * w) a 0).setWidth 64 := by
  refine BitVec.eq_of_toNat_eq ?_
  rw [toNat_packUniform_sum hw, BitVec.toNat_setWidth_of_le hw, toNat_lane, mul_comm, pow_mul,
    ← sum_digits_eq_mod _ _ (laneCount_le_four n)]
  refine Finset.sum_congr rfl fun k _ => if_ctx_congr Iff.rfl (fun hk => ?_) fun _ => rfl
  rw [toNat_unpackUniform n hw a hk, Nat.mod_mod, pow_mul]

/-! ## Any instruction whose result is a uniform pack or unpack -/

variable {i j : Instr} {top : Fin 4}

theorem placesLanes_of_resultBus (h : ∀ a, resultBus i a = packUniform n w a) (hw : n.count * w ≤ 64) :
    PlacesLanes i n w := by
  refine fun s => ⟨_, exec_eq_deliver i s, frame_settle _ _, ?_⟩
  rw [State.settle_y, h]
  exact ⟨fun k hk => slot_packUniform_above n w s.a (by omega), toNat_packUniform_sum hw s.a⟩

theorem signOfTopLane_of_resultBus (h : ∀ a, resultBus i a = packUniform n w a) (hw : n.count * w ≤ 64) (h0 : 0 < w)
    (htop : top.val + 1 = n.count) : SignOfTopLane i n w top := by
  intro s t hst
  rw [exec_cases hst, State.settle_y, h]
  simpa [BitVec.msb_eq_toInt] using msb_lane_packUniform hw h0 s.a htop

theorem splitsLanes_of_resultBus (h : ∀ a, resultBus i a = unpackUniform n w a) (hw : n.count * w ≤ 64) :
    SplitsLanes i n w := by
  refine fun s => ⟨_, exec_eq_deliver i s, frame_settle _ _, ?_⟩
  rw [State.settle_y, h]
  exact ⟨fun k hk => slot_unpackUniform_above n w s.a hk, fun k hk => toNat_unpackUniform n hw s.a hk⟩

theorem inverseShapes_of_resultBus (hi : ∀ a, resultBus i a = packUniform n w a)
    (hj : ∀ a, resultBus j a = unpackUniform n w a) (hw : n.count * w ≤ 64) : InverseShapes i j n w := by
  refine fun s => ⟨⟨_, pipe_eq i j s, ?_⟩, _, pipe_eq j i s, ?_⟩
  · rw [hi, hj]
    exact slot_unpackUniform_packUniform hw s.a
  · rw [hi, hj]
    exact ⟨slot_packUniform_unpackUniform hw s.a, fun k hk => slot_packUniform_above n w _ (by omega)⟩

end Uniform

end Sys2Proof.Machine

namespace Sys2Proof.Proofs

open Sys2Proof.Machine

/-- Settles O41: each result is the uniform pack of its lanes, whose top digit holds its sign bit. -/
theorem signedPacksPlaceLanes : Obligations.SignedPacksPlaceLanes :=
  ⟨⟨decode_encode .packInt2x8, placesLanes_of_resultBus (fun _ => rfl) (by decide),
      signOfTopLane_of_resultBus (fun _ => rfl) (by decide) (by decide) rfl, gives_of_resultBus (by decide)⟩,
    ⟨decode_encode .packInt4x8, placesLanes_of_resultBus (fun _ => rfl) (by decide),
      signOfTopLane_of_resultBus (fun _ => rfl) (by decide) (by decide) rfl, gives_of_resultBus (by decide)⟩,
    ⟨decode_encode .packInt2x16, placesLanes_of_resultBus (fun _ => rfl) (by decide),
      signOfTopLane_of_resultBus (fun _ => rfl) (by decide) (by decide) rfl, gives_of_resultBus (by decide)⟩,
    ⟨decode_encode .packInt4x16, placesLanes_of_resultBus (fun _ => rfl) (by decide),
      signOfTopLane_of_resultBus (fun _ => rfl) (by decide) (by decide) rfl, gives_of_resultBus (by decide)⟩,
    ⟨decode_encode .packInt2x32, placesLanes_of_resultBus (fun _ => rfl) (by decide),
      signOfTopLane_of_resultBus (fun _ => rfl) (by decide) (by decide) rfl, gives_of_resultBus (by decide)⟩⟩

/-- Settles O42: the sum of weighted lanes is the integer whose digits are the lanes. -/
theorem unsignedPacksSumWeightedLanes : Obligations.UnsignedPacksSumWeightedLanes :=
  ⟨⟨decode_encode .packUint2x8, placesLanes_of_resultBus (fun _ => rfl) (by decide), gives_of_resultBus (by decide)⟩,
    ⟨decode_encode .packUint4x8, placesLanes_of_resultBus (fun _ => rfl) (by decide), gives_of_resultBus (by decide)⟩,
    ⟨decode_encode .packUint2x16, placesLanes_of_resultBus (fun _ => rfl) (by decide), gives_of_resultBus (by decide)⟩,
    ⟨decode_encode .packUint4x16, placesLanes_of_resultBus (fun _ => rfl) (by decide), gives_of_resultBus (by decide)⟩,
    ⟨decode_encode .packUint2x32, placesLanes_of_resultBus (fun _ => rfl) (by decide), gives_of_resultBus (by decide)⟩⟩

/-- Settles O43: lane k is a digit of the operand, and the digits of a packed integer are its lanes. -/
theorem signedUnpacksSplitLanes : Obligations.SignedUnpacksSplitLanes :=
  ⟨⟨decode_encode .unpackInt2x8, splitsLanes_of_resultBus (fun _ => rfl) (by decide),
      inverseShapes_of_resultBus (fun _ => rfl) (fun _ => rfl) (by decide), gives_of_resultBus (by decide)⟩,
    ⟨decode_encode .unpackInt4x8, splitsLanes_of_resultBus (fun _ => rfl) (by decide),
      inverseShapes_of_resultBus (fun _ => rfl) (fun _ => rfl) (by decide), gives_of_resultBus (by decide)⟩,
    ⟨decode_encode .unpackInt2x16, splitsLanes_of_resultBus (fun _ => rfl) (by decide),
      inverseShapes_of_resultBus (fun _ => rfl) (fun _ => rfl) (by decide), gives_of_resultBus (by decide)⟩,
    ⟨decode_encode .unpackInt4x16, splitsLanes_of_resultBus (fun _ => rfl) (by decide),
      inverseShapes_of_resultBus (fun _ => rfl) (fun _ => rfl) (by decide), gives_of_resultBus (by decide)⟩,
    ⟨decode_encode .unpackInt2x32, splitsLanes_of_resultBus (fun _ => rfl) (by decide),
      inverseShapes_of_resultBus (fun _ => rfl) (fun _ => rfl) (by decide), gives_of_resultBus (by decide)⟩⟩

/-- Settles O44: as O43, since the two operations of one shape write the same bits. -/
theorem unsignedUnpacksSplitLanes : Obligations.UnsignedUnpacksSplitLanes :=
  ⟨⟨decode_encode .unpackUint2x8, splitsLanes_of_resultBus (fun _ => rfl) (by decide),
      inverseShapes_of_resultBus (fun _ => rfl) (fun _ => rfl) (by decide), gives_of_resultBus (by decide)⟩,
    ⟨decode_encode .unpackUint4x8, splitsLanes_of_resultBus (fun _ => rfl) (by decide),
      inverseShapes_of_resultBus (fun _ => rfl) (fun _ => rfl) (by decide), gives_of_resultBus (by decide)⟩,
    ⟨decode_encode .unpackUint2x16, splitsLanes_of_resultBus (fun _ => rfl) (by decide),
      inverseShapes_of_resultBus (fun _ => rfl) (fun _ => rfl) (by decide), gives_of_resultBus (by decide)⟩,
    ⟨decode_encode .unpackUint4x16, splitsLanes_of_resultBus (fun _ => rfl) (by decide),
      inverseShapes_of_resultBus (fun _ => rfl) (fun _ => rfl) (by decide), gives_of_resultBus (by decide)⟩,
    ⟨decode_encode .unpackUint2x32, splitsLanes_of_resultBus (fun _ => rfl) (by decide),
      inverseShapes_of_resultBus (fun _ => rfl) (fun _ => rfl) (by decide), gives_of_resultBus (by decide)⟩⟩

end Sys2Proof.Proofs
end

section
/-! PROOFS for 42_lane_packing.md, the 10-10-10-2 scheme: the four fields of an integer, a lane clamped or masked to a field, and the
round trips (R171 to R175). -/

namespace Sys2Proof.Machine

open Sys2Proof.Safety

/-! ## An integer is its four fields (R41) -/

theorem packedField_packFields1010102 (v : (k : Fin 4) → BitVec (fieldWidth k)) (k : Fin 4) :
    packedField (packFields1010102 v) k = v k := by
  have h0 : (v 0).toNat < 2 ^ 10 := (v 0).isLt
  have h1 : (v 1).toNat < 2 ^ 10 := (v 1).isLt
  have h2 : (v 2).toNat < 2 ^ 10 := (v 2).isLt
  have h3 : (v 3).toNat < 2 ^ 2 := (v 3).isLt
  refine BitVec.eq_of_toNat_eq ?_
  rw [toNat_packedField, toNat_packFields1010102]
  fin_cases k <;> simp [fieldWidth] <;> omega

theorem packFields1010102_packedField (P : BitVec 32) : packFields1010102 (packedField P) = P := by
  refine BitVec.eq_of_toNat_eq ?_
  simp only [toNat_packFields1010102, toNat_packedField]
  simp [fieldWidth]
  omega

/-- A field of the operand's low 32 bits is a field of slot 0. -/
theorem toNat_packedField_lane (a : Bus) (k : Fin 4) :
    (packedField (lane 32 a 0) k).toNat = (slot a 0).toNat / 2 ^ (10 * k.val) % 2 ^ fieldWidth k := by
  rw [toNat_packedField, toNat_lane]
  fin_cases k <;> simp [fieldWidth] <;> omega

theorem fieldWidth_of_lt {k : Fin 4} (hk : k.val < 3) : fieldWidth k = 10 := if_neg hk.ne

theorem fieldWidth_pos (k : Fin 4) : 0 < fieldWidth k := by
  fin_cases k <;> decide

theorem fieldWidth_le (k : Fin 4) : fieldWidth k ≤ 32 := by
  fin_cases k <;> decide

/-- The residue of a two's-complement integer is its pattern as a number. -/
theorem toInt_emod_two_pow {w : Nat} (x : BitVec w) : x.toInt % 2 ^ w = x.toNat := by
  have h : (x.toNat : Int) < 2 ^ w := by exact_mod_cast x.isLt
  have hmod := Int.bmod_emod (x := (x.toNat : Int)) (m := 2 ^ w)
  push_cast at hmod
  rw [BitVec.toInt_eq_toNat_bmod, hmod, Int.emod_eq_of_lt (Int.natCast_nonneg _) h]

/-! ## A lane clamped or masked to its field (R171, R173) -/

/-- The clamp to the signed range of field k: [-2, 1] for field 3, and [-512, 511] for the others. -/
def clampToField (k : Fin 4) (v : Int) : Int :=
  if k.val = 3 then max (-2) (min v 1) else max (-512) (min v 511)

/-- An integer in the signed range of field k. -/
def InField (k : Fin 4) (v : Int) : Prop := -2 ^ (fieldWidth k - 1) ≤ v ∧ v < 2 ^ (fieldWidth k - 1)

theorem clampInt_fieldWidth (k : Fin 4) (v : Int) :
    clampInt (-2 ^ (fieldWidth k - 1)) (2 ^ (fieldWidth k - 1) - 1) v = clampToField k v := by
  unfold clampToField clampInt fieldWidth
  split <;> norm_num

theorem inField_of_lt {k : Fin 4} (hk : k.val < 3) {v : Int} : InField k v ↔ -512 ≤ v ∧ v ≤ 511 := by
  rw [InField, fieldWidth_of_lt hk]
  exact and_congr_right fun _ => Int.lt_add_one_iff (b := 511)

theorem inField_three {v : Int} : InField 3 v ↔ -2 ≤ v ∧ v ≤ 1 :=
  and_congr_right fun _ => Int.lt_add_one_iff (b := 1)

/-- Four lanes in range: the three of 10 bits, and the one of 2. -/
theorem forall_inField_iff {v : Fin 4 → Int} :
    (∀ k, InField k (v k)) ↔ (∀ k : Fin 4, k.val < 3 → -512 ≤ v k ∧ v k ≤ 511) ∧ -2 ≤ v 3 ∧ v 3 ≤ 1 := by
  constructor
  · exact fun h => ⟨fun k hk => (inField_of_lt hk).mp (h k), inField_three.mp (h 3)⟩
  · rintro ⟨hlow, htop⟩ k
    rcases (Fin.le_last k).lt_or_eq with hk | rfl
    · exact (inField_of_lt hk).mpr (hlow k hk)
    · exact inField_three.mpr htop

theorem inField_toInt {k : Fin 4} (x : BitVec (fieldWidth k)) : InField k x.toInt := ⟨x.le_toInt, x.toInt_lt⟩

theorem inField_clampToField (k : Fin 4) (v : Int) : InField k (clampToField k v) := by
  have hpos : (0 : Int) < 2 ^ (fieldWidth k - 1) := by positivity
  rw [← clampInt_fieldWidth, clampInt]
  exact ⟨le_max_left _ _, max_lt (by linarith) ((min_le_right _ _).trans_lt (sub_one_lt _))⟩

theorem clampToField_eq_self_iff {k : Fin 4} {v : Int} : clampToField k v = v ↔ InField k v := by
  constructor
  · exact fun h => h ▸ inField_clampToField k v
  · rintro ⟨hlo, hhi⟩
    rw [← clampInt_fieldWidth, clampInt, min_eq_left (Int.le_sub_one_of_lt hhi), max_eq_right hlo]

theorem clampedField_eq (a : Bus) (k : Fin 4) :
    clampedField a k = BitVec.ofInt (fieldWidth k) (clampToField k (lane 32 a k).toInt) := by
  rw [clampedField, clampInt_fieldWidth]

/-- The clamp keeps a lane in its field's range, so the field's pattern stands for the clamped integer. -/
theorem toInt_clampedField (a : Bus) (k : Fin 4) : (clampedField a k).toInt = clampToField k (lane 32 a k).toInt := by
  obtain ⟨hlo, hhi⟩ := inField_clampToField k (lane 32 a k).toInt
  rw [clampedField_eq, BitVec.toInt_ofInt_eq_self (fieldWidth_pos k) hlo hhi]

theorem toNat_maskedField (a : Bus) (k : Fin 4) : (maskedField a k).toNat = (slot a k).toNat % 2 ^ fieldWidth k := by
  rw [maskedField, BitVec.toNat_setWidth, toNat_lane, Nat.mod_mod_of_dvd _ (pow_dvd_pow 2 (fieldWidth_le k))]

/-- A lane that holds a sign-extended field is clamped to that field. -/
theorem clampedField_of_signExtend {a : Bus} {k : Fin 4} {x : BitVec (fieldWidth k)}
    (h : lane 32 a k = x.signExtend 32) : clampedField a k = x := by
  have hself : clampToField k x.toInt = x.toInt := clampToField_eq_self_iff.mpr (inField_toInt x)
  rw [clampedField_eq, h, BitVec.toInt_signExtend_of_le (fieldWidth_le k), hself, BitVec.ofInt_toInt]

/-- A lane that holds a zero-extended field is masked to that field. -/
theorem maskedField_of_setWidth {a : Bus} {k : Fin 4} {x : BitVec (fieldWidth k)}
    (h : lane 32 a k = x.setWidth 32) : maskedField a k = x := by
  rw [maskedField, h, BitVec.setWidth_setWidth_of_le x (fieldWidth_le k), BitVec.setWidth_eq]

/-! ## The four operations (R171 to R174) -/

theorem resultBus_packI3x10_1x2 (a : Bus) :
    resultBus .packI3x10_1x2 a = busOfScalar ((packFields1010102 (clampedField a)).setWidth 64) := rfl

theorem resultBus_packU3x10_1x2 (a : Bus) :
    resultBus .packU3x10_1x2 a = busOfScalar ((packFields1010102 (maskedField a)).setWidth 64) := rfl

theorem resultBus_unpackI3x10_1x2 (a : Bus) :
    resultBus .unpackI3x10_1x2 a = busOfLanes .x4 fun k => (packedField (lane 32 a 0) k).signExtend 32 := rfl

theorem resultBus_unpackU3x10_1x2 (a : Bus) :
    resultBus .unpackU3x10_1x2 a = busOfLanes .x4 fun k => (packedField (lane 32 a 0) k).setWidth 32 := rfl

theorem lane_unpackI3x10_1x2 (a : Bus) (k : Fin 4) :
    lane 32 (resultBus .unpackI3x10_1x2 a) k = (packedField (lane 32 a 0) k).signExtend 32 := by
  rw [resultBus_unpackI3x10_1x2, lane_busOfLanes .x4 _ k (by decide) k.isLt]

theorem lane_unpackU3x10_1x2 (a : Bus) (k : Fin 4) :
    lane 32 (resultBus .unpackU3x10_1x2 a) k = (packedField (lane 32 a 0) k).setWidth 32 := by
  rw [resultBus_unpackU3x10_1x2, lane_busOfLanes .x4 _ k (by decide) k.isLt]

theorem toNat_slot_packFields1010102 (v : (k : Fin 4) → BitVec (fieldWidth k)) :
    (slot (busOfScalar ((packFields1010102 v).setWidth 64)) 0).toNat =
      (v 0).toNat + (v 1).toNat * 2 ^ 10 + (v 2).toNat * 2 ^ 20 + (v 3).toNat * 2 ^ 30 := by
  rw [slot_busOfScalar_zero, BitVec.toNat_setWidth_of_le (by decide), toNat_packFields1010102]

/-- A sign-extended lane has its field's integer. -/
theorem toInt_lane_unpackI3x10_1x2 (a : Bus) (k : Fin 4) :
    (lane 32 (resultBus .unpackI3x10_1x2 a) k).toInt = (packedField (lane 32 a 0) k).toInt := by
  rw [lane_unpackI3x10_1x2, BitVec.toInt_signExtend_of_le (fieldWidth_le k)]

/-- A sign-extended lane is in its field's range. -/
theorem inField_lane_unpackI3x10_1x2 (a : Bus) (k : Fin 4) :
    InField k (lane 32 (resultBus .unpackI3x10_1x2 a) k).toInt := by
  rw [toInt_lane_unpackI3x10_1x2]
  exact inField_toInt _

/-- The residue of a sign-extended lane is its field. -/
theorem toInt_lane_unpackI3x10_1x2_emod (a : Bus) (k : Fin 4) :
    (lane 32 (resultBus .unpackI3x10_1x2 a) k).toInt % 2 ^ fieldWidth k =
      ((slot a 0).toNat : Int) / 2 ^ (10 * k.val) % 2 ^ fieldWidth k := by
  rw [toInt_lane_unpackI3x10_1x2, toInt_emod_two_pow, toNat_packedField_lane]
  push_cast
  rfl

/-- A zero-extended lane has its field's number, in the whole slot. -/
theorem toNat_slot_unpackU3x10_1x2 (a : Bus) (k : Fin 4) :
    (slot (resultBus .unpackU3x10_1x2 a) k).toNat = (packedField (lane 32 a 0) k).toNat := by
  have hlt : (slot (resultBus .unpackU3x10_1x2 a) k).toNat < 2 ^ 32 := slot_resultBus_lt .unpackU3x10_1x2 a k
  rw [← Nat.mod_eq_of_lt hlt, ← toNat_lane, lane_unpackU3x10_1x2, BitVec.toNat_setWidth_of_le (fieldWidth_le k)]

/-! ## The round trips (R172, R174, R175) -/

/-- Packing the fields of an integer, whichever way they were extended, gives its low 32 bits. -/
theorem toNat_slot_packFields_packedField (a : Bus) :
    (slot (busOfScalar ((packFields1010102 (packedField (lane 32 a 0))).setWidth 64)) 0).toNat =
      (slot a 0).toNat % 2 ^ 32 := by
  rw [packFields1010102_packedField, toNat_slot_busOfScalar_lane a 0 (by decide)]

theorem toInt_lane_unpackI_packI (a : Bus) (k : Fin 4) :
    (lane 32 (resultBus .unpackI3x10_1x2 (resultBus .packI3x10_1x2 a)) k).toInt = clampToField k (lane 32 a k).toInt := by
  rw [toInt_lane_unpackI3x10_1x2, resultBus_packI3x10_1x2, lane_busOfScalar _ (by decide), packedField_packFields1010102,
    toInt_clampedField]

theorem toNat_slot_unpackU_packU (a : Bus) (k : Fin 4) :
    (slot (resultBus .unpackU3x10_1x2 (resultBus .packU3x10_1x2 a)) k).toNat = (slot a k).toNat % 2 ^ fieldWidth k := by
  rw [toNat_slot_unpackU3x10_1x2, resultBus_packU3x10_1x2, lane_busOfScalar _ (by decide), packedField_packFields1010102,
    toNat_maskedField]

end Sys2Proof.Machine

namespace Sys2Proof.Proofs

open Sys2Proof.Machine

/-- Settles O46: each field of the result is the pattern of a clamped lane. -/
theorem signedTenBitPackClamps : Obligations.SignedTenBitPackClamps := by
  refine ⟨decode_encode .packI3x10_1x2, fun s => ⟨_, rfl, frame_settle _ _, zeroFrom_busOfScalar _, ?_⟩,
    gives_of_resultBus (by decide)⟩
  intro c
  have hfield : ∀ k, ((clampedField s.a k).toNat : Int) = c k % 2 ^ fieldWidth k := fun k => by
    rw [toNat_clampedField, clampInt_fieldWidth]
    rfl
  rw [State.settle_y, toNat_slot_packFields1010102]
  push_cast
  rw [hfield 0, hfield 1, hfield 2, hfield 3]
  rfl

/-- Settles O47: a lane is its field's signed integer, which is in the field's range and has the field as its residue, and the
clamp of the pack leaves it as it is. -/
theorem signedTenBitUnpackSignExtends : Obligations.SignedTenBitUnpackSignExtends := by
  refine ⟨decode_encode .unpackI3x10_1x2, fun s => ?_, fun s => ⟨_, pipe_eq _ _ s, ?_⟩, gives_of_resultBus (by decide)⟩
  · obtain ⟨hlow, hthree, hone⟩ := forall_inField_iff.mp (inField_lane_unpackI3x10_1x2 s.a)
    refine ⟨_, exec_eq_deliver _ s, frame_settle _ _, slot_resultBus_lt .unpackI3x10_1x2 s.a, fun k hk => ?_, hthree, hone,
      toInt_lane_unpackI3x10_1x2_emod s.a 3⟩
    obtain ⟨hmin, hmax⟩ := hlow k hk
    have hmod := toInt_lane_unpackI3x10_1x2_emod s.a k
    rw [fieldWidth_of_lt hk] at hmod
    exact ⟨hmin, hmax, hmod⟩
  · have hback : clampedField (resultBus .unpackI3x10_1x2 s.a) = packedField (lane 32 s.a 0) :=
      funext fun k => clampedField_of_signExtend (lane_unpackI3x10_1x2 s.a k)
    rw [resultBus_packI3x10_1x2, hback, toNat_slot_packFields_packedField]

/-- Settles O48: each field of the result is a residue of its lane. -/
theorem unsignedTenBitPackWraps : Obligations.UnsignedTenBitPackWraps := by
  refine ⟨decode_encode .packU3x10_1x2, fun s => ⟨_, rfl, frame_settle _ _, zeroFrom_busOfScalar _, ?_⟩,
    gives_of_resultBus (by decide)⟩
  rw [State.settle_y, toNat_slot_packFields1010102]
  simp only [toNat_maskedField]
  rfl

/-- Settles O49: a lane is its field's number, which the mask of the pack leaves as it is. -/
theorem unsignedTenBitUnpackZeroExtends : Obligations.UnsignedTenBitUnpackZeroExtends := by
  refine ⟨decode_encode .unpackU3x10_1x2, fun s => ⟨_, exec_eq_deliver _ s, frame_settle _ _, fun k => ?_⟩,
    fun s => ⟨_, pipe_eq _ _ s, ?_⟩, gives_of_resultBus (by decide)⟩
  · exact (toNat_slot_unpackU3x10_1x2 s.a k).trans (toNat_packedField_lane s.a k)
  · have hback : maskedField (resultBus .unpackU3x10_1x2 s.a) = packedField (lane 32 s.a 0) :=
      funext fun k => maskedField_of_setWidth (lane_unpackU3x10_1x2 s.a k)
    rw [resultBus_packU3x10_1x2, hback, toNat_slot_packFields_packedField]

/-- Settles O50: the uniform shapes by O43 and O44; a 10-10-10-2 lane comes back as the clamped or masked field it was packed to, and
the clamp fixes exactly the lanes in range. -/
theorem lanePackingRoundTrips : Obligations.LanePackingRoundTrips := by
  obtain ⟨⟨-, -, hi2x8, -⟩, ⟨-, -, hi4x8, -⟩, ⟨-, -, hi2x16, -⟩, ⟨-, -, hi4x16, -⟩, -, -, hi2x32, -⟩ :=
    signedUnpacksSplitLanes
  obtain ⟨⟨-, -, hu2x8, -⟩, ⟨-, -, hu4x8, -⟩, ⟨-, -, hu2x16, -⟩, ⟨-, -, hu4x16, -⟩, -, -, hu2x32, -⟩ :=
    unsignedUnpacksSplitLanes
  refine ⟨⟨hi2x8, hu2x8⟩, ⟨hi4x8, hu4x8⟩, ⟨hi2x16, hu2x16⟩, ⟨hi4x16, hu4x16⟩, ⟨hi2x32, hu2x32⟩,
    fun s => ⟨_, pipe_eq _ _ s, toInt_lane_unpackI_packI s.a, ?_⟩, fun s => ⟨_, pipe_eq _ _ s, fun k => ?_⟩,
    gives_of_resultBus (by decide), gives_of_resultBus (by decide), gives_of_resultBus (by decide)⟩
  · simp only [← BitVec.toInt_inj, toInt_lane_unpackI_packI, clampToField_eq_self_iff]
    exact forall_inField_iff
  · rw [toNat_slot_unpackU_packU, fieldWidth]
    split <;> rfl

end Sys2Proof.Proofs
end

section
/-! PROOFS for 43_half_vector.md: each lane of a half-float vector is the scalar converter's result, and the two converters undo each
other lane by lane. -/

namespace Sys2Proof.Machine

open Sys2Proof.Safety

/-! ## The lanes of a half-float vector result (R200, R201) -/

/-- A slot alone on the bus is read as the same lane. -/
theorem lane_busOfList_slot (w : Nat) (a : Bus) (k : Fin 4) : lane w (busOfList [slot a k]) 0 = lane w a k :=
  congrArg (BitVec.setWidth w) (slot_busOfList _ 0)

theorem resultBus_packHalf (n : LaneCount) (a : Bus) :
    resultBus (.packHalf n) a = busOfLanes n fun k => narrowFloat (lane 32 a k) := rfl

theorem resultBus_unpackHalf (n : LaneCount) (a : Bus) :
    resultBus (.unpackHalf n) a = busOfLanes n fun k => widenHalf (lane 16 a k) := rfl

section Lanes

variable {n : LaneCount} {a : Bus} {k : Fin 4}

theorem slot_packHalf (hk : k.val < n.count) :
    slot (resultBus (.packHalf n) a) k = (narrowFloat (lane 32 a k)).setWidth 64 := by
  rw [resultBus_packHalf, slot_busOfLanes, if_pos hk]

theorem slot_unpackHalf (hk : k.val < n.count) :
    slot (resultBus (.unpackHalf n) a) k = (widenHalf (lane 16 a k)).setWidth 64 := by
  rw [resultBus_unpackHalf, slot_busOfLanes, if_pos hk]

theorem lane_packHalf (hk : k.val < n.count) : lane 16 (resultBus (.packHalf n) a) k = narrowFloat (lane 32 a k) := by
  rw [resultBus_packHalf, lane_busOfLanes n _ k (by decide) hk]

theorem lane_unpackHalf (hk : k.val < n.count) : lane 32 (resultBus (.unpackHalf n) a) k = widenHalf (lane 16 a k) := by
  rw [resultBus_unpackHalf, lane_busOfLanes n _ k (by decide) hk]

/-- A lane of `packHalf` is `floatToHalfBits` of that lane's slot alone on the bus. -/
theorem slot_packHalf_eq_floatToHalfBits (hk : k.val < n.count) :
    slot (resultBus (.packHalf n) a) k = slot (resultBus .floatToHalfBits (busOfList [slot a k])) 0 := by
  rw [slot_packHalf hk, resultBus_floatToHalfBits, slot_busOfScalar_zero, lane_busOfList_slot]

/-- A lane of `unpackHalf` is `halfBitsToFloat` of that lane's slot alone on the bus. -/
theorem slot_unpackHalf_eq_halfBitsToFloat (hk : k.val < n.count) :
    slot (resultBus (.unpackHalf n) a) k = slot (resultBus .halfBitsToFloat (busOfList [slot a k])) 0 := by
  rw [slot_unpackHalf hk, resultBus_halfBitsToFloat, slot_busOfScalar_zero, lane_busOfList_slot]

/-! ## The round trips, lane by lane (R202) -/

theorem slot_packHalf_unpackHalf (hk : k.val < n.count) :
    slot (resultBus (.packHalf n) (resultBus (.unpackHalf n) a)) k = (lane 16 a k).setWidth 64 := by
  rw [slot_packHalf hk, lane_unpackHalf hk, narrowFloat_widenHalf]

theorem lane_unpackHalf_packHalf (hk : k.val < n.count) :
    lane 32 (resultBus (.unpackHalf n) (resultBus (.packHalf n) a)) k = widenHalf (narrowFloat (lane 32 a k)) := by
  rw [lane_unpackHalf hk, lane_packHalf hk]

end Lanes

end Sys2Proof.Machine

namespace Sys2Proof.Proofs

open Sys2Proof.Machine

/-- Settles O51: a lane of the vector and the scalar operation narrow the same pattern. -/
theorem packHalfIsScalarPerLane : Obligations.PackHalfIsScalarPerLane :=
  ⟨decode_encode (.packHalf .x2), decode_encode (.packHalf .x4),
    fun n s => ⟨_, exec_eq_deliver _ s, frame_settle _ _, zeroFrom_resultBus (.packHalf n) s.a,
      fun _ hk => ⟨_, exec_eq_deliver _ _, slot_packHalf_eq_floatToHalfBits hk⟩⟩,
    gives_of_resultBus (by decide)⟩

/-- Settles O52: a lane of the vector and the scalar operation widen the same pattern. -/
theorem unpackHalfIsScalarPerLane : Obligations.UnpackHalfIsScalarPerLane :=
  ⟨decode_encode (.unpackHalf .x2), decode_encode (.unpackHalf .x4),
    fun n s => ⟨_, exec_eq_deliver _ s, frame_settle _ _, zeroFrom_resultBus (.unpackHalf n) s.a,
      fun _ hk => ⟨_, exec_eq_deliver _ _, slot_unpackHalf_eq_halfBitsToFloat hk⟩⟩,
    gives_of_resultBus (by decide)⟩

/-- Settles O53: narrowing undoes widening on every pattern, NaNs among them, and widening undoes narrowing exactly on the values
of a half. -/
theorem halfVectorRoundTrips : Obligations.HalfVectorRoundTrips := by
  refine ⟨fun n s => ⟨_, pipe_eq _ _ s, fun k hk => slot_packHalf_unpackHalf hk⟩,
    fun n s => ⟨_, pipe_eq _ _ s, fun k hk hnan => ?_⟩⟩
  rw [lane_unpackHalf_packHalf hk]
  rw [isNaN, decide_eq_false_iff_not] at hnan
  exact widenHalf_narrowFloat_eq_iff hnan

end Sys2Proof.Proofs
end

section
/-! PROOFS for 60_exceptions.md: every instruction completes, and the refusal of a reserved word is the one other outcome and leaves
no trace. -/

namespace Sys2Proof.Machine

/-! ## The words that are refused (R65, R221) -/

/-- The decoder rejects exactly the reserved words. -/
theorem exists_decode_error_iff_reserved (c : CmdWord) : (∃ e, decode c = .error e) ↔ WellFormed.reserved c = true := by
  rw [← illOutput_eq_reserved]
  cases h : decode c with
  | ok i => simp [illOutput_of_ok h]
  | error e => simp [illOutput_of_error h]

/-- A step refuses exactly at a reserved word, whatever stands on the other ports, and for the one reason. -/
theorem step_eq_refused_iff {s : State} {r : Refusal} :
    step s = .refused r ↔ WellFormed.reserved s.cmd = true ∧ r = .illegalCommand := by
  rw [← exists_decode_error_iff_reserved]
  constructor
  · exact step_refused_cases
  · rintro ⟨⟨e, he⟩, rfl⟩
    exact step_of_error he

end Sys2Proof.Machine

namespace Sys2Proof.Proofs

open Sys2Proof.Machine

/-- Settles O14: every instruction delivers its result bus, and a delivered result is a settled one, which keeps the frame. -/
theorem everyInstructionCompletes : Obligations.EveryInstructionCompletes := fun i s =>
  ⟨_, exec_eq_deliver i s, frame_settle s (resultBus i s.a)⟩

/-- Settles O20: a step refuses exactly at a reserved word, CMD is all that decides it, and an evaluation reads nothing of the state
that the one before it left. -/
theorem refusalLeavesNoTrace : Obligations.RefusalLeavesNoTrace := by
  refine ⟨fun _ _ => step_eq_refused_iff.mp, fun s c hc => ⟨fun a => ⟨?_, ?_⟩, fun a c' a' => ?_⟩⟩
  · exact step_eq_refused_iff.mpr ⟨hc, rfl⟩
  · rw [illOutput_eq_reserved, hc]
  · rw [evaluate_congr (evaluate s c a).1 s]

end Sys2Proof.Proofs
end

section
/-! PROOFS for 70_reset_and_hazards.md: a step that gives a result leaves a state that every further step repeats, and a sample is the
evaluation of the inputs that last changed, once LATENCY has passed. -/

namespace Sys2Proof.Machine

open Sys2Proof.Safety

/-! ## A result settles the ports (R255) -/

/-- A run of a machine from a state that its step repeats stays there. -/
theorem run_of_step_eq_self {M : Host.Core} {s : M.State} (h : M.step s = .next s) (n : Nat) : M.run n s = .next s := by
  induction n with
  | zero => rfl
  | succ n ih =>
    rw [Host.Core.run, h]
    exact ih

/-- A step that gives a result leaves CMD and A as they are, and ILL as CMD decides it. -/
theorem step_next_ports {s t : State} (h : step s = .next t) : t.cmd = s.cmd ∧ t.a = s.a ∧ t.ill = illOutput s.cmd := by
  obtain ⟨i, hi, rfl⟩ := step_cases h
  exact ⟨State.settle_cmd _ _, State.settle_a _ _, (illOutput_of_ok hi).symm⟩

/-- The state after a result is settled: its inputs are the ones evaluated, and they decide the next step. -/
theorem settled_of_step_next {s t : State} (h : step s = .next t) : Settled t := by
  obtain ⟨hcmd, ha, hill⟩ := step_next_ports h
  exact ⟨hcmd ▸ hill, (step_congr hcmd ha).trans h⟩

/-! ## The inputs a sample sees (R253) -/

/-- A change made by the time of the sample hides the earlier ones: the sample is the evaluation of its inputs, from any state, as
soon as LATENCY has passed since it. -/
theorem sample_cons_of_le {d : InputChange} {t : Nat} (hd : d.time ≤ t) (earlier : List InputChange) (s : State) :
    sample (d :: earlier) t = if d.time + Config.latency d.cmd ≤ t then some (step (s.present d.cmd d.a)) else none := by
  have hfind : (d :: earlier).find? (fun c => c.time ≤ t) = some d := List.find?_cons_of_pos (decide_eq_true hd)
  have hstep : step (State.reset.present d.cmd d.a) = step (s.present d.cmd d.a) := step_congr rfl rfl
  simp only [sample, hfind, hstep]

end Sys2Proof.Machine

namespace Sys2Proof.Proofs

open Sys2Proof.Machine

/-- Settles O21: a result leaves settled ports, which a run repeats, and the inputs alone decide the outcome of a step. -/
theorem stepLeavesSettledPorts : Obligations.StepLeavesSettledPorts := by
  refine ⟨fun s t h => ?_, fun s s' r h hc ha => (step_congr hc ha).trans h⟩
  have hsettled := settled_of_step_next h
  obtain ⟨hcmd, ha, -⟩ := step_next_ports h
  exact ⟨hsettled, hcmd, ha, run_of_step_eq_self (M := core) hsettled.2, fun s' hc' ha' => (step_congr hc' ha').trans h⟩

/-- Settles O23: the newest change is the one the sample sees, and its step does not depend on what the ports held. -/
theorem sampleWaitsForLatency : Obligations.SampleWaitsForLatency := fun _ earlier _ s hd =>
  sample_cons_of_le hd earlier s

end Sys2Proof.Proofs
end
